-- ==== Sys2Proof/Word.lean ====
section
/-! DEFINITION. The bit-vector types of the block and nothing else. Bit 0 is the least significant bit and every
value is unsigned (00_scope.md R11); a 1-bit signal or register is a `Bool`, 1 being `true`. -/

namespace Sys2Proof

/-- One SPI byte, and one register of the hardware SPI peripheral (00_scope.md R8, `BYTE_W` and `SB_DATA_W`). -/
abbrev Byte := BitVec 8

/-- The 16-bit address field of a command (00_scope.md R8, `ADDR_FIELD_W`). -/
abbrev AddrField := BitVec 16

/-- One bus data word; also the width of the frame accumulator (00_scope.md R8, `BUS_DATA_W` and `ACC_W`). -/
abbrev Word := BitVec 32

end Sys2Proof
end

