-- ==== Sys2Proof/Config.lean ====
section
/-! DEFINITION. The constants the spec fixes (00_scope.md R8), the parameters it leaves open (R9), what the
environment drives in one tick (10_state.md R47), and the two free values: the draws of the environment. -/

namespace Sys2Proof

/-- `OPC_READ` (00_scope.md R8). -/
def Config.opcRead : Byte := 0x03#8

/-- `OPC_WRITE` (00_scope.md R8). -/
def Config.opcWrite : Byte := 0x02#8

/-- The open parameters of an instance (00_scope.md R9). They are arguments of the model: a field of State that no
step writes, so a statement about every state is one about every parameter value (log entry 4). `TRANSPORT` is not
here: it is the constructor of the state's `port` (10_state.md R20). -/
structure Params where
  /-- `BUS_ADDR_W`, at least 16. -/
  busAddrW : Nat
  /-- `HIGH_ADDR`, below `2^(BUS_ADDR_W - 16)`. -/
  highAddr : Nat
  /-- `SB_ADDR_W`, at least 2. -/
  sbAddrW : Nat
  /-- `SB_REG_CR`, the control register's address. -/
  sbRegCr : Nat
  /-- `SB_REG_SR`, the status register's address. -/
  sbRegSr : Nat
  /-- `SB_REG_TXDR`, the transmit-data register's address. -/
  sbRegTxdr : Nat
  /-- `SB_REG_RXDR`, the receive-data register's address. -/
  sbRegRxdr : Nat
  /-- `SB_CR_ENABLE`, the value written to the control register after reset. -/
  sbCrEnable : Byte
  /-- `SB_SR_BUSY`, the bit position of busy/selected in the status register. -/
  sbSrBusy : Fin 8
  /-- `SB_SR_TRDY`, the bit position of transmit slot empty. -/
  sbSrTrdy : Fin 8
  /-- `SB_SR_RRDY`, the bit position of receive slot full. -/
  sbSrRrdy : Fin 8
  deriving DecidableEq, Repr

/-- The ranges of 00_scope.md R9: widths, `HIGH_ADDR` in range, four distinct register addresses in the register
space, three distinct status bits. -/
def Params.wf (p : Params) : Bool :=
  decide (16 ≤ p.busAddrW) && decide (p.highAddr < 2 ^ (p.busAddrW - 16)) && decide (2 ≤ p.sbAddrW)
    && decide ([p.sbRegCr, p.sbRegSr, p.sbRegTxdr, p.sbRegRxdr].Nodup)
    && [p.sbRegCr, p.sbRegSr, p.sbRegTxdr, p.sbRegRxdr].all (fun r => decide (r < 2 ^ p.sbAddrW))
    && decide ([p.sbSrBusy, p.sbSrTrdy, p.sbSrRrdy].Nodup)

/-- The parameters of `State.reset`: `HIGH_ADDR` has the spec's default 0 (R9), every other value is a DESIGN CHOICE
(log entry 4; the status bits are those of the example in 42_transport_b.md R155). Unsafe: no statement rests on
them. -/
def Config.params : Params where
  busAddrW := 16
  highAddr := 0
  sbAddrW := 2
  sbRegCr := 0
  sbRegSr := 1
  sbRegTxdr := 2
  sbRegRxdr := 3
  sbCrEnable := 0x80#8
  sbSrBusy := 6
  sbSrTrdy := 4
  sbSrRrdy := 3

/-- What the SPI master, the hardware SPI peripheral and the reset source drive in one tick (10_state.md R47). An
input that the instance's transport does not have is never read. -/
structure Pins where
  /-- `in.rst` -/
  rst : Bool
  /-- `in.sclk` -/
  sclk : Bool
  /-- `in.cs_n`, the physical level: 1 = deselected -/
  csN : Bool
  /-- `in.mosi` -/
  mosi : Bool
  /-- `in.sb_ack` -/
  sbAck : Bool
  /-- `in.sb_dat_r` -/
  sbDatR : Byte
  deriving DecidableEq, Repr, Inhabited

/-- What the bus slave drives in one tick, and the fill byte of the tick (10_state.md R47). -/
structure BusSide where
  /-- `in.ack` -/
  ack : Bool
  /-- `in.dat_r` -/
  datR : Word
  /-- `in.fill`, the draw of 43_bridge.md R181 -/
  fill : Byte
  deriving DecidableEq, Repr, Inhabited

/-- All inputs of one tick (10_state.md R47). -/
structure Inputs where
  /-- the master's, the peripheral's and the reset source's part -/
  pins : Pins
  /-- the bus slave's part and the fill byte -/
  bus : BusSide
  deriving DecidableEq, Repr, Inhabited

/-- FREE VALUE (log entry 5): what the master, the peripheral and the reset source drive in tick `n` where the state
lists nothing for it. No law constrains it (00_scope.md R7, R13). -/
opaque Config.pinsDraw : Nat → Pins

/-- FREE VALUE (log entry 5): what the bus slave drives in tick `n`, and the fill byte of that tick, where the state
lists nothing for it (43_bridge.md R181; 93_implementation_defined.md I-2, I-7). -/
opaque Config.busDraw : Nat → BusSide

end Sys2Proof
end

