-- ==== Sys2Proof/Syntax.lean ====
section
/-! DEFINITION. The syntax of the bridge command protocol: a frame of SPI bytes (30_encoding.md R82 to R84), and the
three command classes of spec/opcode_table.json (R85). -/

namespace Sys2Proof

/-- One SPI frame: the whole bytes in the order sent, then the bits of a partial last byte, in the order sent
(30_encoding.md R82, R83; `FRAME [b0, ..., bk]` and `FRAME [b0, ..., bj, partial m]` of R89). -/
structure Frame where
  /-- bytes 0, 1, 2, ... -/
  bytes : List Byte
  /-- the bits of a partial last byte, first sent first; empty when the frame ends on a byte boundary -/
  tail : List Bool
  deriving DecidableEq, Repr

/-- The three command classes (30_encoding.md R85). -/
inductive OpClass where
  | read
  | write
  | unknown
  deriving DecidableEq, Repr

/-- One command: one constructor per row of spec/opcode_table.json. A command is a whole frame, so each constructor
carries every byte of it: the lead byte (R84), the operands (R86), the bytes after the last one the command uses, and
the bits of a partial last byte (R83). -/
inductive Instr where
  /-- READ (43_bridge.md R190): opcode 0x03, a 16-bit address, then any number of pad bytes. -/
  | read (lead : Byte) (addr : AddrField) (pad : List Byte) (tail : List Bool)
  /-- WRITE (43_bridge.md R191): opcode 0x02, a 16-bit address, a 32-bit data word, then any number of pad bytes. -/
  | write (lead : Byte) (addr : AddrField) (data : Word) (pad : List Byte) (tail : List Bool)
  /-- UNKNOWN (43_bridge.md R192): any other opcode, then any further bytes. -/
  | unknown (lead : Byte) (opcode : Byte) (rest : List Byte) (tail : List Bool)
  deriving DecidableEq, Repr

end Sys2Proof
end

