-- ==== Sys2Proof/WellFormed.lean ====
section
/-! DEFINITION. Which commands and frames are well formed: a partial last byte has fewer than 8 bits
(30_encoding.md R83, R89), and an UNKNOWN command's opcode is neither READ's nor WRITE's (R85). -/

namespace Sys2Proof

/-- A partial last byte has 0 to 7 bits (30_encoding.md R83). -/
def Frame.wf (f : Frame) : Bool := decide (f.tail.length < 8)

/-- Well-formed commands. Addresses, data, lead and pad bytes may take any value (30_encoding.md R88). -/
def Instr.wf : Instr → Bool
  | .read _ _ _ tail => decide (tail.length < 8)
  | .write _ _ _ _ tail => decide (tail.length < 8)
  | .unknown _ opcode _ tail =>
      decide (tail.length < 8) && decide (opcode ≠ Config.opcRead) && decide (opcode ≠ Config.opcWrite)

end Sys2Proof
end

