-- ==== Sys2Proof/Decode.lean ====
section
/-! DEFINITION. From the bytes of a frame to its command, total and rejecting by name; the encoder; and the frame that
stands for a word of spec/opcode_table.json. Layout: byte 0 lead, byte 1 opcode, bytes 2 and 3 address, bytes 4 to 7
data, multi-byte fields most significant byte first (30_encoding.md R84 to R87, 20_memory.md R66). -/

namespace Sys2Proof

/-- Why no command can be read from a frame. Each is a frame the block RUNS all the same, without a bus transaction
(43_bridge.md R185, label E7 of 60_exceptions.md R241); it is no refusal of the machine. -/
inductive DecodeError where
  /-- fewer than two whole bytes: no opcode byte was received -/
  | noOpcode
  /-- opcode 0x03 with fewer than 4 bytes (30_encoding.md R87) -/
  | readTooShort
  /-- opcode 0x02 with fewer than 8 bytes (30_encoding.md R87) -/
  | writeTooShort
  /-- the bits listed as a partial last byte are 8 or more: they are no partial byte (30_encoding.md R83) -/
  | tailNotPartial
  deriving DecidableEq, Repr

/-- The class of an opcode byte: all eight bits are compared (30_encoding.md R85). -/
def opcodeClass (op : Byte) : OpClass :=
  if op = Config.opcRead then .read else if op = Config.opcWrite then .write else .unknown

/-- How many bytes a command needs before it dispatches, told from byte 1 alone; none for a class that never does
(30_encoding.md R87). -/
def dispatchLength (op : Byte) : Option Nat :=
  match opcodeClass op with
  | .read => some 4
  | .write => some 8
  | .unknown => none

/-- A 16-bit field from two bytes, the first the more significant (20_memory.md R66). -/
def addrOfBytes (b1 b0 : Byte) : AddrField := b1 ++ b0

/-- A 32-bit field from four bytes, the first the most significant (20_memory.md R66). -/
def wordOfBytes (b3 b2 b1 b0 : Byte) : Word := b3 ++ b2 ++ b1 ++ b0

/-- Bits 15:8 and 7:0 of an address field, in the order sent (30_encoding.md R84). -/
def addrBytes (a : AddrField) : List Byte := [a.extractLsb' 8 8, a.extractLsb' 0 8]

/-- Bits 31:24, 23:16, 15:8 and 7:0 of a word: the order in which write data arrives (30_encoding.md R84) and in which
a read word goes out (20_memory.md R67). -/
def wordBytes (d : Word) : List Byte :=
  [d.extractLsb' 24 8, d.extractLsb' 16 8, d.extractLsb' 8 8, d.extractLsb' 0 8]

/-- The READ row: two address bytes, then pad bytes. -/
def decodeRead (lead : Byte) (tail : List Bool) : List Byte → Except DecodeError Instr
  | a1 :: a0 :: pad => .ok (.read lead (addrOfBytes a1 a0) pad tail)
  | _ => .error .readTooShort

/-- The WRITE row: two address bytes, four data bytes, then pad bytes. -/
def decodeWrite (lead : Byte) (tail : List Bool) : List Byte → Except DecodeError Instr
  | a1 :: a0 :: d3 :: d2 :: d1 :: d0 :: pad =>
      .ok (.write lead (addrOfBytes a1 a0) (wordOfBytes d3 d2 d1 d0) pad tail)
  | _ => .error .writeTooShort

/-- The rows of the opcode table on the bytes after the opcode; UNKNOWN is the row of lowest priority. -/
def decodeRest (lead op : Byte) (tail : List Bool) (rest : List Byte) : Except DecodeError Instr :=
  match opcodeClass op with
  | .read => decodeRead lead tail rest
  | .write => decodeWrite lead tail rest
  | .unknown => .ok (.unknown lead op rest tail)

/-- The command of a frame, or by name why there is none. Total on any bytes. -/
def decode (f : Frame) : Except DecodeError Instr :=
  if f.tail.length < 8 then
    match f.bytes with
    | lead :: op :: rest => decodeRest lead op f.tail rest
    | _ => .error .noOpcode
  else .error .tailNotPartial

/-- `FRAME [lead, 0x03, a[15:8], a[7:0], pad ...]` (30_encoding.md R84). -/
def readFrame (lead : Byte) (addr : AddrField) (pad : List Byte) (tail : List Bool) : Frame :=
  { bytes := lead :: Config.opcRead :: (addrBytes addr ++ pad), tail := tail }

/-- `FRAME [lead, 0x02, a[15:8], a[7:0], d[31:24], d[23:16], d[15:8], d[7:0], pad ...]` (30_encoding.md R84). -/
def writeFrame (lead : Byte) (addr : AddrField) (data : Word) (pad : List Byte) (tail : List Bool) : Frame :=
  { bytes := lead :: Config.opcWrite :: (addrBytes addr ++ (wordBytes data ++ pad)), tail := tail }

/-- `FRAME [lead, op, rest ...]` (30_encoding.md R84). -/
def unknownFrame (lead op : Byte) (rest : List Byte) (tail : List Bool) : Frame :=
  { bytes := lead :: op :: rest, tail := tail }

/-- The frame the SPI master sends for a command. -/
def encode : Instr → Frame
  | .read lead addr pad tail => readFrame lead addr pad tail
  | .write lead addr data pad tail => writeFrame lead addr data pad tail
  | .unknown lead op rest tail => unknownFrame lead op rest tail

/-- `READ a, pad n` of the frame forms of 30_encoding.md R89: lead and pad bytes 0x00. -/
def formRead (addr : AddrField) (n : Nat) : Frame := readFrame 0x00#8 addr (List.replicate n 0x00#8) []

/-- `WRITE a, d` of 30_encoding.md R89. -/
def formWrite (addr : AddrField) (data : Word) : Frame := writeFrame 0x00#8 addr data [] []

/-- `NOP op, pad n` of 30_encoding.md R89, for an opcode that is neither READ's nor WRITE's. -/
def formNop (op : Byte) (n : Nat) : Frame := unknownFrame 0x00#8 op (List.replicate (2 + n) 0x00#8) []

/-- Byte `k` of the number `w`, byte 0 the least significant. -/
def tableByte (w k : Nat) : Byte := BitVec.ofNat 8 (w / 256 ^ k)

/-- The frame of a word of spec/opcode_table.json (log entry 11). The table's bits begin at the OPCODE byte: its
`match` is compared with byte 1 of the frame, so bits 7:0 are byte 1, bits 15:8 byte 2 and so on; the lead byte has no
bits there and is 0x00. Every bit above `nbits` is 0. The frame has 9 bytes: the 8 that a WRITE uses and one more, so
that a READ's whole word goes out inside it (70_reset_and_hazards.md R283, duty M4). -/
def tableFrame (nbits w : Nat) : Frame :=
  { bytes := 0x00#8 :: (List.range 8).map (tableByte (w % 2 ^ nbits)), tail := [] }

/-- The command this decoder reads from a word of spec/opcode_table.json. -/
def decodeTableWord (nbits w : Nat) : Option Instr :=
  match decode (tableFrame nbits w) with
  | .ok i => some i
  | .error _ => none

end Sys2Proof
end

