-- ==== Sys2Proof/Machine/State.lean ====
section
/-! DEFINITION. The state of the block (10_state.md R20 to R45), its outputs' form (R48), the environment as plain data
beside it, the reasons a step can stop, and reset (R51). -/

namespace Sys2Proof.Machine

/-- The Synchronizer: two flip-flops per line (10_state.md R21 to R23). -/
structure Sync where
  sclk1 : Bool
  sclk2 : Bool
  /-- physical level, 1 = deselected -/
  csn1 : Bool
  csn2 : Bool
  mosi1 : Bool
  mosi2 : Bool
  deriving DecidableEq, Repr

/-- Transport A (10_state.md R24 to R30). -/
structure PortA where
  sclkPrev : Bool
  selPrev : Bool
  bitCount : BitVec 3
  byteDone : Bool
  rxShift : Byte
  txShift : Byte
  /-- `a.partial` (R30) -/
  partialFlag : Bool
  deriving DecidableEq, Repr

/-- `b.state`: the five states of the adapter (10_state.md R31). -/
inductive AdapterState where
  | reset
  | idle
  | poll
  | rxread
  | txwrite
  deriving DecidableEq, Repr

/-- Transport B (10_state.md R31 to R36). -/
structure PortB where
  state : AdapterState
  busy : Bool
  busyPrev : Bool
  rxStrobe : Bool
  rxByte : Byte
  txData : Byte
  deriving DecidableEq, Repr

/-- The transport of an instance. `sync` and `a` are present only when `TRANSPORT = A`, `b` only when
`TRANSPORT = B` (10_state.md R20, 00_scope.md R3). -/
inductive Port where
  | a (sync : Sync) (a : PortA)
  | b (b : PortB)
  deriving DecidableEq, Repr

/-- `br.state`: the four states of the Bridge, and of the bus transactor (10_state.md R37). -/
inductive BridgeState where
  | idle
  | command
  | read
  | write
  deriving DecidableEq, Repr

/-- The Bridge and its bus transactor (10_state.md R37 to R45). -/
structure Bridge where
  state : BridgeState
  acc : Word
  count : BitVec 3
  opcode : Byte
  addr : AddrField
  /-- `br.addrHigh`, of `BUS_ADDR_W - 16` bits (R42) -/
  addrHigh : Nat
  wdata : Word
  txWord : Word
  txLeft : BitVec 3
  deriving DecidableEq, Repr

/-- The signals from the transport to the Bridge in one tick (30_encoding.md R91). -/
structure Events where
  start : Bool
  byteReady : Bool
  /-- meaningful when `byteReady` is 1 -/
  byte : Byte
  done : Bool
  txReq : Bool
  deriving DecidableEq, Repr

/-- The events of 00_scope.md R14 that both transports emit alike (43_bridge.md R200): what the Bridge sees of a frame,
apart from the requests. -/
inductive FrameEvent where
  | start
  | byteReady (b : Byte)
  | done
  deriving DecidableEq, Repr

/-- The outputs of the transport's own port (10_state.md R48). -/
inductive PortOut where
  | a (miso partialFlag : Bool)
  | b (sbStb sbWe : Bool) (sbAdr : Nat) (sbDatW : Byte)
  deriving DecidableEq, Repr

/-- The outputs of one tick (10_state.md R48). -/
structure Outputs where
  port : PortOut
  cyc : Bool
  stb : Bool
  we : Bool
  /-- of `BUS_ADDR_W` bits -/
  adr : Nat
  datW : Word
  deriving DecidableEq, Repr

/-- The direction of a bus transaction (44_bus_transactor.md R231). -/
inductive Dir where
  | read
  | write
  deriving DecidableEq, Repr

/-- One entry of the observable transaction record (44_bus_transactor.md R231). -/
structure BusEntry where
  dir : Dir
  adr : Nat
  /-- none stands for ⊥: the cycle has had no acknowledge, or a reset cancelled it -/
  data : Option Word
  deriving DecidableEq, Repr

/-- The word store of the memory slave MS (95_test_vectors.md section 0.2), part of the environment and not of the
block (10_state.md R49): pairs of a word address and a word, addresses strictly rising, no entry equal to what an
unlisted address reads as (log entry 14). -/
abbrev Memory := List (Nat × Word)

/-- What a word that nothing has written reads as: "It holds 0 at every address unless a vector says otherwise"
(95_test_vectors.md section 0.2). -/
def Memory.unlisted : Word := 0#32

/-- The bus slave, an environment agent (00_scope.md R7), as data: what it will drive. -/
inductive Slave where
  /-- the values it drives in the coming ticks, the next tick first; after the last of them, free draws -/
  | script (replies : List BusSide)
  /-- the memory slave MS of 95_test_vectors.md section 0.2 -/
  | ms (mem : Memory)
  deriving DecidableEq, Repr

/-- What the SPI master, the peripheral and the reset source do next (00_scope.md R7): one clock tick with these
values, or one whole frame. -/
inductive Stimulus where
  | tick (pins : Pins)
  | frame (f : Frame)
  deriving DecidableEq, Repr

/-- The state: the parameters, the block's registers, and the model's own fields. -/
structure State where
  /-- the parameters of 00_scope.md R9; no step writes them -/
  cfg : Params
  /-- Synchronizer and Transport A, or Transport B -/
  port : Port
  /-- the Bridge and the bus transactor -/
  br : Bridge
  /-- environment: what happens next (log entry 1) -/
  todo : List Stimulus
  /-- environment: the bus slave (log entry 6) -/
  slave : Slave
  /-- ticks taken: the counter the free draws are applied to (log entry 5) -/
  now : Nat
  /-- observation: the transaction record of 44_bus_transactor.md R231 (log entry 7) -/
  record : List BusEntry
  /-- observation: the bytes taken by `RequestNextByte` (00_scope.md R14; log entry 7) -/
  served : List Byte
  /-- observation: the events `Start`, `ByteReady`, `Done` (00_scope.md R14; log entry 7) -/
  seen : List FrameEvent
  deriving DecidableEq, Repr

/-- What the standard peripheral of Variant B still has to say inside one frame (log entry 3): the answers to the coming
status reads, each with the byte the receive-data register holds from then on, and the byte it holds now. -/
structure Peripheral where
  polls : List (Byte × Byte)
  rxData : Byte
  deriving DecidableEq, Repr

/-- The reasons a step can stop with a fault: none. "The block has no exceptions, no trap vector, no cause register, no
saved state and no handler"; every input sequence leads to a defined next state (60_exceptions.md R240). A hang (label
E3) is no stop: the block keeps ticking (44_bus_transactor.md R226). -/
inductive Fault where
  deriving DecidableEq, Repr

/-- The reasons a step can refuse. -/
inductive Refusal where
  /-- Raised by an arm of `exec` whose instruction has no meaning yet; no arm raises it. Safe: the machine stops. -/
  | notModelled (mnemonic : String)
  deriving DecidableEq, Repr

/-- Reset value of the Synchronizer (10_state.md R51). -/
def Sync.resetValue : Sync :=
  { sclk1 := false, sclk2 := false, csn1 := true, csn2 := true, mosi1 := false, mosi2 := false }

/-- Reset value of Transport A: every field 0 (10_state.md R51). -/
def PortA.resetValue : PortA :=
  { sclkPrev := false, selPrev := false, bitCount := 0#3, byteDone := false, rxShift := 0#8, txShift := 0#8,
    partialFlag := false }

/-- Reset value of Transport B: `RESET`, every other field 0 (10_state.md R51). -/
def PortB.resetValue : PortB :=
  { state := .reset, busy := false, busyPrev := false, rxStrobe := false, rxByte := 0#8, txData := 0#8 }

/-- Reset value of the transport that is present (10_state.md R51). -/
def Port.resetValue : Port → Port
  | .a _ _ => .a Sync.resetValue PortA.resetValue
  | .b _ => .b PortB.resetValue

/-- Reset value of the Bridge: `Idle`, `addrHigh = HIGH_ADDR`, every other field 0 (10_state.md R51). -/
def Bridge.resetValue (p : Params) : Bridge :=
  { state := .idle, acc := 0#32, count := 0#3, opcode := 0#8, addr := 0#16, addrHigh := p.highAddr, wdata := 0#32,
    txWord := 0#32, txLeft := 0#3 }

/-- The block right after reset, for any parameters and either transport (only the constructor of `port` is read).
Nothing is scheduled, the slave is unconstrained, and the record of the run is empty. -/
def State.resetWith (p : Params) (port : Port) : State :=
  { cfg := p, port := port.resetValue, br := Bridge.resetValue p, todo := [], slave := .script [], now := 0,
    record := [], served := [], seen := [] }

/-- The machine right after reset (10_state.md R51). The choice of Variant A and of `Config.params` is a DESIGN CHOICE
(log entry 4). -/
def State.reset : State := State.resetWith Config.params (.a Sync.resetValue PortA.resetValue)

end Sys2Proof.Machine
end

