-- ==== Sys2Proof/Machine/Operands.lean ====
section
/-! DEFINITION. Every operand form of the protocol: the FrameAccumulator that assembles opcode, address and write data
(30_encoding.md R86, 43_bridge.md R186 to R189), the bus address (44_bus_transactor.md R221), the shift registers of
Transport A, and the outgoing-byte source (43_bridge.md R181, R196). -/

namespace Sys2Proof.Machine

/-- `((acc << 8) | b) mod 2^32`: the newest byte at bits 7:0 (43_bridge.md R186; 90_conflicts.md C1). -/
def foldByte (acc : Word) (b : Byte) : Word := acc <<< 8 ||| b.setWidth 32

/-- `min(k + 1, 7)`: the saturating byte counter (43_bridge.md R186; 90_conflicts.md C3). -/
def countUp (k : BitVec 3) : BitVec 3 := if k = 7#3 then 7#3 else k + 1#3

/-- `a[7:0]`, the opcode capture (43_bridge.md R187). -/
def opcodeOf (a : Word) : Byte := a.extractLsb' 0 8

/-- `a[15:0]`, the address capture (43_bridge.md R188). -/
def addrOf (a : Word) : AddrField := a.extractLsb' 0 16

/-- `zext(addrHigh * 2^16 + addr)`, a number of `BUS_ADDR_W` bits (44_bus_transactor.md R221; 20_memory.md R61). -/
def busAddr (p : Params) (addrHigh : Nat) (addr : AddrField) : Nat :=
  (addrHigh * 2 ^ 16 + addr.toNat) % 2 ^ p.busAddrW

/-- `{v[6:0], m}`: a shift register that takes a bit at its low end (41_transport_a.md R124, R126). -/
def shiftIn (v : Byte) (m : Bool) : Byte := (v.setWidth 7).concat m

/-- `out.txByte`: the most significant byte of the waiting read word, or the fill byte of the tick
(43_bridge.md R181). -/
def Bridge.txByte (b : Bridge) (fill : Byte) : Byte :=
  if 0#3 < b.txLeft then b.txWord.extractLsb' 24 8 else fill

/-- The outgoing source after a read word is loaded (43_bridge.md R196, first case). -/
def Bridge.loadWord (b : Bridge) (d : Word) : Bridge := { b with txWord := d, txLeft := 4#3 }

/-- The outgoing source after the transport took a byte (43_bridge.md R196, second case). -/
def Bridge.drainByte (b : Bridge) : Bridge := { b with txWord := b.txWord <<< 8, txLeft := b.txLeft - 1#3 }

end Sys2Proof.Machine
end

