-- ==== Sys2Proof/Machine/Flags.lean ====
section
/-! DEFINITION. Every flag computation: clock edges and select transitions of Transport A (41_transport_a.md R120,
R121), the partial-frame condition (R123), and the status bits and busy edges of Transport B (30_encoding.md R94,
42_transport_b.md R159, R160). The block has no condition codes (10_state.md R46). -/

namespace Sys2Proof.Machine

/-- `sclk_s`, the synchronized clock (40_synchronizer.md R114). -/
def Sync.sclkS (y : Sync) : Bool := y.sclk2

/-- `sel_s`, the logical select: 1 = selected (40_synchronizer.md R114). -/
def Sync.selS (y : Sync) : Bool := !y.csn2

/-- `mosi_s`, the synchronized data line (40_synchronizer.md R114). -/
def Sync.mosiS (y : Sync) : Bool := y.mosi2

/-- `rise` (41_transport_a.md R120). -/
def PortA.rise (a : PortA) (y : Sync) : Bool := y.sclkS && !a.sclkPrev

/-- `fall` (41_transport_a.md R120). -/
def PortA.fall (a : PortA) (y : Sync) : Bool := !y.sclkS && a.sclkPrev

/-- `start` (41_transport_a.md R121). -/
def PortA.start (a : PortA) (y : Sync) : Bool := y.selS && !a.selPrev

/-- `done` (41_transport_a.md R121). -/
def PortA.done (a : PortA) (y : Sync) : Bool := !y.selS && a.selPrev

/-- `active` (41_transport_a.md R121). -/
def PortA.active (a : PortA) (y : Sync) : Bool := y.selS && a.selPrev

/-- The frame that ends now is a partial one: an incomplete or undelivered byte is discarded (41_transport_a.md
R123). -/
def PortA.incomplete (a : PortA) : Bool := decide (a.bitCount ≠ 0#3) || a.byteDone

/-- The status bit busy/selected (30_encoding.md R94). -/
def busyBit (p : Params) (sr : Byte) : Bool := sr.getLsbD p.sbSrBusy.val

/-- The status bit transmit slot empty (30_encoding.md R94). -/
def trdyBit (p : Params) (sr : Byte) : Bool := sr.getLsbD p.sbSrTrdy.val

/-- The status bit receive slot full (30_encoding.md R94). -/
def rrdyBit (p : Params) (sr : Byte) : Bool := sr.getLsbD p.sbSrRrdy.val

/-- Busy rises: `Start` of Variant B (42_transport_b.md R159). -/
def PortB.busyRise (b : PortB) : Bool := b.busy && !b.busyPrev

/-- Busy falls: `Done` of Variant B (42_transport_b.md R160). -/
def PortB.busyFall (b : PortB) : Bool := !b.busy && b.busyPrev

/-- A bus cycle is in progress (44_bus_transactor.md R220, 10_state.md R37). -/
def Bridge.inCycle (b : Bridge) : Bool := decide (b.state = .read) || decide (b.state = .write)

end Sys2Proof.Machine
end

