-- ==== Sys2Proof/Machine/Synchronizer.lean ====
section
/-! DEFINITION. The Synchronizer (40_synchronizer.md R110 to R118). Its outputs `sclk_s`, `sel_s` and `mosi_s` are in
Flags.lean; nothing else reads a pin or a stage 1 register (R115). -/

namespace Sys2Proof.Machine

/-- Both stages of the three lines in every tick (40_synchronizer.md R111, R112). The level of a pin that changes near
the sampling instant is the environment's draw, and stage 2 is always clean (R113; log entry 9). -/
def Sync.next (y : Sync) (p : Pins) : Sync :=
  { sclk1 := p.sclk, sclk2 := y.sclk1, csn1 := p.csN, csn2 := y.csn1, mosi1 := p.mosi, mosi2 := y.mosi1 }

end Sys2Proof.Machine
end

