-- ==== Sys2Proof/Machine/TransportA.lean ====
section
/-! DEFINITION. Transport A, the bit-level SPI slave in mode 0 (41_transport_a.md R120 to R136). -/

namespace Sys2Proof.Machine

/-- The events of Transport A (41_transport_a.md R127, R128). -/
def PortA.events (a : PortA) (y : Sync) : Events :=
  let byteReady := a.active y && a.fall y && a.byteDone
  { start := a.start y, byteReady := byteReady, byte := a.rxShift, done := a.done y,
    txReq := a.start y || byteReady }

/-- Start (41_transport_a.md R122). -/
def PortA.onStart (a : PortA) (txByte : Byte) : PortA :=
  { a with bitCount := 0#3, byteDone := false, rxShift := 0#8, txShift := txByte }

/-- Done (41_transport_a.md R123). -/
def PortA.onDone (a : PortA) : PortA :=
  { a with partialFlag := a.partialFlag || a.incomplete, bitCount := 0#3, byteDone := false }

/-- Sample on a rising edge (41_transport_a.md R124). -/
def PortA.onRise (a : PortA) (mosi : Bool) : PortA :=
  { a with rxShift := shiftIn a.rxShift mosi, bitCount := a.bitCount + 1#3,
           byteDone := a.byteDone || decide (a.bitCount = 7#3) }

/-- Complete a byte on a falling edge (41_transport_a.md R125). -/
def PortA.onByte (a : PortA) (txByte : Byte) : PortA := { a with byteDone := false, txShift := txByte }

/-- Shift out on a falling edge (41_transport_a.md R126). -/
def PortA.onShift (a : PortA) : PortA := { a with txShift := shiftIn a.txShift false }

/-- The operation of the tick, in the priority of 41_transport_a.md R134: start, done, rise, fall. -/
def PortA.operate (a : PortA) (y : Sync) (txByte : Byte) : PortA :=
  if a.start y then a.onStart txByte
  else if a.done y then a.onDone
  else if a.active y && a.rise y then a.onRise y.mosiS
  else if a.active y && a.fall y then (if a.byteDone then a.onByte txByte else a.onShift)
  else a

/-- The next state of Transport A (41_transport_a.md R135): the operation of the tick, and the two latches whatever it
is (R130). -/
def PortA.next (a : PortA) (y : Sync) (txByte : Byte) : PortA :=
  { a.operate y txByte with sclkPrev := y.sclkS, selPrev := y.selS }

/-- The outputs of Transport A (41_transport_a.md R129). -/
def PortA.out (a : PortA) : PortOut := .a a.txShift.msb a.partialFlag

end Sys2Proof.Machine
end

