-- ==== Sys2Proof/Machine/TransportB.lean ====
section
/-! DEFINITION. Transport B, the polled adapter for a hardware SPI peripheral (42_transport_b.md R150 to R166). -/

namespace Sys2Proof.Machine

/-- The events of Transport B (42_transport_b.md R159 to R162). Only the request depends on an input of the tick. -/
def PortB.events (b : PortB) (p : Params) (sbAck : Bool) (sr : Byte) : Events :=
  { start := b.busyRise, byteReady := b.rxStrobe, byte := b.rxByte, done := b.busyFall,
    txReq := decide (b.state = .poll) && sbAck && !rrdyBit p sr && trdyBit p sr }

/-- RESET: leave on the acknowledge of the enable write (42_transport_b.md R153). -/
def PortB.inReset (b : PortB) (sbAck : Bool) : PortB := if sbAck then { b with state := .idle } else b

/-- IDLE: one tick without a request (42_transport_b.md R154). -/
def PortB.inIdle (b : PortB) : PortB := { b with rxStrobe := false, state := .poll }

/-- POLL: use the status on the acknowledge, receive-ready before transmit-ready (42_transport_b.md R155). -/
def PortB.inPoll (b : PortB) (p : Params) (sbAck : Bool) (sr : Byte) (txByte : Byte) : PortB :=
  if sbAck then
    if rrdyBit p sr then { b with busy := busyBit p sr, state := .rxread }
    else if trdyBit p sr then { b with busy := busyBit p sr, txData := txByte, state := .txwrite }
    else { b with busy := busyBit p sr, state := .idle }
  else b

/-- RXREAD: latch the byte on the acknowledge (42_transport_b.md R156). -/
def PortB.inRxRead (b : PortB) (sbAck : Bool) (d : Byte) : PortB :=
  if sbAck then { b with rxByte := d, rxStrobe := true, state := .idle } else b

/-- TXWRITE: leave on the acknowledge (42_transport_b.md R157). -/
def PortB.inTxWrite (b : PortB) (sbAck : Bool) : PortB := if sbAck then { b with state := .idle } else b

/-- The operation of the adapter's state (42_transport_b.md R164). -/
def PortB.operate (b : PortB) (p : Params) (sbAck : Bool) (sbDatR : Byte) (txByte : Byte) : PortB :=
  match b.state with
  | .reset => b.inReset sbAck
  | .idle => b.inIdle
  | .poll => b.inPoll p sbAck sbDatR txByte
  | .rxread => b.inRxRead sbAck sbDatR
  | .txwrite => b.inTxWrite sbAck

/-- The next state of Transport B (42_transport_b.md R164): the operation of its state, and the delayed copy of busy in
every tick (R158). -/
def PortB.next (b : PortB) (p : Params) (sbAck : Bool) (sbDatR : Byte) (txByte : Byte) : PortB :=
  { b.operate p sbAck sbDatR txByte with busyPrev := b.busy }

/-- The SB port's outputs (42_transport_b.md R152). -/
def PortB.out (b : PortB) (p : Params) : PortOut :=
  match b.state with
  | .reset => .b true true p.sbRegCr p.sbCrEnable
  | .idle => .b false false p.sbRegSr b.txData
  | .poll => .b true false p.sbRegSr b.txData
  | .rxread => .b true false p.sbRegRxdr b.txData
  | .txwrite => .b true true p.sbRegTxdr b.txData

end Sys2Proof.Machine
end

