-- ==== Sys2Proof/Machine/BridgeFsm.lean ====
section
/-! DEFINITION. The Bridge protocol state machine and its command decoder (43_bridge.md R180 to R199). -/

namespace Sys2Proof.Machine

/-- A `Start` in Idle or in Command: the decode begins afresh (43_bridge.md R182, R184). -/
def Bridge.onStart (b : Bridge) : Bridge := { b with acc := 0#32, count := 0#3, state := .command }

/-- Opcode capture on the byte counted at 1 (43_bridge.md R187). -/
def Bridge.captureOpcode (b : Bridge) (k : BitVec 3) (a : Word) : Bridge :=
  if k = 1#3 then { b with opcode := opcodeOf a } else b

/-- Address capture and READ dispatch on the byte counted at 3 (43_bridge.md R188, R190). -/
def Bridge.dispatchRead (b : Bridge) (k : BitVec 3) (a : Word) : Bridge :=
  if k = 3#3 then
    { b with addr := addrOf a, state := if b.opcode = Config.opcRead then .read else b.state }
  else b

/-- WRITE dispatch on the byte counted at 7 (43_bridge.md R189, R191). -/
def Bridge.dispatchWrite (b : Bridge) (k : BitVec 3) (a : Word) : Bridge :=
  if k = 7#3 ∧ b.opcode = Config.opcWrite then { b with wdata := a, state := .write } else b

/-- Accumulate: fold the byte in and count it (43_bridge.md R186). -/
def Bridge.accumulate (b : Bridge) (byte : Byte) : Bridge :=
  { b with acc := foldByte b.acc byte, count := countUp b.count }

/-- A byte received in Command (43_bridge.md R186 to R189). The thresholds 1, 3 and 7 are tested on the count before
this byte (90_conflicts.md C2); at most one of them applies. -/
def Bridge.onByte (b : Bridge) (byte : Byte) : Bridge :=
  (((b.accumulate byte).captureOpcode b.count (foldByte b.acc byte)).dispatchRead b.count
    (foldByte b.acc byte)).dispatchWrite b.count (foldByte b.acc byte)

/-- The outgoing source of the tick (43_bridge.md R196): a read acknowledge loads the word, else a request takes a
byte if one is waiting. -/
def Bridge.outgoing (b : Bridge) (e : Events) (s : BusSide) : Bridge :=
  if b.state = .read ∧ s.ack = true then b.loadWord s.datR
  else if e.txReq = true ∧ 0#3 < b.txLeft then b.drainByte
  else b

/-- `Done` clears the counter in every state (43_bridge.md R197). -/
def Bridge.clearOnDone (b : Bridge) (e : Events) : Bridge := if e.done then { b with count := 0#3 } else b

/-- The state machine (43_bridge.md R182 to R195). In Read and Write, `Start` and `ByteReady` are dropped (R195) and
only the acknowledge acts (R193, R194); outside them the acknowledge is ignored (44_bus_transactor.md R225). -/
def Bridge.fsm (b : Bridge) (e : Events) (ack : Bool) : Bridge :=
  match b.state with
  | .idle => if e.start then b.onStart else b
  | .command =>
      if e.start then b.onStart
      else if e.done then { b with state := .idle }
      else if e.byteReady then b.onByte e.byte
      else b
  | .read => if ack then { b with state := .idle } else b
  | .write => if ack then { b with state := .idle } else b

/-- The next state of the Bridge (43_bridge.md R199). The three parts write different registers, but for `br.count`,
where the two writes agree, and the outgoing source reads `br.state` of the current tick. -/
def Bridge.next (b : Bridge) (e : Events) (s : BusSide) : Bridge :=
  ((b.outgoing e s).clearOnDone e).fsm e s.ack

end Sys2Proof.Machine
end

