-- ==== Sys2Proof/Machine/BusTransactor.lean ====
section
/-! DEFINITION. The bus transactor (44_bus_transactor.md R220 to R231): it has no register of its own, every output is
a function of the Bridge's registers. -/

namespace Sys2Proof.Machine

/-- `out.adr` (44_bus_transactor.md R221). -/
def Bridge.adr (b : Bridge) (p : Params) : Nat := busAddr p b.addrHigh b.addr

/-- The direction of the cycle in progress: `out.we` is 1 exactly in Write (44_bus_transactor.md R220). -/
def Bridge.dir (b : Bridge) : Dir := if b.state = .write then .write else .read

/-- What the record says of an acknowledged cycle: the word read, or the word written (44_bus_transactor.md R231). -/
def Bridge.movedWord (b : Bridge) (datR : Word) : Word := if b.state = .write then b.wdata else datR

/-- The entry of the cycle in progress, with the word moved or none (44_bus_transactor.md R231). -/
def Bridge.entry (b : Bridge) (p : Params) (data : Option Word) : BusEntry :=
  { dir := b.dir, adr := b.adr p, data := data }

/-- What a tick adds to the transaction record (44_bus_transactor.md R231): an acknowledged cycle, or a cycle that a
reset cancels before its acknowledge. In a tick with both, the acknowledge counts (DEDUCED, log entry 7). -/
def Bridge.recorded (b : Bridge) (p : Params) (rst : Bool) (s : BusSide) : List BusEntry :=
  if b.inCycle then
    if s.ack then [b.entry p (some (b.movedWord s.datR))]
    else if rst then [b.entry p none]
    else []
  else []

/-- The entry of a cycle that has not been acknowledged yet (44_bus_transactor.md R231). -/
def Bridge.pendingEntry (b : Bridge) (p : Params) : List BusEntry := if b.inCycle then [b.entry p none] else []

/-- The bus outputs with those of the transport's port (44_bus_transactor.md R220 to R222). -/
def Bridge.outputs (b : Bridge) (p : Params) (port : PortOut) : Outputs :=
  { port := port, cyc := b.inCycle, stb := b.inCycle, we := decide (b.state = .write), adr := b.adr p,
    datW := b.wdata }

end Sys2Proof.Machine
end

