-- ==== Sys2Proof/Machine/SlaveMemory.lean ====
section
/-! DEFINITION. The memory slave MS of 95_test_vectors.md section 0.2 as canonical data, and what a slave drives in a
tick. It is environment: the block has no memory (20_memory.md, 10_state.md R49). -/

namespace Sys2Proof.Machine

/-- The canonical form: addresses strictly rising, no entry equal to what an unlisted address reads as. -/
def Memory.wf : Memory → Bool
  | [] => true
  | [(_, w)] => decide (w ≠ Memory.unlisted)
  | (a, w) :: (a', w') :: m => decide (w ≠ Memory.unlisted) && decide (a < a') && Memory.wf ((a', w') :: m)

/-- The word at an address (each bus address names one word, 20_memory.md R60). -/
def Memory.read (m : Memory) (a : Nat) : Word :=
  match m with
  | [] => Memory.unlisted
  | (a', w) :: m => if a = a' then w else Memory.read m a

/-- Put an entry at the head, unless it is what an unlisted address reads as. -/
def Memory.put (a : Nat) (w : Word) (m : Memory) : Memory := if w = Memory.unlisted then m else (a, w) :: m

/-- Write a word; the canonical form is kept. -/
def Memory.write (m : Memory) (a : Nat) (w : Word) : Memory :=
  match m with
  | [] => Memory.put a w []
  | (a', w') :: m =>
      if a < a' then Memory.put a w ((a', w') :: m)
      else if a = a' then Memory.put a w m
      else (a', w') :: Memory.write m a w

/-- What the slave drives in a tick, from the block's outputs (R223, R224). A script gives its next reply, then free
draws. MS drives `ack = cyc` and, on a read, the word at `adr`; what it drives on `dat_r` otherwise means nothing and
is 0 here; the fill byte is a free draw (log entry 6). -/
def Slave.drive (v : Slave) (now : Nat) (o : Outputs) : BusSide :=
  match v with
  | .script [] => Config.busDraw now
  | .script (r :: _) => r
  | .ms m => { ack := o.cyc, datR := if o.cyc && !o.we then m.read o.adr else 0#32, fill := (Config.busDraw now).fill }

/-- The slave after a tick: a script moves on, MS performs the write it acknowledges
(95_test_vectors.md section 0.2). -/
def Slave.after (v : Slave) (o : Outputs) : Slave :=
  match v with
  | .script l => .script l.tail
  | .ms m => if o.cyc && o.we then .ms (m.write o.adr o.datW) else .ms m

end Sys2Proof.Machine
end

