-- ==== Sys2Proof/Machine/Ops.lean ====
section
/-! DEFINITION. The shared operations of the machine: the outputs of a tick, reset, the tick (10_state.md R50), runs of
ticks, and the run of a whole frame under the standard environment. Taking an exception has no operation: the block
has none (60_exceptions.md R240, R246, R247); what overrides every rule is reset (70_reset_and_hazards.md R270). -/

namespace Sys2Proof.Machine

/-! ## One tick -/

/-- The outputs of the transport that is present (10_state.md R48). -/
def Port.out (port : Port) (p : Params) : PortOut :=
  match port with
  | .a _ pa => pa.out
  | .b pb => pb.out p

/-- The outputs of the current tick: functions of the state alone (10_state.md R48). -/
def State.outputs (s : State) : Outputs := s.br.outputs s.cfg (s.port.out s.cfg)

/-- The inputs of a tick: the given pins, and what the bus slave drives (10_state.md R47). -/
def State.inputs (s : State) (pins : Pins) : Inputs := { pins := pins, bus := s.slave.drive s.now s.outputs }

/-- The events of the tick (10_state.md R50; 30_encoding.md R91). -/
def Port.events (port : Port) (p : Params) (i : Inputs) : Events :=
  match port with
  | .a y pa => pa.events y
  | .b pb => pb.events p i.pins.sbAck i.pins.sbDatR

/-- The next state of the transport that is present (10_state.md R50). -/
def Port.next (port : Port) (p : Params) (i : Inputs) (txByte : Byte) : Port :=
  match port with
  | .a y pa => .a (y.next i.pins) (pa.next y txByte)
  | .b pb => .b (pb.next p i.pins.sbAck i.pins.sbDatR txByte)

/-- The byte the Bridge offers in the tick (43_bridge.md R181). -/
def State.txByte (s : State) (i : Inputs) : Byte := s.br.txByte i.bus.fill

/-- The events of the tick, of the state. -/
def State.events (s : State) (i : Inputs) : Events := s.port.events s.cfg i

/-- Reset: every register takes its reset value, whatever the state and the other inputs (70_reset_and_hazards.md R270,
10_state.md R51). -/
def State.takeReset (s : State) : State :=
  { s with port := s.port.resetValue, br := Bridge.resetValue s.cfg }

/-- All registers in a tick without reset, from current-tick values only (10_state.md R50). -/
def State.advance (s : State) (i : Inputs) : State :=
  { s with port := s.port.next s.cfg i (s.txByte i), br := s.br.next (s.events i) i.bus }

/-- The registers of the block after a tick (10_state.md R50). -/
def State.clock (s : State) (i : Inputs) : State := if i.pins.rst then s.takeReset else s.advance i

/-- The byte a request takes in the tick, if there is one (00_scope.md R14, 43_bridge.md R196). -/
def State.taken (s : State) (i : Inputs) : List Byte :=
  if i.pins.rst then [] else if (s.events i).txReq then [s.txByte i] else []

/-- The events of a tick as a list; at most one of the three occurs (30_encoding.md R91). -/
def Events.visible (e : Events) : List FrameEvent :=
  (if e.start then [.start] else []) ++ (if e.byteReady then [.byteReady e.byte] else [])
    ++ (if e.done then [.done] else [])

/-- What the Bridge is shown in the tick; nothing in a reset tick. -/
def State.shown (s : State) (i : Inputs) : List FrameEvent := if i.pins.rst then [] else (s.events i).visible

/-- The environment and the observer after a tick: the slave moves on, the tick is counted, the record, the bytes taken
and the events are written down (log entries 5, 6, 7). No register of the block changes. -/
def State.observe (s : State) (i : Inputs) (t : State) : State :=
  { t with slave := s.slave.after s.outputs, now := s.now + 1,
           record := s.record ++ s.br.recorded s.cfg i.pins.rst i.bus, served := s.served ++ s.taken i,
           seen := s.seen ++ s.shown i }

/-- One tick under all its inputs (10_state.md R50). -/
def State.tickWith (s : State) (i : Inputs) : State := s.observe i (s.clock i)

/-- One tick under the given pins, the bus side being the slave's (00_scope.md R7). -/
def State.tick (s : State) (pins : Pins) : State := s.tickWith (s.inputs pins)

/-- The bus transactions of the run so far: the record, and a cycle that is still waiting
(44_bus_transactor.md R231; 92_eei_decisions.md D27: a cycle counts as issued from its first tick). -/
def State.transactions (s : State) : List BusEntry := s.record ++ s.br.pendingEntry s.cfg

/-! ## Runs of ticks -/

/-- A run of ticks under the listed pins. -/
def State.run (s : State) (l : List Pins) : State := l.foldl State.tick s

/-- The outputs of each tick of a run, in order (10_state.md R48). -/
def State.trace (s : State) : List Pins → List Outputs
  | [] => []
  | p :: l => s.outputs :: (s.tick p).trace l

/-- The levels of the SPI pins in one tick, with no reset (Variant A). -/
def spi (csN sclk mosi : Bool) : Pins :=
  { rst := false, sclk := sclk, csN := csN, mosi := mosi, sbAck := false, sbDatR := 0#8 }

/-- A peripheral that acknowledges or not, with no reset (Variant B). -/
def sb (ack : Bool) (datR : Byte) : Pins :=
  { rst := false, sclk := false, csN := true, mosi := false, sbAck := ack, sbDatR := datR }

/-- The bits of a byte in the order sent: most significant first (20_memory.md R65). -/
def byteBits (b : Byte) : List Bool := (List.range 8).map (fun j => b.getLsbD (7 - j))

/-- The bits of a frame in the order sent. -/
def frameBits (f : Frame) : List Bool := f.bytes.flatMap byteBits ++ f.tail

/-- One bit under the standard master timing T4: 4 ticks with the clock low, then 4 with it high, the data line holding
the bit in all 8 (95_test_vectors.md section 0.1). -/
def bitPins (m : Bool) : List Pins := List.replicate 4 (spi false false m) ++ List.replicate 4 (spi false true m)

/-- The end of a frame under T4: 4 ticks selected with the clock low, then 4 ticks deselected, after which the next
frame may begin (95_test_vectors.md section 0.1). -/
def endPins : List Pins := List.replicate 4 (spi false false false) ++ List.replicate 4 (spi true false false)

/-- The pins of a whole frame under the standard master timing T4 (95_test_vectors.md section 0.1; log entry 2). -/
def framePins (f : Frame) : List Pins := (frameBits f).flatMap bitPins ++ endPins

/-! ## The standard peripheral of Variant B (log entry 3) -/

/-- A status byte with the three bits as given and every other bit 0 (30_encoding.md R94). -/
def statusByte (p : Params) (busy trdy rrdy : Bool) : Byte :=
  (if busy then 1#8 <<< p.sbSrBusy.val else 0#8) ||| (if trdy then 1#8 <<< p.sbSrTrdy.val else 0#8)
    ||| (if rrdy then 1#8 <<< p.sbSrRrdy.val else 0#8)

/-- What the peripheral reports of one received byte: receive-ready with the byte, then transmit-ready, busy in both
(70_reset_and_hazards.md R283, duties M6, P2 to P4). -/
def bytePolls (p : Params) (b : Byte) : List (Byte × Byte) :=
  [(statusByte p true false true, b), (statusByte p true true false, b)]

/-- The answers to the status reads of one frame, each with the byte that the receive-data register then holds: busy
with transmit-ready, then two for each whole byte, then not busy. A partial last byte is not reported. (The byte of the
first and the last answer, which announce none, is never read: a receive-data read follows a receive-ready answer.) -/
def framePolls (p : Params) (f : Frame) : List (Byte × Byte) :=
  (statusByte p true true false, 0#8) :: (f.bytes.flatMap (bytePolls p) ++ [(statusByte p false false false, 0#8)])

/-- The peripheral's answer to the adapter in one tick: every register cycle is acknowledged in its first tick
(95_test_vectors.md section 4), and a status read beyond the frame's answers shows nothing. -/
def Peripheral.drive (q : Peripheral) (st : AdapterState) : Pins :=
  match st with
  | .reset => sb true 0#8
  | .idle => sb false 0#8
  | .poll => sb true (match q.polls with | [] => 0#8 | (sr, _) :: _ => sr)
  | .rxread => sb true q.rxData
  | .txwrite => sb true 0#8

/-- The peripheral after that tick. -/
def Peripheral.after (q : Peripheral) (st : AdapterState) : Peripheral :=
  match st with
  | .poll => (match q.polls with | [] => q | (_, d) :: l => { polls := l, rxData := d })
  | .reset => q
  | .idle => q
  | .rxread => q
  | .txwrite => q

/-- A run of `n` ticks of a Variant B block against the peripheral. (On a Variant A block, which has no SB port, it
does nothing.) -/
def State.runPeripheral (s : State) (q : Peripheral) : Nat → State
  | 0 => s
  | n + 1 =>
      match s.port with
      | .a _ _ => s
      | .b pb => (s.tick (q.drive pb.state)).runPeripheral (q.after pb.state) n

/-- Ticks enough for every answer of the list: three for each status read and the register cycle it leads to, one to
leave the state the adapter is in, one for the event after the last status read (70_reset_and_hazards.md R279). -/
def peripheralTicks (polls : List (Byte × Byte)) : Nat := 3 * polls.length + 2

/-- A whole frame sent to the block: with Variant A the pins of T4, with Variant B the answers of the standard
peripheral (log entries 1, 2, 3). What the receive-data register holds before the frame's first announced byte is the
peripheral's (30_encoding.md R94): a FREE VALUE (log entries 3, 5), which only an adapter already in RXREAD reads. -/
def State.runFrame (s : State) (f : Frame) : State :=
  match s.port with
  | .a _ _ => s.run (framePins f)
  | .b _ => s.runPeripheral { polls := framePolls s.cfg f, rxData := (Config.pinsDraw s.now).sbDatR }
      (peripheralTicks (framePolls s.cfg f))

/-! ## What is next -/

/-- The state with one frame put before everything else that is scheduled. -/
def State.placeFrame (s : State) (f : Frame) : State := { s with todo := .frame f :: s.todo }

/-- The state with its next entry of `todo` taken off. -/
def State.pop (s : State) : State := { s with todo := s.todo.tail }

end Sys2Proof.Machine
end

