-- ==== Sys2Proof/Machine/Commands.lean ====
section
/-! DEFINITION. The meanings of the three commands (43_bridge.md R190 to R192). A command is a frame, and its meaning is
the run of the block over that frame: the block itself captures the operands and dispatches. The stages of each rule's
pseudocode are named at its definition. -/

namespace Sys2Proof.Machine

/-- READ (43_bridge.md R190). On byte 3 `Bridge.dispatchRead` captures the address and enters Read; while in Read the
outputs are those of a read cycle (`Bridge.outputs`, 44_bus_transactor.md R223); on the acknowledge `Bridge.outgoing`
loads the word and `Bridge.fsm` returns to Idle; the next four requests take its bytes (`Bridge.txByte`,
`Bridge.drainByte`). A read not acknowledged inside the frame is in flight after it (20_memory.md R77). -/
def execRead (lead : Byte) (addr : AddrField) (pad : List Byte) (tail : List Bool) (s : State) :
    Host.Outcome State Fault Refusal :=
  .next (s.runFrame (readFrame lead addr pad tail))

/-- WRITE (43_bridge.md R191). On byte 3 the address is captured; on byte 7 `Bridge.dispatchWrite` captures the data and
enters Write; while in Write the outputs are those of a write cycle (44_bus_transactor.md R224); on the acknowledge
`Bridge.fsm` returns to Idle. -/
def execWrite (lead : Byte) (addr : AddrField) (data : Word) (pad : List Byte) (tail : List Bool) (s : State) :
    Host.Outcome State Fault Refusal :=
  .next (s.runFrame (writeFrame lead addr data pad tail))

/-- UNKNOWN (43_bridge.md R192). On byte 1 the opcode is captured, on byte 3 the address; nothing dispatches; `Done`
returns to Idle. -/
def execUnknown (lead opcode : Byte) (rest : List Byte) (tail : List Bool) (s : State) :
    Host.Outcome State Fault Refusal :=
  .next (s.runFrame (unknownFrame lead opcode rest tail))

/-- A frame that holds no command (fewer bytes than its opcode needs): the block runs it all the same, and issues no
transaction for it (43_bridge.md R185; label E7 of 60_exceptions.md R241; log entry 12). -/
def execNoCommand (f : Frame) (s : State) : Host.Outcome State Fault Refusal := .next (s.runFrame f)

/-- One clock tick under the given pins (10_state.md R50). -/
def execTick (pins : Pins) (s : State) : Host.Outcome State Fault Refusal := .next (s.tick pins)

end Sys2Proof.Machine
end

