-- ==== Sys2Proof/Machine/Dispatch.lean ====
section
/-! DEFINITION. From a command to its meaning: one arm per constructor of `Instr`. -/

namespace Sys2Proof.Machine

def exec (i : Instr) (s : State) : Host.Outcome State Fault Refusal :=
  match i with
  | .read lead addr pad tail => Sys2Proof.Machine.execRead lead addr pad tail s
  | .write lead addr data pad tail => Sys2Proof.Machine.execWrite lead addr data pad tail s
  | .unknown lead opcode rest tail => Sys2Proof.Machine.execUnknown lead opcode rest tail s

end Sys2Proof.Machine
end

