-- ==== Sys2Proof/Machine/Step.lean ====
section
/-! DEFINITION. One step. The block has no program counter (10_state.md R46): what runs next is what the environment
does next, the head of `todo`. It is one clock tick, or one whole frame, whose command is decoded and executed; with
nothing listed it is one tick under free draws (log entries 1, 5, 10). -/

namespace Sys2Proof.Machine

/-- One step. It never faults and never refuses (60_exceptions.md R240). -/
def step (s : State) : Host.Outcome State Fault Refusal :=
  match s.todo with
  | [] => execTick (Config.pinsDraw s.now) s
  | .tick pins :: _ => execTick pins s.pop
  | .frame f :: _ =>
      match decode f with
      | .ok i => exec i s.pop
      | .error _ => execNoCommand f s.pop

/-- The state in which the very next step runs the frame of a word of spec/opcode_table.json (log entries 10, 11). -/
def State.withFetchWord (s : State) (nbits w : Nat) : State := s.placeFrame (tableFrame nbits w)

end Sys2Proof.Machine
end

