-- ==== Sys2Proof/Safety.lean ====
section
/-! DEFINITION. The terms in which claims are made: the invariant of 10_state.md R52 with its companions, the states in
which a frame may begin, the error labels of 60_exceptions.md R241, the environment duties of 44_bus_transactor.md R229
and 70_reset_and_hazards.md R283, and the end of a run (R284). Nothing here changes what the machine does. -/

namespace Sys2Proof.Machine

/-! ## Invariants -/

/-- 10_state.md R52 (e), with what makes it inductive: the clock was high and the chip selected in the last tick. -/
abbrev PortA.Inv (a : PortA) : Prop :=
  a.byteDone = true → a.bitCount = 0#3 ∧ a.sclkPrev = true ∧ a.selPrev = true

/-- 10_state.md R52 (c), with the companions of 42_transport_b.md R153, R163 and 60_exceptions.md R244: no event before
RESET is left, none of `Start` and `Done` with a `ByteReady`, and none of the three in POLL. -/
abbrev PortB.Inv (b : PortB) : Prop :=
  (b.rxStrobe = true → b.state = .idle ∧ b.busy = b.busyPrev) ∧
  (b.busy ≠ b.busyPrev → b.state = .idle ∨ b.state = .rxread ∨ b.state = .txwrite) ∧
  (b.state = .reset → b.busy = false ∧ b.busyPrev = false ∧ b.rxStrobe = false)

/-- The invariant of the transport that is present. -/
abbrev Port.Inv : Port → Prop
  | .a _ pa => pa.Inv
  | .b pb => pb.Inv

/-- 10_state.md R52 (b) and (d) ((a) is the width of `count`), the opcode of a cycle in progress (43_bridge.md R188,
R189), and `addrHigh` never written (10_state.md R42). -/
abbrev Bridge.Inv (b : Bridge) (p : Params) : Prop :=
  b.txLeft ≤ 4#3 ∧
  (b.state = .read → (b.count = 0#3 ∨ b.count = 4#3) ∧ b.opcode = Config.opcRead) ∧
  (b.state = .write → (b.count = 0#3 ∨ b.count = 7#3) ∧ b.opcode = Config.opcWrite) ∧
  b.addrHigh = p.highAddr

/-- The slave's memory, where it has one, is in canonical form. -/
abbrev Slave.Inv : Slave → Prop
  | .script _ => True
  | .ms m => m.wf = true

/-- The invariant of the machine. -/
abbrev State.Inv (s : State) : Prop :=
  s.cfg.wf = true ∧ s.port.Inv ∧ s.br.Inv s.cfg ∧ s.slave.Inv

/-! ## Where a frame may begin (duties M1, M2, M5 of 70_reset_and_hazards.md R283) -/

/-- The Synchronizer and the latches of Transport A show the chip deselected and the clock low. -/
abbrev idleA (y : Sync) (a : PortA) : Prop :=
  y.sclk1 = false ∧ y.sclk2 = false ∧ y.csn1 = true ∧ y.csn2 = true ∧ a.sclkPrev = false ∧ a.selPrev = false

/-- Transport B has last seen the peripheral not busy, and has no byte on its way to the Bridge. -/
abbrev idleB (b : PortB) : Prop :=
  b.busy = false ∧ b.busyPrev = false ∧ b.rxStrobe = false ∧ b.state ≠ .rxread

/-- The transport that is present has no frame in progress. -/
abbrev Port.idle : Port → Prop
  | .a y pa => idleA y pa
  | .b pb => idleB pb

/-- A frame may begin: no frame in progress, parameters in their ranges. -/
abbrev State.betweenFrames (s : State) : Prop := s.cfg.wf = true ∧ s.port.idle

/-- A frame may begin and will be decoded: besides, no bus transaction is in flight (duty M5). -/
abbrev State.ready (s : State) : Prop := s.betweenFrames ∧ s.br.state = .idle

/-- The events of a frame that both transports emit (30_encoding.md R91, 41_transport_a.md R131): `Start`, each whole
byte in order, `Done`. A partial last byte is never delivered (30_encoding.md R83). -/
def frameShown (f : Frame) : List FrameEvent := .start :: (f.bytes.map .byteReady ++ [.done])

/-- The address a command puts on the bus from a state: `HIGH_ADDR * 2^16 + a` in `BUS_ADDR_W` bits (20_memory.md R61,
44_bus_transactor.md R221). -/
def State.target (s : State) (addr : AddrField) : Nat := busAddr s.cfg s.br.addrHigh addr

/-- The `miso` level of an output, where there is one. -/
def misoOf : PortOut → List Bool
  | .a m _ => [m]
  | .b _ _ _ _ => []

/-- The bits the SPI master samples in a run of ticks: `miso` in each tick whose captured clock rises
(95_test_vectors.md VA-1). `clk` is the clock of the tick before. -/
def State.received (s : State) (clk : Bool) : List Pins → List Bool
  | [] => []
  | p :: l => (if p.sclk && !clk then misoOf s.outputs.port else []) ++ (s.tick p).received p.sclk l

/-! ## Error labels (60_exceptions.md R241): names only, no register records them but `a.partial` -/

/-- E1: a `Done` with an incomplete or undelivered byte (Variant A). -/
def State.partialFrame (s : State) : Bool :=
  match s.port with
  | .a y pa => pa.done y && pa.incomplete
  | .b _ => false

/-- E2: byte 1 of the frame, received in this tick, is neither opcode. -/
def State.unknownOpcode (s : State) (i : Inputs) : Bool :=
  decide (s.br.state = .command) && decide (s.br.count = 1#3) && (s.events i).byteReady
    && decide (opcodeClass (s.events i).byte = .unknown)

/-- E3: a request without an acknowledge, in the bus cycle or in the adapter's register cycle. The label is for a
request that never gets one: the condition holds in every tick from some tick on. -/
def State.waiting (s : State) (i : Inputs) : Bool :=
  (s.br.inCycle && !i.bus.ack) ||
    (match s.port with
     | .a _ _ => false
     | .b pb => decide (pb.state ≠ .idle) && !i.pins.sbAck)

/-- E5: a `Start` while a transaction is in flight; the whole frame is dropped. -/
def State.frameDropped (s : State) (i : Inputs) : Bool := s.br.inCycle && (s.events i).start

/-- E6: a `ByteReady` of Variant B after the frame's `Done`: busy was seen low in this tick and in the one before
(42_transport_b.md R160, R165). A byte announced while busy belongs to its frame, whatever the Bridge does with it. (A
frame that no status read shows busy has neither `Start` nor `Done`; a byte of it counts here too.) -/
def State.lateByte (s : State) (i : Inputs) : Bool :=
  match s.port with
  | .a _ _ => false
  | .b pb => (pb.events s.cfg i.pins.sbAck i.pins.sbDatR).byteReady && !pb.busy && !pb.busyPrev

/-- Fewer bytes of the frame came than its command needs to dispatch (30_encoding.md R87): no opcode byte yet, or a READ
before byte 3, or a WRITE before byte 7. An UNKNOWN opcode never dispatches (that is E2). -/
def Bridge.beforeDispatch (b : Bridge) : Bool :=
  decide (b.count < 2#3) ||
    (match dispatchLength b.opcode with
     | some n => decide (b.count.toNat < n)
     | none => false)

/-- E7: a `Done` in Command before the byte that dispatches (43_bridge.md R185). -/
def State.endedEarly (s : State) (i : Inputs) : Bool :=
  decide (s.br.state = .command) && (s.events i).done && !(s.events i).start && s.br.beforeDispatch

/-- The ground of E8: a byte of waiting read data is taken at a `ByteReady` (Variant A). It is lost when that was the
last byte of its frame. (E4, a missed slot of the peripheral, cannot be told from the block's state.) -/
def State.dataTakenAtByte (s : State) (i : Inputs) : Bool :=
  match s.port with
  | .a y pa => (pa.events y).byteReady && (pa.events y).txReq && decide (0#3 < s.br.txLeft) && !i.pins.rst
  | .b _ => false

/-! ## Duties of the environment (a run that breaks one still has a defined next state, 70_reset_and_hazards.md R283) -/

/-- S1: the slave acknowledges only inside a cycle (44_bus_transactor.md R229). -/
def State.dutyS1 (s : State) (i : Inputs) : Bool := !i.bus.ack || s.br.inCycle

/-- M1: the chip is deselected (at reset release). -/
def dutyM1 (p : Pins) : Bool := p.csN

/-- M2, of two ticks in a row: the clock is low when the select changes, and the data line changes only while the
clock is low. -/
def dutyM2 (p q : Pins) : Bool :=
  (decide (p.csN = q.csN) || (!p.sclk && !q.sclk)) && (decide (p.mosi = q.mosi) || !q.sclk)

/-- Every two entries in a row of a list of pins keep M2. -/
def keepsM2 : List Pins → Bool
  | [] => true
  | [_] => true
  | p :: q :: l => dutyM2 p q && keepsM2 (q :: l)

/-- M4, of a command: enough bytes to dispatch, and for a READ a layout in which none of its bytes is lost with the
acknowledge in slot 4 (70_reset_and_hazards.md R277; the 4-byte READ needs a following frame of at least 4 bytes). -/
def dutyM4 : Instr → Bool
  | .read _ _ pad _ => decide (pad.length = 0) || decide (5 ≤ pad.length)
  | .write _ _ _ _ _ => true
  | .unknown _ _ _ _ => true

/-- M5: no `Start` while a transaction is in flight. -/
def State.dutyM5 (s : State) (i : Inputs) : Bool := !s.frameDropped i

/-! ## The end of a run -/

/-- The answer to a status read in this tick, where there is one: the adapter is in POLL and its register cycle is
acknowledged (42_transport_b.md R151, R155). An acknowledge in IDLE answers nothing, and a received byte is no status. -/
def PortB.statusRead (b : PortB) (q : Pins) : Option Byte :=
  if b.state = .poll ∧ q.sbAck = true then some q.sbDatR else none

/-- A frame shows in this tick: the chip is selected (Variant A), a status read shows busy (Variant B). -/
def State.showsFrame (s : State) (q : Pins) : Bool :=
  match s.port with
  | .a _ _ => !q.csN
  | .b b => (b.statusRead q).any (busyBit s.cfg)

/-- No further frame is to come in the remaining ticks of a run: none of them shows one. -/
def State.noFurtherFrame (s : State) : List Pins → Bool
  | [] => true
  | q :: rest => !s.showsFrame q && (s.tick q).noFurtherFrame rest

/-- The transport shows no frame: deselected with no pending select (Variant A), the adapter in its IDLE/POLL loop with
`b.busy = 0` (Variant B). -/
def Port.quiescent : Port → Bool
  | .a y pa => y.csn1 && y.csn2 && !pa.selPrev
  | .b pb => (decide (pb.state = .idle) || decide (pb.state = .poll)) && !pb.busy

/-- Quiescent (70_reset_and_hazards.md R284), in a tick of a run whose remaining ticks have the pins `rest`: Bridge in
Idle, no read data waiting or no further frame to come, no frame in the transport. -/
def State.quiescent (s : State) (rest : List Pins) : Bool :=
  decide (s.br.state = .idle) && (decide (s.br.txLeft = 0#3) || s.noFurtherFrame rest) && s.port.quiescent

end Sys2Proof.Machine
end

