-- ==== Sys2Proof/Certificates/Slice0/Obligations.lean ====
section
/-! DEFINITION. The statements for the provers. Where a statement speaks of one tick, `s.inputs p` are that tick's inputs
under the pins `p` (10_state.md R47) and `s.events (s.inputs p)` its events (30_encoding.md R91). Where it fixes the
registers of the Bridge but for the outgoing source (43_bridge.md R196, which has a statement of its own), both sides are
compared with `txWord` and `txLeft` put to the same values. -/

open Sys2Proof Sys2Proof.Machine

/-! ## The step -/

/-- 60_exceptions.md R240: no input and no command stops the block. -/
def Obligations.StepNeverStops : Prop :=
  (∀ s : State, ∃ t, step s = .next t) ∧ ∀ (i : Instr) (s : State), ∃ t, exec i s = .next t

/-- A step runs the scheduled tick (10_state.md R50, 00_scope.md R7). That nothing scheduled means a tick under free draws is
the model's choice (log entries 1 and 5). -/
def Obligations.StepRunsTick : Prop :=
  ∀ s : State,
    (∀ p rest, s.todo = .tick p :: rest → step s = .next (State.tick { s with todo := rest } p)) ∧
    (s.todo = [] → step s = .next (s.tick (Config.pinsDraw s.now)))

/-- A step runs the decoded command of the scheduled frame, and a word of the opcode table placed by `withFetchWord` is the
very next command (log entries 1, 10 and 11). -/
def Obligations.StepRunsDecodedCommand : Prop :=
  (∀ (s : State) f rest i, s.todo = .frame f :: rest → decode f = .ok i →
    step s = exec i { s with todo := rest }) ∧
  ∀ (s : State) nbits w i, decodeTableWord nbits w = some i → step (s.withFetchWord nbits w) = exec i s

/-- A frame that holds no command still runs, and ends in Idle with no bus transaction (43_bridge.md R185,
60_exceptions.md R241 label E7, 95_test_vectors.md W4c); what it captured on the way stays captured. -/
def Obligations.CommandlessFrameIssuesNothing : Prop :=
  ∀ (s : State) f rest e, s.ready → f.wf = true → s.todo = .frame f :: rest → decode f = .error e →
    ∃ t, step s = .next t ∧ t.todo = rest ∧ t.cfg = s.cfg ∧ t.port.idle ∧ t.seen = s.seen ++ frameShown f ∧
      t.record = s.record ∧ t.br.state = .idle ∧ t.br.count = 0#3 ∧
      t.br.acc = f.bytes.foldl (fun (acc : Word) (b : Byte) => acc <<< 8 ||| b.setWidth 32) 0#32 ∧
      t.br.wdata = s.br.wdata ∧ t.br.addrHigh = s.br.addrHigh ∧
      (∀ b0 b1 l, f.bytes = b0 :: b1 :: l → t.br.opcode = b1) ∧
      (f.bytes.length < 2 → t.br.opcode = s.br.opcode) ∧
      (∀ b0 b1 b2 b3 l, f.bytes = b0 :: b1 :: b2 :: b3 :: l → t.br.addr = b2 ++ b3) ∧
      (f.bytes.length < 4 → t.br.addr = s.br.addr) ∧
      ∀ m, s.slave = .ms m → t.slave = .ms m

/-! ## Reset -/

/-- 70_reset_and_hazards.md R270 and 10_state.md R51: a tick with `rst = 1` puts every register to its reset value, whatever
the state and the other inputs; the bus cycle ends, and a cycle without its acknowledge is recorded as cancelled. -/
def Obligations.ResetOverridesEverything : Prop :=
  ∀ (s : State) (p : Pins), p.rst = true →
    (s.tick p).br = { state := .idle, acc := 0#32, count := 0#3, opcode := 0#8, addr := 0#16,
                      addrHigh := s.cfg.highAddr, wdata := 0#32, txWord := 0#32, txLeft := 0#3 } ∧
    (∀ y a, s.port = .a y a →
      (s.tick p).port = .a { sclk1 := false, sclk2 := false, csn1 := true, csn2 := true, mosi1 := false, mosi2 := false }
        { sclkPrev := false, selPrev := false, bitCount := 0#3, byteDone := false, rxShift := 0#8, txShift := 0#8,
          partialFlag := false }) ∧
    (∀ b, s.port = .b b →
      (s.tick p).port = .b { state := .reset, busy := false, busyPrev := false, rxStrobe := false, rxByte := 0#8,
                             txData := 0#8 }) ∧
    (s.tick p).outputs.cyc = false ∧ (s.tick p).outputs.stb = false ∧
    (s.tick p).cfg = s.cfg ∧ (s.tick p).todo = s.todo ∧
    (s.br.state = .read → (s.inputs p).bus.ack = false →
      (s.tick p).record = s.record ++ [{ dir := .read, adr := s.outputs.adr, data := none }]) ∧
    (s.br.state = .write → (s.inputs p).bus.ack = false →
      (s.tick p).record = s.record ++ [{ dir := .write, adr := s.outputs.adr, data := none }])

/-- 10_state.md R51 and 70_reset_and_hazards.md R271: the initial state of an instance, for every parameter value and either
transport, and what its outputs show (95_test_vectors.md RS-4). -/
def Obligations.InitialState : Prop :=
  ∀ (p : Params) (port : Port), p.wf = true →
    (State.resetWith p port).cfg = p ∧
    (State.resetWith p port).br =
      { state := .idle, acc := 0#32, count := 0#3, opcode := 0#8, addr := 0#16, addrHigh := p.highAddr, wdata := 0#32,
        txWord := 0#32, txLeft := 0#3 } ∧
    (State.resetWith p port).outputs.cyc = false ∧ (State.resetWith p port).outputs.stb = false ∧
    (State.resetWith p port).outputs.we = false ∧ (State.resetWith p port).outputs.adr = p.highAddr * 2 ^ 16 ∧
    (State.resetWith p port).outputs.datW = 0#32 ∧
    (∀ y a, port = .a y a →
      (State.resetWith p port).port =
        .a { sclk1 := false, sclk2 := false, csn1 := true, csn2 := true, mosi1 := false, mosi2 := false }
          { sclkPrev := false, selPrev := false, bitCount := 0#3, byteDone := false, rxShift := 0#8, txShift := 0#8,
            partialFlag := false } ∧
      (State.resetWith p port).outputs.port = .a false false) ∧
    (∀ b, port = .b b →
      (State.resetWith p port).port =
        .b { state := .reset, busy := false, busyPrev := false, rxStrobe := false, rxByte := 0#8, txData := 0#8 } ∧
      (State.resetWith p port).outputs.port = .b true true p.sbRegCr p.sbCrEnable) ∧
    ∃ q, State.reset = State.resetWith Config.params q

/-- The invariant holds at reset, for every parameter value in its range and either transport. -/
def Obligations.ResetHasInvariant : Prop :=
  State.reset.Inv ∧ ∀ (p : Params) (port : Port), p.wf = true → (State.resetWith p port).Inv

/-! ## The Synchronizer -/

/-- 40_synchronizer.md R111, R112: both stages of the three lines in every tick. -/
def Obligations.SynchronizerStages : Prop :=
  ∀ (s : State) y a (p : Pins), s.port = .a y a → p.rst = false →
    ∃ a', (s.tick p).port = .a { sclk1 := p.sclk, sclk2 := y.sclk1, csn1 := p.csN, csn2 := y.csn1, mosi1 := p.mosi,
                                 mosi2 := y.mosi1 } a'

/-- 40_synchronizer.md R116: in a run of ticks without reset, the outputs in tick `n + 2` are the inputs of tick `n`. -/
def Obligations.SynchronizerLatency : Prop :=
  ∀ (s : State) y a (l : List Pins) (n : Nat) (p : Pins), s.port = .a y a → (∀ q ∈ l, q.rst = false) →
    l[n]? = some p → n + 2 ≤ l.length →
    ∃ y' a', (s.run (l.take (n + 2))).port = .a y' a' ∧ y'.sclkS = p.sclk ∧ y'.selS = !p.csN ∧ y'.mosiS = p.mosi

/-! ## Transport A -/

/-- 41_transport_a.md R122: `Start`. A clock edge in the same tick is lost (R134): `sclkPrev` follows the clock. -/
def Obligations.TransportAStart : Prop :=
  ∀ (s : State) y a (p : Pins), s.port = .a y a → p.rst = false → y.csn2 = false → a.selPrev = false →
    (s.events (s.inputs p)).start = true ∧ (s.events (s.inputs p)).txReq = true ∧
    (s.events (s.inputs p)).byteReady = false ∧ (s.events (s.inputs p)).done = false ∧
    ∃ y', (s.tick p).port = .a y' { sclkPrev := y.sclk2, selPrev := true, bitCount := 0#3, byteDone := false,
                                    rxShift := 0#8, txShift := s.txByte (s.inputs p), partialFlag := a.partialFlag }

/-- 41_transport_a.md R123: `Done`, and the partial frame. -/
def Obligations.TransportADone : Prop :=
  ∀ (s : State) y a (p : Pins), s.port = .a y a → p.rst = false → y.csn2 = true → a.selPrev = true →
    (s.events (s.inputs p)).done = true ∧ (s.events (s.inputs p)).start = false ∧
    (s.events (s.inputs p)).byteReady = false ∧ (s.events (s.inputs p)).txReq = false ∧
    ∃ y', (s.tick p).port = .a y' { sclkPrev := y.sclk2, selPrev := false, bitCount := 0#3, byteDone := false,
                                    rxShift := a.rxShift, txShift := a.txShift,
                                    partialFlag := a.partialFlag || (decide (a.bitCount ≠ 0#3) || a.byteDone) }

/-- 41_transport_a.md R124: a sample on a rising edge. -/
def Obligations.TransportASample : Prop :=
  ∀ (s : State) y a (p : Pins), s.port = .a y a → p.rst = false → y.csn2 = false → a.selPrev = true → y.sclk2 = true →
    a.sclkPrev = false →
    (s.events (s.inputs p)).start = false ∧ (s.events (s.inputs p)).byteReady = false ∧
    (s.events (s.inputs p)).done = false ∧ (s.events (s.inputs p)).txReq = false ∧
    ∃ y', (s.tick p).port = .a y' { sclkPrev := true, selPrev := true, bitCount := a.bitCount + 1#3,
                                    byteDone := a.byteDone || decide (a.bitCount = 7#3),
                                    rxShift := a.rxShift <<< 1 ||| (if y.mosi2 then 1#8 else 0#8),
                                    txShift := a.txShift, partialFlag := a.partialFlag }

/-- 41_transport_a.md R125: a byte completes on a falling edge. -/
def Obligations.TransportAByte : Prop :=
  ∀ (s : State) y a (p : Pins), s.port = .a y a → p.rst = false → y.csn2 = false → a.selPrev = true → y.sclk2 = false →
    a.sclkPrev = true → a.byteDone = true →
    (s.events (s.inputs p)).byteReady = true ∧ (s.events (s.inputs p)).byte = a.rxShift ∧
    (s.events (s.inputs p)).txReq = true ∧ (s.events (s.inputs p)).start = false ∧
    (s.events (s.inputs p)).done = false ∧
    ∃ y', (s.tick p).port = .a y' { sclkPrev := false, selPrev := true, bitCount := a.bitCount, byteDone := false,
                                    rxShift := a.rxShift, txShift := s.txByte (s.inputs p),
                                    partialFlag := a.partialFlag }

/-- 41_transport_a.md R126: a shift out on a falling edge. -/
def Obligations.TransportAShift : Prop :=
  ∀ (s : State) y a (p : Pins), s.port = .a y a → p.rst = false → y.csn2 = false → a.selPrev = true → y.sclk2 = false →
    a.sclkPrev = true → a.byteDone = false →
    (s.events (s.inputs p)).start = false ∧ (s.events (s.inputs p)).byteReady = false ∧
    (s.events (s.inputs p)).done = false ∧ (s.events (s.inputs p)).txReq = false ∧
    ∃ y', (s.tick p).port = .a y' { sclkPrev := false, selPrev := true, bitCount := a.bitCount, byteDone := false,
                                    rxShift := a.rxShift, txShift := a.txShift <<< 1, partialFlag := a.partialFlag }

/-- 41_transport_a.md R130, R132: the latches follow in every tick, and in a deselected tick nothing else changes and no event
fires; nor does it in a selected tick without an edge. -/
def Obligations.TransportALatches : Prop :=
  ∀ (s : State) y a (p : Pins), s.port = .a y a → p.rst = false →
    (∃ y' a', (s.tick p).port = .a y' a' ∧ a'.sclkPrev = y.sclk2 ∧ a'.selPrev = !y.csn2) ∧
    ((y.csn2 = true ∧ a.selPrev = false) ∨ (y.csn2 = false ∧ a.selPrev = true ∧ y.sclk2 = a.sclkPrev) →
      (s.events (s.inputs p)).start = false ∧ (s.events (s.inputs p)).byteReady = false ∧
      (s.events (s.inputs p)).done = false ∧ (s.events (s.inputs p)).txReq = false ∧
      ∃ y', (s.tick p).port = .a y' { a with sclkPrev := y.sclk2 })

/-- 41_transport_a.md R129: `miso` is bit 7 of the transmit register and `partial` the flag, in every tick. -/
def Obligations.TransportAOutputs : Prop :=
  ∀ (s : State) y a, s.port = .a y a → s.outputs.port = .a (a.txShift.getLsbD 7) a.partialFlag

/-- 10_state.md R30: the partial flag is set by a partial frame, shown on the output, and cleared by reset alone, tick by tick
and over every command. -/
def Obligations.PartialFlagIsSticky : Prop :=
  (∀ (s : State) y a (p : Pins), s.port = .a y a →
    (∃ m, s.outputs.port = .a m a.partialFlag) ∧
    ∃ y' a', (s.tick p).port = .a y' a' ∧
      (p.rst = true → a'.partialFlag = false) ∧
      (p.rst = false → (a'.partialFlag = true ↔ a.partialFlag = true ∨
        (y.csn2 = true ∧ a.selPrev = true ∧ (a.bitCount ≠ 0#3 ∨ a.byteDone = true))))) ∧
  ∀ (i : Instr) (s : State) y a t, s.port = .a y a → a.partialFlag = true → exec i s = .next t →
    ∃ y' a', t.port = .a y' a' ∧ a'.partialFlag = true

/-- 60_exceptions.md R244: at most one transport event in a tick; a request of Variant A is the union of `Start` and
`ByteReady`, a request of Variant B comes alone. -/
def Obligations.AtMostOneEvent : Prop :=
  ∀ (s : State) (p : Pins), s.port.Inv →
    ((s.events (s.inputs p)).start = true →
      (s.events (s.inputs p)).byteReady = false ∧ (s.events (s.inputs p)).done = false) ∧
    ((s.events (s.inputs p)).byteReady = true → (s.events (s.inputs p)).done = false) ∧
    (∀ y a, s.port = .a y a → (s.events (s.inputs p)).txReq =
      ((s.events (s.inputs p)).start || (s.events (s.inputs p)).byteReady)) ∧
    (∀ b, s.port = .b b → (s.events (s.inputs p)).txReq = true →
      (s.events (s.inputs p)).start = false ∧ (s.events (s.inputs p)).byteReady = false ∧
      (s.events (s.inputs p)).done = false)

/-! ## Transport B -/

/-- 42_transport_b.md R153, R154, R157, with R158: the states that wait for an acknowledge only, and the idle tick. In RESET no
event is possible. -/
def Obligations.AdapterResetIdleTxWrite : Prop :=
  ∀ (s : State) b (p : Pins), s.port = .b b → p.rst = false →
    (b.state = .reset →
      s.outputs.port = .b true true s.cfg.sbRegCr s.cfg.sbCrEnable ∧
      (b.Inv → (s.events (s.inputs p)).start = false ∧ (s.events (s.inputs p)).byteReady = false ∧
        (s.events (s.inputs p)).done = false ∧ (s.events (s.inputs p)).txReq = false) ∧
      (s.tick p).port = .b { b with busyPrev := b.busy, state := if p.sbAck then .idle else .reset }) ∧
    (b.state = .idle →
      (∃ w r d, s.outputs.port = .b false w r d) ∧
      (s.tick p).port = .b { b with busyPrev := b.busy, rxStrobe := false, state := .poll }) ∧
    (b.state = .txwrite →
      s.outputs.port = .b true true s.cfg.sbRegTxdr b.txData ∧
      (s.tick p).port = .b { b with busyPrev := b.busy, state := if p.sbAck then .idle else .txwrite })

/-- 42_transport_b.md R155, R162: the status read, receive-ready before transmit-ready; a request is made in the tick the
second branch is taken, and in no other tick. -/
def Obligations.AdapterPoll : Prop :=
  ∀ (s : State) b (p : Pins), s.port = .b b →
    (s.events (s.inputs p)).txReq = (decide (b.state = .poll) && p.sbAck && !p.sbDatR.getLsbD s.cfg.sbSrRrdy.val &&
      p.sbDatR.getLsbD s.cfg.sbSrTrdy.val) ∧
    (p.rst = false → b.state = .poll →
      (∃ d, s.outputs.port = .b true false s.cfg.sbRegSr d) ∧
      (p.sbAck = false → (s.tick p).port = .b { b with busyPrev := b.busy }) ∧
      (p.sbAck = true → p.sbDatR.getLsbD s.cfg.sbSrRrdy.val = true →
        (s.tick p).port = .b { b with busyPrev := b.busy, busy := p.sbDatR.getLsbD s.cfg.sbSrBusy.val,
                                      state := .rxread }) ∧
      (p.sbAck = true → p.sbDatR.getLsbD s.cfg.sbSrRrdy.val = false →
        p.sbDatR.getLsbD s.cfg.sbSrTrdy.val = true →
        (s.tick p).port = .b { b with busyPrev := b.busy, busy := p.sbDatR.getLsbD s.cfg.sbSrBusy.val,
                                      txData := s.txByte (s.inputs p), state := .txwrite }) ∧
      (p.sbAck = true → p.sbDatR.getLsbD s.cfg.sbSrRrdy.val = false →
        p.sbDatR.getLsbD s.cfg.sbSrTrdy.val = false →
        (s.tick p).port = .b { b with busyPrev := b.busy, busy := p.sbDatR.getLsbD s.cfg.sbSrBusy.val,
                                      state := .idle }))

/-- 42_transport_b.md R156, R161: a received byte is latched on the acknowledge, reported in the next tick, and in that tick
only. -/
def Obligations.AdapterReceivesByte : Prop :=
  (∀ (s : State) b (p : Pins), s.port = .b b →
    (s.events (s.inputs p)).byteReady = b.rxStrobe ∧ (s.events (s.inputs p)).byte = b.rxByte) ∧
  ∀ (s : State) b (p q r : Pins), s.port = .b b → p.rst = false → q.rst = false → b.state = .rxread →
    (∃ d, s.outputs.port = .b true false s.cfg.sbRegRxdr d) ∧
    (p.sbAck = false → (s.tick p).port = .b { b with busyPrev := b.busy }) ∧
    (p.sbAck = true →
      (s.tick p).port =
        .b { b with busyPrev := b.busy, rxByte := p.sbDatR, rxStrobe := true, state := .idle } ∧
      ((s.tick p).events ((s.tick p).inputs q)).byteReady = true ∧
      ((s.tick p).events ((s.tick p).inputs q)).byte = p.sbDatR ∧
      (((s.tick p).tick q).events (((s.tick p).tick q).inputs r)).byteReady = false)

/-- 42_transport_b.md R152: the outputs of the SB port in each state. -/
def Obligations.AdapterOutputs : Prop :=
  ∀ (s : State) b, s.port = .b b →
    (b.state = .reset → s.outputs.port = .b true true s.cfg.sbRegCr s.cfg.sbCrEnable) ∧
    (b.state = .idle → s.outputs.port = .b false false s.cfg.sbRegSr b.txData) ∧
    (b.state = .poll → s.outputs.port = .b true false s.cfg.sbRegSr b.txData) ∧
    (b.state = .rxread → s.outputs.port = .b true false s.cfg.sbRegRxdr b.txData) ∧
    (b.state = .txwrite → s.outputs.port = .b true true s.cfg.sbRegTxdr b.txData)

/-- 42_transport_b.md R158, R159, R160: `Start` and `Done` are the edges of busy, and fire in the tick after the status read
that first shows the new level. -/
def Obligations.AdapterStartAndDone : Prop :=
  ∀ (s : State) b (p : Pins), s.port = .b b →
    (s.events (s.inputs p)).start = (b.busy && !b.busyPrev) ∧
    (s.events (s.inputs p)).done = (!b.busy && b.busyPrev) ∧
    (p.rst = false → ∃ b', (s.tick p).port = .b b' ∧ b'.busyPrev = b.busy) ∧
    (p.rst = false → b.state = .poll → p.sbAck = true → ∀ q,
      ((s.tick p).events ((s.tick p).inputs q)).start =
        (p.sbDatR.getLsbD s.cfg.sbSrBusy.val && !b.busy) ∧
      ((s.tick p).events ((s.tick p).inputs q)).done =
        (!p.sbDatR.getLsbD s.cfg.sbSrBusy.val && b.busy))

/-- 42_transport_b.md R151: a register cycle holds its request unchanged for as long as no acknowledge comes, completes on the
first one, and an acknowledge in IDLE is ignored. -/
def Obligations.RegisterCycleHeldUntilAck : Prop :=
  (∀ (s : State) b (l : List Pins), s.port = .b b → b.state ≠ .idle →
    (∀ p ∈ l, p.rst = false ∧ p.sbAck = false) →
    (∃ b', (s.run l).port = .b b' ∧ b'.state = b.state) ∧ (s.run l).outputs.port = s.outputs.port) ∧
  (∀ (s : State) b (p : Pins), s.port = .b b → b.state ≠ .idle → p.rst = false → p.sbAck = true →
    ∃ b', (s.tick p).port = .b b' ∧ b'.state ≠ b.state) ∧
  ∀ (s : State) b (p : Pins), s.port = .b b → b.state = .idle → p.rst = false →
    (s.tick { p with sbAck := true }).port = (s.tick { p with sbAck := false }).port

/-! ## The Bridge -/

/-- 43_bridge.md R182, R184: a `Start` in Idle or in Command clears the accumulator and the counter. -/
def Obligations.BridgeStart : Prop :=
  ∀ (s : State) (p : Pins), p.rst = false → (s.br.state = .idle ∨ s.br.state = .command) →
    (s.events (s.inputs p)).start = true →
    { (s.tick p).br with txWord := s.br.txWord, txLeft := s.br.txLeft } =
      { s.br with acc := 0#32, count := 0#3, state := .command }

/-- 43_bridge.md R183: in Idle a `ByteReady` is ignored and a `Done` leaves the state (and clears the counter, R197). -/
def Obligations.BridgeIdleIgnores : Prop :=
  ∀ (s : State) (p : Pins), p.rst = false → s.br.state = .idle → (s.events (s.inputs p)).start = false →
    { (s.tick p).br with txWord := s.br.txWord, txLeft := s.br.txLeft } =
      { s.br with count := if (s.events (s.inputs p)).done then 0#3 else s.br.count }

/-- 43_bridge.md R185: a `Done` in Command returns to Idle and issues no transaction. -/
def Obligations.BridgeCommandDone : Prop :=
  ∀ (s : State) (p : Pins), p.rst = false → s.br.state = .command → (s.events (s.inputs p)).start = false →
    (s.events (s.inputs p)).done = true →
    { (s.tick p).br with txWord := s.br.txWord, txLeft := s.br.txLeft } =
      { s.br with state := .idle, count := 0#3 } ∧
    (s.tick p).transactions = s.transactions

/-- 43_bridge.md R197: every `Done` clears the counter, in every state, and leaves the accumulator. -/
def Obligations.DoneClearsCounter : Prop :=
  ∀ (s : State) (p : Pins), p.rst = false → s.port.Inv → (s.events (s.inputs p)).done = true →
    (s.tick p).br.count = 0#3 ∧ (s.tick p).br.acc = s.br.acc

/-- 43_bridge.md R186 to R189: a byte received in Command is folded in at the low end and counted; the counts before it that
are 1, 3 and 7 capture the opcode, the address and the write data, and dispatch READ and WRITE. -/
def Obligations.BridgeReceivesByte : Prop :=
  ∀ (s : State) (p : Pins) (a : Word), p.rst = false → s.br.state = .command → (s.events (s.inputs p)).start = false →
    (s.events (s.inputs p)).done = false → (s.events (s.inputs p)).byteReady = true →
    a = s.br.acc <<< 8 ||| (s.events (s.inputs p)).byte.setWidth 32 →
    { (s.tick p).br with txWord := s.br.txWord, txLeft := s.br.txLeft } =
      { s.br with
        acc := a
        count := if s.br.count.toNat < 7 then s.br.count + 1#3 else 7#3
        opcode := if s.br.count = 1#3 then a.extractLsb' 0 8 else s.br.opcode
        addr := if s.br.count = 3#3 then a.extractLsb' 0 16 else s.br.addr
        wdata := if s.br.count = 7#3 ∧ s.br.opcode = 0x02#8 then a else s.br.wdata
        state := if s.br.count = 3#3 ∧ s.br.opcode = 0x03#8 then .read
                 else if s.br.count = 7#3 ∧ s.br.opcode = 0x02#8 then .write else .command }

/-- 43_bridge.md R193, R194, R195: in Read and Write only the acknowledge acts (a read loads the word, R196), `Start` and
`ByteReady` are dropped, and `Done` clears the counter and nothing else. -/
def Obligations.BridgeInCycle : Prop :=
  ∀ (s : State) (p : Pins), p.rst = false → (s.br.state = .read ∨ s.br.state = .write) →
    { (s.tick p).br with txWord := s.br.txWord, txLeft := s.br.txLeft } =
      { s.br with
        state := if (s.inputs p).bus.ack then .idle else s.br.state
        count := if (s.events (s.inputs p)).done then 0#3 else s.br.count } ∧
    (s.br.state = .read → (s.inputs p).bus.ack = true →
      (s.tick p).br.txWord = (s.inputs p).bus.datR ∧ (s.tick p).br.txLeft = 4#3)

/-- 43_bridge.md R181, R196: the byte a request takes, and the outgoing source after the tick; a read acknowledge has
priority. -/
def Obligations.OutgoingSource : Prop :=
  ∀ (s : State) (p : Pins), p.rst = false →
    s.txByte (s.inputs p) = (if 0 < s.br.txLeft.toNat then s.br.txWord.extractLsb' 24 8 else (s.inputs p).bus.fill) ∧
    (s.tick p).served =
      s.served ++ (if (s.events (s.inputs p)).txReq then [s.txByte (s.inputs p)] else []) ∧
    (s.br.state = .read → (s.inputs p).bus.ack = true →
      (s.tick p).br.txWord = (s.inputs p).bus.datR ∧ (s.tick p).br.txLeft = 4#3) ∧
    (¬(s.br.state = .read ∧ (s.inputs p).bus.ack = true) → (s.events (s.inputs p)).txReq = true →
      0 < s.br.txLeft.toNat →
      (s.tick p).br.txWord = s.br.txWord <<< 8 ∧ (s.tick p).br.txLeft.toNat = s.br.txLeft.toNat - 1) ∧
    (¬(s.br.state = .read ∧ (s.inputs p).bus.ack = true) →
      ((s.events (s.inputs p)).txReq = false ∨ s.br.txLeft = 0#3) →
      (s.tick p).br.txWord = s.br.txWord ∧ (s.tick p).br.txLeft = s.br.txLeft)

/-! ## The bus transactor -/

/-- 44_bus_transactor.md R220, R221, R222: the bus outputs, functions of the Bridge's registers. -/
def Obligations.BusOutputs : Prop :=
  ∀ s : State,
    s.outputs.cyc = (decide (s.br.state = .read) || decide (s.br.state = .write)) ∧
    s.outputs.stb = (decide (s.br.state = .read) || decide (s.br.state = .write)) ∧
    s.outputs.we = decide (s.br.state = .write) ∧
    s.outputs.adr = (s.br.addrHigh * 2 ^ 16 + s.br.addr.toNat) % 2 ^ s.cfg.busAddrW ∧
    s.outputs.datW = s.br.wdata

/-- 20_memory.md R61: the only bus addresses are `HIGH_ADDR * 2^16 + a`, `a` a 16-bit number; no entry of the transaction
record has another. -/
def Obligations.AddressWindow : Prop :=
  ∀ s : State, s.Inv →
    s.outputs.adr = s.cfg.highAddr * 2 ^ 16 + s.br.addr.toNat ∧ s.outputs.adr < 2 ^ s.cfg.busAddrW ∧
    ∀ p, ∀ e ∈ (s.tick p).record, e ∈ s.record ∨ ∃ a : AddrField, e.adr = s.cfg.highAddr * 2 ^ 16 + a.toNat

/-- 44_bus_transactor.md R225: outside a cycle the acknowledge and the read data are ignored, and the read data in every tick
but the acknowledge of a read: ticks that differ in nothing else have the same next state. -/
def Obligations.AckOutsideCycleIgnored : Prop :=
  ∀ (s : State) (i j : Inputs), i.pins = j.pins → i.bus.fill = j.bus.fill →
    ((s.br.state = .idle ∨ s.br.state = .command) ∨
      (i.bus.ack = j.bus.ack ∧ (s.br.state = .read → i.bus.ack = true → i.bus.datR = j.bus.datR))) →
    s.tickWith i = s.tickWith j

/-- 44_bus_transactor.md R226, with R223, R224: without an acknowledge a cycle never ends; over any run of ticks the state, the
address, the data and the bus outputs are held, and nothing is recorded. -/
def Obligations.CycleHeldWithoutAck : Prop :=
  ∀ (s : State) (l : List Pins) (rs : List BusSide), (s.br.state = .read ∨ s.br.state = .write) → s.slave = .script rs →
    l.length ≤ rs.length → (∀ r ∈ rs, r.ack = false) → (∀ p ∈ l, p.rst = false) →
    (s.run l).br.state = s.br.state ∧ (s.run l).br.addr = s.br.addr ∧ (s.run l).br.wdata = s.br.wdata ∧
    (s.run l).br.acc = s.br.acc ∧ (s.run l).br.opcode = s.br.opcode ∧
    (s.run l).outputs.cyc = true ∧ (s.run l).outputs.stb = true ∧ (s.run l).outputs.we = s.outputs.we ∧
    (s.run l).outputs.adr = s.outputs.adr ∧ (s.run l).outputs.datW = s.outputs.datW ∧ (s.run l).record = s.record

/-- 44_bus_transactor.md R231: what an acknowledged tick adds to the transaction record, and that nothing else does but a
cancelled cycle. (An acknowledge in a reset tick counts: log entry 7.) -/
def Obligations.TransactionRecord : Prop :=
  ∀ (s : State) (p : Pins),
    (s.br.state = .read → (s.inputs p).bus.ack = true →
      (s.tick p).record = s.record ++ [{ dir := .read, adr := s.outputs.adr, data := some (s.inputs p).bus.datR }]) ∧
    (s.br.state = .write → (s.inputs p).bus.ack = true →
      (s.tick p).record = s.record ++ [{ dir := .write, adr := s.outputs.adr, data := some s.outputs.datW }]) ∧
    (s.br.state = .read → (s.inputs p).bus.ack = false → p.rst = true →
      (s.tick p).record = s.record ++ [{ dir := .read, adr := s.outputs.adr, data := none }]) ∧
    (s.br.state = .write → (s.inputs p).bus.ack = false → p.rst = true →
      (s.tick p).record = s.record ++ [{ dir := .write, adr := s.outputs.adr, data := none }]) ∧
    ((s.br.state = .read ∨ s.br.state = .write) → (s.inputs p).bus.ack = false → p.rst = false →
      (s.tick p).record = s.record) ∧
    (s.br.state = .idle ∨ s.br.state = .command → (s.tick p).record = s.record ∧ s.transactions = s.record) ∧
    (s.br.state = .read →
      s.transactions = s.record ++ [{ dir := .read, adr := s.outputs.adr, data := none }]) ∧
    (s.br.state = .write →
      s.transactions = s.record ++ [{ dir := .write, adr := s.outputs.adr, data := none }])

/-- 44_bus_transactor.md R227: from Idle no bus cycle is in progress for at least the next four state changes, so after an
acknowledge in tick `t1` the next cycle begins no earlier than tick `t1 + 6`. -/
def Obligations.GapBetweenCycles : Prop :=
  ∀ (s : State) (l : List Pins), s.br.state = .idle → l.length ≤ 4 → (s.run l).outputs.cyc = false

/-! ## Commands -/

/-- 43_bridge.md R190: READ. From a state in which a frame may begin and no transaction is in flight, whatever the slave does:
the operands are captured, and one bus read at the captured address is issued and nothing else; it is acknowledged within the
frame or still in flight after it. The write data, the high address bits, the parameters and the memory behind the bus are
unchanged. How many requests the frame makes, and so how far the outgoing source drains (`txLeft`, `txWord`), and the time
the slave has are those of the model's standard environments: log entries 2 and 3. -/
def Obligations.ReadCompletes : Prop :=
  ∀ (s : State) lead addr pad tail, s.ready → tail.length < 8 →
    ∃ t, exec (.read lead addr pad tail) s = .next t ∧
      t.br.opcode = 0x03#8 ∧ t.br.addr = addr ∧ t.br.acc = lead ++ (0x03#8 ++ addr) ∧ t.br.count = 0#3 ∧
      t.br.wdata = s.br.wdata ∧ t.br.addrHigh = s.br.addrHigh ∧ t.cfg = s.cfg ∧ t.todo = s.todo ∧ t.port.idle ∧
      ((t.br.state = .read ∧ t.record = s.record ∧
          t.br.txLeft.toNat = s.br.txLeft.toNat - (pad.length + 5) ∧
          t.br.txWord = s.br.txWord <<< (8 * min s.br.txLeft.toNat (pad.length + 5))) ∨
        (t.br.state = .idle ∧
          ∃ d, t.record = s.record ++ [{ dir := .read, adr := s.target addr, data := some d }])) ∧
      t.outputs.adr = s.target addr ∧
      ∀ m, s.slave = .ms m → t.br.state = .idle ∧ t.slave = .ms m ∧
        t.record = s.record ++ [{ dir := .read, adr := s.target addr, data := some (m.read (s.target addr)) }]

/-- 43_bridge.md R191: WRITE, as `ReadCompletes`: one bus write of the data at the captured address. With the memory slave,
the word at that address is the data and every other word is as before. The outgoing source only goes on draining; that the
frame's requests empty it (`txLeft`, `txWord`) is the number of requests of the model's standard environments: log entries 2
and 3. -/
def Obligations.WriteCompletes : Prop :=
  ∀ (s : State) lead addr data pad tail, s.ready → tail.length < 8 →
    ∃ t, exec (.write lead addr data pad tail) s = .next t ∧
      t.br.opcode = 0x02#8 ∧ t.br.addr = addr ∧ t.br.wdata = data ∧ t.br.acc = data ∧ t.br.count = 0#3 ∧
      t.br.addrHigh = s.br.addrHigh ∧ t.cfg = s.cfg ∧ t.todo = s.todo ∧ t.port.idle ∧
      t.br.txLeft = 0#3 ∧ t.br.txWord = s.br.txWord <<< (8 * s.br.txLeft.toNat) ∧
      ((t.br.state = .write ∧ t.record = s.record) ∨
        (t.br.state = .idle ∧
          t.record = s.record ++ [{ dir := .write, adr := s.target addr, data := some data }])) ∧
      t.outputs.adr = s.target addr ∧ t.outputs.datW = data ∧
      ∀ m, s.slave = .ms m → m.wf = true → t.br.state = .idle ∧
        ∃ m', t.slave = .ms m' ∧ m'.wf = true ∧ m'.read (s.target addr) = data ∧
          ∀ a, a ≠ s.target addr → m'.read a = m.read a

/-- 43_bridge.md R192: UNKNOWN. Any other opcode, at any length: the opcode is captured, the address too where byte 3 came, no
transaction is issued, and the Bridge is back in Idle. Nothing else changes but the accumulator and the draining of the
outgoing source, which follows the number of requests of the model's standard environments: log entries 2 and 3. -/
def Obligations.UnknownCompletes : Prop :=
  ∀ (s : State) lead opcode rest tail, s.ready → tail.length < 8 → opcode ≠ 0x02#8 → opcode ≠ 0x03#8 →
    ∃ t, exec (.unknown lead opcode rest tail) s = .next t ∧
      t.br.opcode = opcode ∧ t.br.state = .idle ∧ t.br.count = 0#3 ∧ t.record = s.record ∧
      (∀ a1 a0 l, rest = a1 :: a0 :: l → t.br.addr = a1 ++ a0) ∧ (rest.length < 2 → t.br.addr = s.br.addr) ∧
      t.br.acc = (lead :: opcode :: rest).foldl (fun (acc : Word) (b : Byte) => acc <<< 8 ||| b.setWidth 32) 0#32 ∧
      t.br.wdata = s.br.wdata ∧ t.br.addrHigh = s.br.addrHigh ∧ t.cfg = s.cfg ∧ t.todo = s.todo ∧ t.port.idle ∧
      t.br.txLeft.toNat = s.br.txLeft.toNat - (rest.length + 3) ∧
      t.br.txWord = s.br.txWord <<< (8 * min s.br.txLeft.toNat (rest.length + 3)) ∧
      ∀ m, s.slave = .ms m → t.slave = .ms m

/-- What every command's frame shows the Bridge (41_transport_a.md R131, 30_encoding.md R83, R91): one `Start`, one
`ByteReady` for each whole byte in order, one `Done`; with Variant A the partial flag rises exactly when the frame ends with
a partial byte (R123). That one request comes with the frame and one with each byte is the timing of log entries 2 and 3. -/
def Obligations.CommandFrameEvents : Prop :=
  ∀ (i : Instr) (s : State), i.wf = true → s.betweenFrames →
    ∃ t, exec i s = .next t ∧ t.seen = s.seen ++ frameShown (encode i) ∧ t.port.idle ∧ t.cfg = s.cfg ∧
      t.todo = s.todo ∧ t.br.count = 0#3 ∧ t.served.length = s.served.length + (encode i).bytes.length + 1 ∧
      ∀ y a, s.port = .a y a → ∃ y' a', t.port = .a y' a' ∧ a'.bitCount = 0#3 ∧ a'.byteDone = false ∧
        a'.partialFlag = (a.partialFlag || decide ((encode i).tail ≠ []))

/-- 60_exceptions.md R241, label E5 (43_bridge.md R195, 95_test_vectors.md P4): a command sent while a transaction is in flight
is lost whole. It captures nothing; at most the transaction that was in flight is acknowledged meanwhile. (No acknowledge in
the first three ticks means that the transaction is still in flight at the frame's `Start`.) -/
def Obligations.CommandDuringTransactionIsLost : Prop :=
  ∀ (i : Instr) (s : State) rs, i.wf = true → s.betweenFrames → (s.br.state = .read ∨ s.br.state = .write) →
    s.slave = .script rs → 3 ≤ rs.length → (∀ r ∈ rs.take 3, r.ack = false) →
    ∃ t, exec i s = .next t ∧ t.br.acc = s.br.acc ∧ t.br.opcode = s.br.opcode ∧ t.br.addr = s.br.addr ∧
      t.br.wdata = s.br.wdata ∧ t.br.addrHigh = s.br.addrHigh ∧ t.br.count = 0#3 ∧
      ((t.br.state = s.br.state ∧ t.record = s.record) ∨
        (t.br.state = .idle ∧ ∃ d, t.record = s.record ++
          [{ dir := if s.br.state = .write then .write else .read, adr := s.outputs.adr, data := some d }]))

/-- 43_bridge.md R198, 20_memory.md R74: a frame adds at most one bus transaction to those of the run, an unacknowledged one
included (92_eei_decisions.md D27), whatever the Bridge is doing when it begins. -/
def Obligations.AtMostOneTransactionPerFrame : Prop :=
  ∀ (f : Frame) (s : State), f.wf = true → s.betweenFrames →
    ∃ new : List (Dir × Nat), new.length ≤ 1 ∧
      (s.runFrame f).transactions.map (fun e => (e.dir, e.adr)) = s.transactions.map (fun e => (e.dir, e.adr)) ++ new

/-! ## Read data -/

/-- 20_memory.md R67: of the first four requests after a read acknowledges with the word `D`, the first gets `D[31:24]`, then
`D[23:16]`, `D[15:8]`, `D[7:0]`, over any run of ticks without another acknowledge or a reset; a request in the acknowledge
tick itself is not one of them (43_bridge.md R196). -/
def Obligations.ReadWordDrainsInOrder : Prop :=
  ∀ (s : State) (p : Pins) (l : List Pins) (r : BusSide) (rs : List BusSide), s.br.state = .read → p.rst = false →
    s.slave = .script (r :: rs) → r.ack = true → (∀ x ∈ rs, x.ack = false) → l.length ≤ rs.length →
    (∀ q ∈ l, q.rst = false) →
    ∃ new, ((s.tick p).run l).served = (s.tick p).served ++ new ∧
      new.take 4 = [r.datR.extractLsb' 24 8, r.datR.extractLsb' 16 8, r.datR.extractLsb' 8 8,
        r.datR.extractLsb' 0 8].take new.length ∧
      ((s.tick p).run l).br.txLeft.toNat = 4 - new.length ∧
      ((s.tick p).run l).br.txWord = r.datR <<< (8 * min new.length 4)

/-- 20_memory.md R77, 43_bridge.md R196: read data still waiting when a command's frame begins goes out first, on the frame's
first requests, whatever the command and whatever the slave does. That a frame of `n` bytes makes `n + 1` requests
(`new.length`) is the model's choice: log entry 2 for Variant A, log entry 3 for Variant B, whose requests the spec leaves
open (42_transport_b.md R162, 90_conflicts.md C6). -/
def Obligations.WaitingReadDataGoesOutFirst : Prop :=
  ∀ (i : Instr) (s : State), i.wf = true → s.ready → s.br.txLeft ≤ 4#3 →
    ∃ t new, exec i s = .next t ∧ t.served = s.served ++ new ∧ new.length = (encode i).bytes.length + 1 ∧
      new.take s.br.txLeft.toNat = ((wordBytes s.br.txWord).take s.br.txLeft.toNat).take new.length

/-- 70_reset_and_hazards.md R277, 43_bridge.md R190: a READ of at least 9 bytes, acknowledged in its turnaround slot (here by
the memory slave), hands the whole word to the requests of slots 5 to 8, and leaves nothing waiting. R277 is about Variant A
(under the timing of log entry 2). For Variant B, where 93_implementation_defined.md I-9 leaves the slot open, that five
requests come before the word is the model's choice of a standard peripheral: log entry 3. -/
def Obligations.LongReadServesItsWord : Prop :=
  ∀ (s : State) lead addr pad tail m, s.ready → tail.length < 8 → s.br.txLeft ≤ 4#3 → s.slave = .ms m →
    5 ≤ pad.length →
    ∃ t before after, exec (.read lead addr pad tail) s = .next t ∧
      t.served = s.served ++ (before ++ (wordBytes (m.read (s.target addr)) ++ after)) ∧ before.length = 5 ∧
      after.length = pad.length - 4 ∧ t.br.txLeft = 0#3 ∧ t.br.txWord = 0#32 ∧ t.br.state = .idle

/-- 70_reset_and_hazards.md R277, 20_memory.md R77 (95_test_vectors.md CMD-R2): the word of a READ of 4 bytes waits across the
end of its frame and goes out in slots 0 to 3 of the next command's frame. R277 is about Variant A (under the timing of log
entry 2). For Variant B, where 93_implementation_defined.md I-9 leaves the slots open, that all four bytes still wait after
the READ and go out on the next frame's first requests is the model's choice of a standard peripheral: log entry 3. -/
def Obligations.ShortReadServesNextFrame : Prop :=
  ∀ (s : State) lead addr tail m i, s.ready → tail.length < 8 → s.br.txLeft ≤ 4#3 → s.slave = .ms m →
    i.wf = true → 4 ≤ (encode i).bytes.length →
    ∃ t u after, exec (.read lead addr [] tail) s = .next t ∧ t.br.txWord = m.read (s.target addr) ∧ t.br.txLeft = 4#3 ∧
      exec i t = .next u ∧ u.served = t.served ++ (wordBytes (m.read (s.target addr)) ++ after)

/-- 95_test_vectors.md P1 for every address and every word: a WRITE, then a READ of the same address, issues the write and the
read in that order and hands the written word to the requests of slots 5 to 8 (20_memory.md R66, R67, R73). P1 is about
Variant A (under the timing of log entry 2); for Variant B, that five requests come before the word is the model's choice of
a standard peripheral: log entry 3. -/
def Obligations.WriteThenReadReturnsWord : Prop :=
  ∀ (s : State) l1 l2 addr data pad1 pad2 tail1 tail2 m, s.ready → tail1.length < 8 → tail2.length < 8 →
    s.br.txLeft ≤ 4#3 → s.slave = .ms m → m.wf = true → 5 ≤ pad2.length →
    ∃ t u before after, exec (.write l1 addr data pad1 tail1) s = .next t ∧
      exec (.read l2 addr pad2 tail2) t = .next u ∧
      u.served = t.served ++ (before ++ (wordBytes data ++ after)) ∧ before.length = 5 ∧
      u.record = s.record ++ [{ dir := .write, adr := s.target addr, data := some data },
                              { dir := .read, adr := s.target addr, data := some data }]

/-- 41_transport_a.md R136, R122, R125 under the timing T4 (log entry 2): the bits the master samples on `miso` in a frame of
Variant A are, slot by slot and most significant bit first, the bytes its requests took. -/
def Obligations.MasterReceivesServedBytes : Prop :=
  ∀ (i : Instr) (s : State) y a, i.wf = true → s.betweenFrames → s.port = .a y a →
    ∃ t new, exec i s = .next t ∧ t.served = s.served ++ new ∧
      s.received false (framePins (encode i)) = (new.flatMap byteBits).take (frameBits (encode i)).length

/-- 43_bridge.md R200 for one command under the memory slave: Variant A and Variant B, from the same Bridge, show the same
events, issue the same transactions, and leave the same Bridge and the same memory. R200 states the events and the
transactions. That `txWord` and `txLeft` agree too, which R200 does not ask (90_conflicts.md C6), is the model's choice of
environments that make the same number of requests around the read: log entries 2 and 3. -/
def Obligations.TransportsAgree : Prop :=
  ∀ (i : Instr) (s : State) y a b m, i.wf = true → s.cfg.wf = true → s.br.state = .idle → s.slave = .ms m → idleA y a →
    idleB b →
    ∃ t u, exec i { s with port := .a y a } = .next t ∧ exec i { s with port := .b b } = .next u ∧
      t.seen = u.seen ∧ t.record = u.record ∧ t.br = u.br ∧ t.slave = u.slave

/-! ## Invariants -/

/-- 10_state.md R52 with its companions (`State.Inv`): every step keeps the invariant, from every state that meets it. -/
def Obligations.StepKeepsInvariant : Prop :=
  ∀ s t : State, s.Inv → step s = .next t → t.Inv

/-- 00_scope.md R3, R10, 10_state.md R42, R49, 44_bus_transactor.md R231: no step changes a parameter or the transport that is
present, no step unsays what was recorded, and (with `addrHigh` at its constant) no step writes `addrHigh`. -/
def Obligations.StepKeepsInstance : Prop :=
  ∀ s t : State, step s = .next t →
    t.cfg = s.cfg ∧ ((∃ y a, s.port = .a y a) ↔ (∃ y a, t.port = .a y a)) ∧
    s.record <+: t.record ∧ s.served <+: t.served ∧ s.seen <+: t.seen ∧ t.todo = s.todo.tail ∧
    (s.br.addrHigh = s.cfg.highAddr → t.br.addrHigh = s.cfg.highAddr) ∧
    ((∃ m, s.slave = .ms m) ↔ (∃ m, t.slave = .ms m))

/-- 70_reset_and_hazards.md R284: in a run that goes on with the ticks `l` and then `rest`, a quiescent state is still
quiescent after `l`, if those ticks keep the chip deselected (Variant A), or acknowledge no status read that shows busy or a
ready slot (Variant B; an acknowledge in IDLE, with whatever byte, is no answer to a status read). Nothing is captured, recorded or sent: read data that waits goes on waiting. (The rule says
"acknowledge only status reads"; a status read that shows a free transmit slot would leave the polling loop, so the statement
asks for none: the model's reading, log entry 18.) -/
def Obligations.QuiescentStaysQuiescent : Prop :=
  ∀ (s : State) (l rest : List Pins), s.quiescent (l ++ rest) = true → (∀ p ∈ l, p.rst = false) →
    (∀ y a, s.port = .a y a → ∀ p ∈ l, p.csN = true) →
    (∀ pre p post b sr, l = pre ++ p :: post → (s.run pre).port = .b b → b.statusRead p = some sr →
      sr.getLsbD s.cfg.sbSrBusy.val = false ∧ sr.getLsbD s.cfg.sbSrTrdy.val = false ∧
      sr.getLsbD s.cfg.sbSrRrdy.val = false) →
    (s.run l).quiescent rest = true ∧ (s.run l).record = s.record ∧ (s.run l).served = s.served ∧
      (s.run l).br.txLeft = s.br.txLeft ∧ (s.run l).br.txWord = s.br.txWord ∧ (s.run l).br.acc = s.br.acc ∧
      (s.run l).br.opcode = s.br.opcode ∧ (s.run l).br.addr = s.br.addr ∧ (s.run l).br.wdata = s.br.wdata

/-- 60_exceptions.md R241, labels E6 and E7. A byte reported late (Variant B) has no effect on a Bridge that is not decoding:
none of its captures changes, and it dispatches nothing. A frame that ends before its dispatch issues no transaction and
leaves the Bridge in Idle, and what its Bridge had received is no whole command: no opcode byte yet, a READ with fewer than
4 bytes, or a WRITE; never an UNKNOWN opcode. WHICH byte is late and WHICH end is early is the model's reading of the two
labels (log entry 17, DEDUCED): late means busy seen low, so a byte of a frame that no status read showed busy counts too; a
frame of fewer than 2 bytes counts as ended early; the end of an UNKNOWN opcode's frame (label E2) never does. What the Bridge
does is 43_bridge.md R183, R185 and R195. -/
def Obligations.LateByteAndEarlyEnd : Prop :=
  (∀ (s : State) (p : Pins), p.rst = false → s.lateByte (s.inputs p) = true →
    (s.events (s.inputs p)).byteReady = true ∧ (s.events (s.inputs p)).done = false ∧
    (s.events (s.inputs p)).start = false ∧
    (s.br.state ≠ .command → (s.tick p).br.acc = s.br.acc ∧ (s.tick p).br.count = s.br.count ∧
      (s.tick p).br.opcode = s.br.opcode ∧ (s.tick p).br.addr = s.br.addr ∧ (s.tick p).br.wdata = s.br.wdata ∧
      ((s.tick p).br.state = s.br.state ∨ (s.tick p).br.state = .idle))) ∧
  (∀ (s : State) (p : Pins), p.rst = false → s.endedEarly (s.inputs p) = true →
    (s.events (s.inputs p)).done = true ∧ (s.tick p).br.state = .idle ∧ (s.tick p).transactions = s.transactions ∧
    (s.br.count.toNat < 2 ∨ (s.br.opcode = 0x03#8 ∧ s.br.count.toNat < 4) ∨ s.br.opcode = 0x02#8)) ∧
  (∀ (s : State) (p : Pins), s.br.state = .command → (s.events (s.inputs p)).done = true →
    (s.events (s.inputs p)).start = false → 2 ≤ s.br.count.toNat → s.br.opcode ≠ 0x02#8 → s.br.opcode ≠ 0x03#8 →
    s.endedEarly (s.inputs p) = false) ∧
  ∀ (s : State) (p : Pins) b, s.port = .b b → b.busy = true → s.lateByte (s.inputs p) = false

/-! ## Encodings -/

/-- 30_encoding.md R84, R86: decoding the frame of a well-formed command gives the command back, with every lead byte, opcode,
address, data word, pad byte and partial last byte. -/
def Obligations.DecodeOfEncode : Prop :=
  ∀ i : Instr, i.wf = true → decode (encode i) = .ok i ∧ (encode i).wf = true

/-- The other direction: a frame that decodes is the frame of its command, which is well formed: no two frames share a
command. -/
def Obligations.EncodeOfDecode : Prop :=
  ∀ (f : Frame) (i : Instr), decode f = .ok i → encode i = f ∧ i.wf = true

/-- 30_encoding.md R85, R87: what each frame decodes to, by its opcode byte (all eight bits) and its length alone. -/
def Obligations.DecodeByOpcodeAndLength : Prop :=
  ∀ (lead op : Byte) (rest : List Byte) (tail : List Bool), tail.length < 8 →
    (op = 0x03#8 → ((∃ addr pad, decode ⟨lead :: op :: rest, tail⟩ = .ok (.read lead addr pad tail)) ↔
      4 ≤ (lead :: op :: rest).length)) ∧
    (op = 0x02#8 → ((∃ addr data pad, decode ⟨lead :: op :: rest, tail⟩ = .ok (.write lead addr data pad tail)) ↔
      8 ≤ (lead :: op :: rest).length)) ∧
    (op ≠ 0x03#8 → op ≠ 0x02#8 → decode ⟨lead :: op :: rest, tail⟩ = .ok (.unknown lead op rest tail)) ∧
    (op = 0x03#8 → (lead :: op :: rest).length < 4 → decode ⟨lead :: op :: rest, tail⟩ = .error .readTooShort) ∧
    (op = 0x02#8 → (lead :: op :: rest).length < 8 → decode ⟨lead :: op :: rest, tail⟩ = .error .writeTooShort)

/-- Words written out from 30_encoding.md R84 and R89, one or more of each row of the opcode table: byte 1 the opcode, bytes 2
and 3 the address, bytes 4 to 7 the data, most significant byte first. -/
def Obligations.WordsDecode : Prop :=
  decode ⟨[0x00#8, 0x03#8, 0x00#8, 0x10#8], []⟩ = .ok (.read 0x00#8 0x0010#16 [] []) ∧
  decode ⟨[0xFF#8, 0x03#8, 0x12#8, 0x34#8, 0x55#8], [true]⟩ = .ok (.read 0xFF#8 0x1234#16 [0x55#8] [true]) ∧
  decode ⟨[0x00#8, 0x02#8, 0x00#8, 0x20#8, 0x11#8, 0x22#8, 0x33#8, 0x44#8], []⟩ =
    .ok (.write 0x00#8 0x0020#16 0x11223344#32 [] []) ∧
  decode ⟨[0x00#8, 0x83#8, 0x00#8, 0x10#8], []⟩ = .ok (.unknown 0x00#8 0x83#8 [0x00#8, 0x10#8] []) ∧
  decode ⟨[0x03#8, 0x00#8, 0x10#8], []⟩ = .ok (.unknown 0x03#8 0x00#8 [0x10#8] []) ∧
  decode ⟨[0x00#8, 0x03#8, 0x00#8], []⟩ = .error .readTooShort ∧
  decode ⟨[0x00#8, 0x02#8, 0x00#8, 0x20#8, 0x11#8, 0x22#8, 0x33#8], []⟩ = .error .writeTooShort ∧
  decode ⟨[0x00#8], []⟩ = .error .noOpcode
end

