-- ==== Sys2Proof/Laws/State.lean ====
section
/-! SUPPORT. The fields of the state after each update of Ops.lean, true by rfl, so that no later proof unfolds a record
update; and what the two reset values are. -/

namespace Sys2Proof.Machine

@[simp] theorem State.takeReset_cfg (s : State) : (s.takeReset).cfg = s.cfg := rfl
@[simp] theorem State.takeReset_port (s : State) : (s.takeReset).port = s.port.resetValue := rfl
@[simp] theorem State.takeReset_br (s : State) : (s.takeReset).br = Bridge.resetValue s.cfg := rfl
@[simp] theorem State.takeReset_todo (s : State) : (s.takeReset).todo = s.todo := rfl
@[simp] theorem State.takeReset_slave (s : State) : (s.takeReset).slave = s.slave := rfl
@[simp] theorem State.takeReset_now (s : State) : (s.takeReset).now = s.now := rfl
@[simp] theorem State.takeReset_record (s : State) : (s.takeReset).record = s.record := rfl
@[simp] theorem State.takeReset_served (s : State) : (s.takeReset).served = s.served := rfl
@[simp] theorem State.takeReset_seen (s : State) : (s.takeReset).seen = s.seen := rfl

@[simp] theorem State.advance_cfg (s : State) (i : Inputs) : (s.advance i).cfg = s.cfg := rfl
@[simp] theorem State.advance_port (s : State) (i : Inputs) : (s.advance i).port = s.port.next s.cfg i (s.txByte i) := rfl
@[simp] theorem State.advance_br (s : State) (i : Inputs) : (s.advance i).br = s.br.next (s.events i) i.bus := rfl
@[simp] theorem State.advance_todo (s : State) (i : Inputs) : (s.advance i).todo = s.todo := rfl
@[simp] theorem State.advance_slave (s : State) (i : Inputs) : (s.advance i).slave = s.slave := rfl
@[simp] theorem State.advance_now (s : State) (i : Inputs) : (s.advance i).now = s.now := rfl
@[simp] theorem State.advance_record (s : State) (i : Inputs) : (s.advance i).record = s.record := rfl
@[simp] theorem State.advance_served (s : State) (i : Inputs) : (s.advance i).served = s.served := rfl
@[simp] theorem State.advance_seen (s : State) (i : Inputs) : (s.advance i).seen = s.seen := rfl

@[simp] theorem State.observe_cfg (s : State) (i : Inputs) (t : State) : (s.observe i t).cfg = t.cfg := rfl
@[simp] theorem State.observe_port (s : State) (i : Inputs) (t : State) : (s.observe i t).port = t.port := rfl
@[simp] theorem State.observe_br (s : State) (i : Inputs) (t : State) : (s.observe i t).br = t.br := rfl
@[simp] theorem State.observe_todo (s : State) (i : Inputs) (t : State) : (s.observe i t).todo = t.todo := rfl
@[simp] theorem State.observe_slave (s : State) (i : Inputs) (t : State) : (s.observe i t).slave = s.slave.after s.outputs := rfl
@[simp] theorem State.observe_now (s : State) (i : Inputs) (t : State) : (s.observe i t).now = s.now + 1 := rfl
@[simp] theorem State.observe_record (s : State) (i : Inputs) (t : State) : (s.observe i t).record = s.record ++ s.br.recorded s.cfg i.pins.rst i.bus := rfl
@[simp] theorem State.observe_served (s : State) (i : Inputs) (t : State) : (s.observe i t).served = s.served ++ s.taken i := rfl
@[simp] theorem State.observe_seen (s : State) (i : Inputs) (t : State) : (s.observe i t).seen = s.seen ++ s.shown i := rfl

@[simp] theorem State.pop_cfg (s : State) : (s.pop).cfg = s.cfg := rfl
@[simp] theorem State.pop_port (s : State) : (s.pop).port = s.port := rfl
@[simp] theorem State.pop_br (s : State) : (s.pop).br = s.br := rfl
@[simp] theorem State.pop_todo (s : State) : (s.pop).todo = s.todo.tail := rfl
@[simp] theorem State.pop_slave (s : State) : (s.pop).slave = s.slave := rfl
@[simp] theorem State.pop_now (s : State) : (s.pop).now = s.now := rfl
@[simp] theorem State.pop_record (s : State) : (s.pop).record = s.record := rfl
@[simp] theorem State.pop_served (s : State) : (s.pop).served = s.served := rfl
@[simp] theorem State.pop_seen (s : State) : (s.pop).seen = s.seen := rfl

@[simp] theorem State.placeFrame_cfg (s : State) (f : Frame) : (s.placeFrame f).cfg = s.cfg := rfl
@[simp] theorem State.placeFrame_port (s : State) (f : Frame) : (s.placeFrame f).port = s.port := rfl
@[simp] theorem State.placeFrame_br (s : State) (f : Frame) : (s.placeFrame f).br = s.br := rfl
@[simp] theorem State.placeFrame_todo (s : State) (f : Frame) : (s.placeFrame f).todo = .frame f :: s.todo := rfl
@[simp] theorem State.placeFrame_slave (s : State) (f : Frame) : (s.placeFrame f).slave = s.slave := rfl
@[simp] theorem State.placeFrame_now (s : State) (f : Frame) : (s.placeFrame f).now = s.now := rfl
@[simp] theorem State.placeFrame_record (s : State) (f : Frame) : (s.placeFrame f).record = s.record := rfl
@[simp] theorem State.placeFrame_served (s : State) (f : Frame) : (s.placeFrame f).served = s.served := rfl
@[simp] theorem State.placeFrame_seen (s : State) (f : Frame) : (s.placeFrame f).seen = s.seen := rfl

@[simp] theorem State.tickWith_slave (s : State) (i : Inputs) : (s.tickWith i).slave = s.slave.after s.outputs := rfl
@[simp] theorem State.tickWith_now (s : State) (i : Inputs) : (s.tickWith i).now = s.now + 1 := rfl
@[simp] theorem State.tickWith_record (s : State) (i : Inputs) : (s.tickWith i).record = s.record ++ s.br.recorded s.cfg i.pins.rst i.bus := rfl
@[simp] theorem State.tickWith_served (s : State) (i : Inputs) : (s.tickWith i).served = s.served ++ s.taken i := rfl
@[simp] theorem State.tickWith_seen (s : State) (i : Inputs) : (s.tickWith i).seen = s.seen ++ s.shown i := rfl
@[simp] theorem State.tickWith_port (s : State) (i : Inputs) : (s.tickWith i).port = (s.clock i).port := rfl
@[simp] theorem State.tickWith_br (s : State) (i : Inputs) : (s.tickWith i).br = (s.clock i).br := rfl
@[simp] theorem State.tickWith_cfg (s : State) (i : Inputs) : (s.tickWith i).cfg = (s.clock i).cfg := rfl
@[simp] theorem State.tickWith_todo (s : State) (i : Inputs) : (s.tickWith i).todo = (s.clock i).todo := rfl

@[simp] theorem State.inputs_pins (s : State) (p : Pins) : (s.inputs p).pins = p := rfl
@[simp] theorem State.inputs_bus (s : State) (p : Pins) : (s.inputs p).bus = s.slave.drive s.now s.outputs := rfl

/-- A tick without reset advances every register (10_state.md R50). -/
theorem State.clock_of_no_reset (s : State) (i : Inputs) (h : i.pins.rst = false) : s.clock i = s.advance i := by
  simp [State.clock, h]

/-- A tick with reset takes the reset values (70_reset_and_hazards.md R270). -/
theorem State.clock_of_reset (s : State) (i : Inputs) (h : i.pins.rst = true) : s.clock i = s.takeReset := by
  simp [State.clock, h]

@[simp] theorem State.clock_cfg (s : State) (i : Inputs) : (s.clock i).cfg = s.cfg := by
  unfold State.clock; split <;> rfl

@[simp] theorem State.clock_todo (s : State) (i : Inputs) : (s.clock i).todo = s.todo := by
  unfold State.clock; split <;> rfl

/-- No tick writes the parameters. -/
@[simp] theorem State.tick_cfg (s : State) (p : Pins) : (s.tick p).cfg = s.cfg := by simp [State.tick]

/-- No tick changes what is scheduled. -/
@[simp] theorem State.tick_todo (s : State) (p : Pins) : (s.tick p).todo = s.todo := by simp [State.tick]

/-- A tick counts itself. -/
@[simp] theorem State.tick_now (s : State) (p : Pins) : (s.tick p).now = s.now + 1 := rfl

@[simp] theorem State.outputs_cyc (s : State) : s.outputs.cyc = s.br.inCycle := rfl
@[simp] theorem State.outputs_stb (s : State) : s.outputs.stb = s.br.inCycle := rfl
@[simp] theorem State.outputs_we (s : State) : s.outputs.we = decide (s.br.state = .write) := rfl
@[simp] theorem State.outputs_adr (s : State) : s.outputs.adr = s.br.adr s.cfg := rfl
@[simp] theorem State.outputs_datW (s : State) : s.outputs.datW = s.br.wdata := rfl

end Sys2Proof.Machine
end

