-- ==== Sys2Proof/Laws/Memory.lean ====
section
/-! SUPPORT. The laws of the slave's memory: a write keeps the canonical form, reads back at its address and leaves every
other address alone. -/

namespace Sys2Proof.Machine

@[simp] theorem Memory.read_nil (a : Nat) : Memory.read [] a = Memory.unlisted := rfl

@[simp] theorem Memory.read_cons (a' : Nat) (w : Word) (m : Memory) (a : Nat) :
    Memory.read ((a', w) :: m) a = if a = a' then w else Memory.read m a := rfl

/-- Every address of a canonical list's tail is above its head's. -/
theorem Memory.wf_cons_iff (a : Nat) (w : Word) (m : Memory) :
    Memory.wf ((a, w) :: m) = true ↔
      w ≠ Memory.unlisted ∧ (∀ e ∈ m, a < e.1) ∧ Memory.wf m = true := by
  induction m generalizing a w with
  | nil => simp [Memory.wf]
  | cons e m ih =>
    obtain ⟨a', w'⟩ := e
    have h := ih a' w'
    simp only [Memory.wf, Bool.and_eq_true, decide_eq_true_eq, List.forall_mem_cons, h]
    constructor
    · rintro ⟨⟨hw, ha⟩, hw', hm, hwf⟩
      exact ⟨hw, ⟨ha, fun e he => Nat.lt_trans ha (hm e he)⟩, hw', hm, hwf⟩
    · rintro ⟨hw, ⟨ha, -⟩, hw', hm, hwf⟩
      exact ⟨⟨hw, ha⟩, hw', hm, hwf⟩

/-- Below every listed address a memory reads as unlisted. -/
theorem Memory.read_of_below (m : Memory) (a : Nat) (h : ∀ e ∈ m, a < e.1) :
    m.read a = Memory.unlisted := by
  induction m with
  | nil => rfl
  | cons e m ih =>
    obtain ⟨a', w'⟩ := e
    have hne : a ≠ a' := Nat.ne_of_lt (h (a', w') (by simp))
    rw [Memory.read_cons, if_neg hne]
    exact ih fun e he => h e (by simp [he])

theorem Memory.put_wf (a : Nat) (w : Word) (m : Memory) (hm : m.wf = true) (h : ∀ e ∈ m, a < e.1) :
    (Memory.put a w m).wf = true := by
  unfold Memory.put
  split
  · exact hm
  · next hw => exact (Memory.wf_cons_iff a w m).2 ⟨hw, h, hm⟩

theorem Memory.read_put (a : Nat) (w : Word) (m : Memory) (b : Nat) (h : ∀ e ∈ m, a < e.1) :
    (Memory.put a w m).read b = if b = a then w else m.read b := by
  unfold Memory.put
  split
  · next hw =>
    split
    · next hb => rw [hb, Memory.read_of_below m a h, hw]
    · rfl
  · rfl

/-- A write lists no address but its own and those listed before. -/
theorem Memory.mem_write (m : Memory) (a : Nat) (w : Word) :
    ∀ e ∈ m.write a w, e.1 = a ∨ e ∈ m := by
  induction m with
  | nil =>
    intro e he
    unfold Memory.write Memory.put at he
    split at he
    · simp at he
    · left; simp at he; simp [he]
  | cons e' m ih =>
    obtain ⟨a', w'⟩ := e'
    intro e he
    simp only [Memory.write] at he
    split at he
    · unfold Memory.put at he
      split at he
      · exact .inr he
      · rcases List.mem_cons.1 he with h | h
        · left; rw [h]
        · exact .inr h
    · split at he
      · unfold Memory.put at he
        split at he
        · exact .inr (List.mem_cons_of_mem _ he)
        · rcases List.mem_cons.1 he with h | h
          · left; rw [h]
          · exact .inr (List.mem_cons_of_mem _ h)
      · rcases List.mem_cons.1 he with h | h
        · right; rw [h]; exact List.mem_cons_self
        · rcases ih e h with h | h
          · exact .inl h
          · exact .inr (List.mem_cons_of_mem _ h)

/-- A write keeps the canonical form. -/
theorem Memory.write_wf (m : Memory) (a : Nat) (w : Word) (hm : m.wf = true) : (m.write a w).wf = true := by
  induction m with
  | nil => exact Memory.put_wf a w [] rfl (by simp)
  | cons e m ih =>
    obtain ⟨a', w'⟩ := e
    obtain ⟨hw', hlt, hm'⟩ := (Memory.wf_cons_iff a' w' m).1 hm
    simp only [Memory.write]
    split
    · next h =>
      refine Memory.put_wf a w _ hm ?_
      intro e he
      rcases List.mem_cons.1 he with he | he
      · rw [he]; exact h
      · exact Nat.lt_trans h (hlt e he)
    · split
      · next h => exact Memory.put_wf a w m hm' (fun e he => h ▸ hlt e he)
      · next h1 h2 =>
        refine (Memory.wf_cons_iff a' w' _).2 ⟨hw', ?_, ih hm'⟩
        intro e he
        rcases Memory.mem_write m a w e he with he | he
        · rw [he]; omega
        · exact hlt e he

/-- A write reads back at its address and leaves every other address alone. -/
theorem Memory.read_write (m : Memory) (a : Nat) (w : Word) (b : Nat) (hm : m.wf = true) :
    (m.write a w).read b = if b = a then w else m.read b := by
  induction m with
  | nil => exact Memory.read_put a w [] b (by simp)
  | cons e m ih =>
    obtain ⟨a', w'⟩ := e
    obtain ⟨-, hlt, hm'⟩ := (Memory.wf_cons_iff a' w' m).1 hm
    simp only [Memory.write]
    split
    · next h =>
      refine Memory.read_put a w _ b ?_
      intro e he
      rcases List.mem_cons.1 he with he | he
      · rw [he]; exact h
      · exact Nat.lt_trans h (hlt e he)
    · split
      · next h =>
        rw [Memory.read_put a w m b (fun e he => h ▸ hlt e he), Memory.read_cons, h]
        split <;> rfl
      · next h1 h2 =>
        rw [Memory.read_cons, Memory.read_cons, ih hm']
        by_cases hb : b = a'
        · simp [hb]
          omega
        · simp [hb]

end Sys2Proof.Machine
end

