-- ==== Sys2Proof/Laws/Bridge.lean ====
section
/-! SUPPORT. What one tick can do to the Bridge: the parts of `Bridge.next` field by field, the next state in each state
and under each event (43_bridge.md R182 to R197), and that the invariant of 10_state.md R52 is kept. -/

namespace Sys2Proof.Machine

/-- No event of any kind. -/
def Events.quiet : Events := { start := false, byteReady := false, byte := 0#8, done := false, txReq := false }

/-- The events of a tick that shows no `Start`, `ByteReady`, `Done` and no request. -/
abbrev Events.isQuiet (e : Events) : Prop :=
  e.start = false ∧ e.byteReady = false ∧ e.done = false ∧ e.txReq = false

/-! ## The outgoing source (R196) and the counter on Done (R197) -/

/-- The outgoing source writes `txWord` and `txLeft` only. -/
theorem Bridge.outgoing_frame (b : Bridge) (e : Events) (s : BusSide) :
    b.outgoing e s = { b with txWord := (b.outgoing e s).txWord, txLeft := (b.outgoing e s).txLeft } := by
  unfold Bridge.outgoing Bridge.loadWord Bridge.drainByte
  split
  · rfl
  · split <;> rfl

@[simp] theorem Bridge.outgoing_state (b : Bridge) (e : Events) (s : BusSide) : (b.outgoing e s).state = b.state := by
  rw [Bridge.outgoing_frame]
@[simp] theorem Bridge.outgoing_acc (b : Bridge) (e : Events) (s : BusSide) : (b.outgoing e s).acc = b.acc := by
  rw [Bridge.outgoing_frame]
@[simp] theorem Bridge.outgoing_count (b : Bridge) (e : Events) (s : BusSide) : (b.outgoing e s).count = b.count := by
  rw [Bridge.outgoing_frame]
@[simp] theorem Bridge.outgoing_opcode (b : Bridge) (e : Events) (s : BusSide) :
    (b.outgoing e s).opcode = b.opcode := by rw [Bridge.outgoing_frame]
@[simp] theorem Bridge.outgoing_addr (b : Bridge) (e : Events) (s : BusSide) : (b.outgoing e s).addr = b.addr := by
  rw [Bridge.outgoing_frame]
@[simp] theorem Bridge.outgoing_addrHigh (b : Bridge) (e : Events) (s : BusSide) :
    (b.outgoing e s).addrHigh = b.addrHigh := by rw [Bridge.outgoing_frame]
@[simp] theorem Bridge.outgoing_wdata (b : Bridge) (e : Events) (s : BusSide) :
    (b.outgoing e s).wdata = b.wdata := by rw [Bridge.outgoing_frame]

/-- A read acknowledge loads the word, whatever else the tick holds. -/
theorem Bridge.outgoing_load (b : Bridge) (e : Events) (s : BusSide) (h : b.state = .read) (ha : s.ack = true) :
    b.outgoing e s = b.loadWord s.datR := by simp [Bridge.outgoing, h, ha]

/-- A request without a read acknowledge takes the top byte, if one is waiting. -/
theorem Bridge.outgoing_drain (b : Bridge) (e : Events) (s : BusSide) (h : ¬(b.state = .read ∧ s.ack = true))
    (hr : e.txReq = true) (hl : 0#3 < b.txLeft) : b.outgoing e s = b.drainByte := by
  simp [Bridge.outgoing, h, hr, hl]

/-- Without a read acknowledge, and without a request that finds a byte, the source keeps its value. -/
theorem Bridge.outgoing_keep (b : Bridge) (e : Events) (s : BusSide) (h : ¬(b.state = .read ∧ s.ack = true))
    (hr : e.txReq = false ∨ ¬ 0#3 < b.txLeft) : b.outgoing e s = b := by
  unfold Bridge.outgoing
  rw [if_neg h, if_neg]
  rintro ⟨h1, h2⟩
  rcases hr with hr | hr
  · simp [hr] at h1
  · exact hr h2

/-- `Done` clears `count` and nothing else. -/
theorem Bridge.clearOnDone_eq (b : Bridge) (e : Events) :
    b.clearOnDone e = { b with count := if e.done then 0#3 else b.count } := by
  unfold Bridge.clearOnDone
  split <;> rfl

/-- Without a `Done` the counter is left alone. -/
theorem Bridge.clearOnDone_of_not (b : Bridge) (e : Events) (h : e.done = false) : b.clearOnDone e = b := by
  simp [Bridge.clearOnDone, h]

/-! ## The state machine, case by case -/

/-- The byte of a tick without `ByteReady` is never read. -/
theorem Bridge.next_byte_irrelevant (b : Bridge) (e : Events) (s : BusSide) (x : Byte) (h : e.byteReady = false) :
    b.next { e with byte := x } s = b.next e s := by
  unfold Bridge.next Bridge.fsm Bridge.outgoing Bridge.clearOnDone
  simp [h]

/-- Idle or Command with a `Start` (R182, R184). -/
theorem Bridge.next_start (b : Bridge) (e : Events) (s : BusSide) (h : b.state = .idle ∨ b.state = .command)
    (he : e.start = true) : b.next e s = (b.outgoing e s).onStart := by
  rcases h with h | h <;>
    simp [Bridge.next, Bridge.fsm, Bridge.clearOnDone_eq, h, he, Bridge.onStart]

/-- Idle without a `Start` (R183, R197). -/
theorem Bridge.next_idle (b : Bridge) (e : Events) (s : BusSide) (h : b.state = .idle) (he : e.start = false) :
    b.next e s = { b.outgoing e s with count := if e.done then 0#3 else b.count } := by
  simp [Bridge.next, Bridge.fsm, Bridge.clearOnDone_eq, h, he]

/-- Command with a `Done` (R185, R197). -/
theorem Bridge.next_command_done (b : Bridge) (e : Events) (s : BusSide) (h : b.state = .command)
    (hs : e.start = false) (hd : e.done = true) :
    b.next e s = { b.outgoing e s with count := 0#3, state := .idle } := by
  simp [Bridge.next, Bridge.fsm, Bridge.clearOnDone_eq, h, hs, hd]

/-- Command with a `ByteReady` (R186 to R189). -/
theorem Bridge.next_command_byte (b : Bridge) (e : Events) (s : BusSide) (h : b.state = .command)
    (hs : e.start = false) (hd : e.done = false) (hb : e.byteReady = true) :
    b.next e s = (b.outgoing e s).onByte e.byte := by
  simp [Bridge.next, Bridge.fsm, Bridge.clearOnDone_of_not, h, hs, hd, hb]

/-- Command without an event. -/
theorem Bridge.next_command_quiet (b : Bridge) (e : Events) (s : BusSide) (h : b.state = .command)
    (hs : e.start = false) (hd : e.done = false) (hb : e.byteReady = false) :
    b.next e s = b.outgoing e s := by
  simp [Bridge.next, Bridge.fsm, Bridge.clearOnDone_of_not, h, hs, hd, hb]

/-- Read or Write (R193 to R195, R197): the acknowledge ends the cycle, a `Done` clears the counter, the rest is
dropped. -/
theorem Bridge.next_cycle (b : Bridge) (e : Events) (s : BusSide) (h : b.state = .read ∨ b.state = .write) :
    b.next e s = { b.outgoing e s with
      count := if e.done then 0#3 else b.count, state := if s.ack then .idle else b.state } := by
  rcases h with h | h <;> cases ha : s.ack <;>
    simp [Bridge.next, Bridge.fsm, Bridge.clearOnDone_eq, h, ha]

/-! ## A received byte, by the count before it -/

/-- A byte that neither captures nor dispatches (counts 0, 2, 4, 5, 6, and 7 without the write opcode). -/
theorem Bridge.onByte_plain (b : Bridge) (x : Byte) (h1 : b.count ≠ 1#3) (h3 : b.count ≠ 3#3)
    (h7 : b.count ≠ 7#3 ∨ b.opcode ≠ Config.opcWrite) : b.onByte x = b.accumulate x := by
  have h7' : ¬(b.count = 7#3 ∧ b.opcode = Config.opcWrite) := by
    rintro ⟨h, h'⟩
    rcases h7 with h7 | h7 <;> contradiction
  simp [Bridge.onByte, Bridge.captureOpcode, Bridge.dispatchRead, Bridge.dispatchWrite, Bridge.accumulate, h1, h3, h7']

/-- Byte 1: the opcode capture (R187). -/
theorem Bridge.onByte_one (b : Bridge) (x : Byte) (h : b.count = 1#3) :
    b.onByte x = { b.accumulate x with opcode := opcodeOf (foldByte b.acc x) } := by
  simp [Bridge.onByte, Bridge.captureOpcode, Bridge.dispatchRead, Bridge.dispatchWrite, Bridge.accumulate, h]

/-- Byte 3: the address capture, and the dispatch of a READ (R188). -/
theorem Bridge.onByte_three (b : Bridge) (x : Byte) (h : b.count = 3#3) :
    b.onByte x = { b.accumulate x with
      addr := addrOf (foldByte b.acc x),
      state := if b.opcode = Config.opcRead then .read else b.state } := by
  simp [Bridge.onByte, Bridge.captureOpcode, Bridge.dispatchRead, Bridge.dispatchWrite, Bridge.accumulate, h]

/-- Byte 7 of a WRITE: the data capture and the dispatch (R189). -/
theorem Bridge.onByte_seven_write (b : Bridge) (x : Byte) (h : b.count = 7#3) (ho : b.opcode = Config.opcWrite) :
    b.onByte x = { b.accumulate x with wdata := foldByte b.acc x, state := .write } := by
  simp [Bridge.onByte, Bridge.captureOpcode, Bridge.dispatchRead, Bridge.dispatchWrite, Bridge.accumulate, h, ho]

/-- The low byte of the accumulator is the byte just received. -/
theorem opcodeOf_foldByte (acc : Word) (x : Byte) : opcodeOf (foldByte acc x) = x := by
  ext i hi
  simp [opcodeOf, foldByte, BitVec.getElem_extractLsb', hi]
  omega

/-- The low half of the accumulator is the last two bytes (R86). -/
theorem addrOf_foldByte (acc : Word) (x y : Byte) :
    addrOf (foldByte (foldByte acc x) y) = addrOfBytes x y := by
  apply BitVec.eq_of_getLsbD_eq
  intro i hi
  simp only [addrOf, foldByte, addrOfBytes, BitVec.getLsbD_extractLsb', BitVec.getLsbD_or, BitVec.getLsbD_shiftLeft,
    BitVec.getLsbD_setWidth, BitVec.getLsbD_append, hi]
  rcases Nat.lt_or_ge i 8 with h8 | h8
  · have : 0 + i < 32 := by omega
    have : 0 + i < 8 := by omega
    simp [*]
    omega
  · have h16 : ¬ 0 + i < 8 := by omega
    have hz : y.getLsbD (0 + i) = false := BitVec.getLsbD_of_ge _ _ (by omega)
    have h : ¬ (i < 8) := by omega
    have e1 : 0 + i - 8 < 8 := by omega
    have e2 : 0 + i < 32 := by omega
    have e3 : 0 + i - 8 < 32 := by omega
    have e4 : 0 + i - 8 = i - 8 := by omega
    simp_all

/-- The accumulator after four bytes is those four bytes (R86). -/
theorem foldByte_four (acc : Word) (w x y z : Byte) :
    foldByte (foldByte (foldByte (foldByte acc w) x) y) z = wordOfBytes w x y z := by
  apply BitVec.eq_of_getLsbD_eq
  intro i hi
  have hk : i < 8 ∨ 8 ≤ i ∧ i < 16 ∨ 16 ≤ i ∧ i < 24 ∨ 24 ≤ i ∧ i < 32 := by omega
  simp only [foldByte, wordOfBytes, BitVec.getLsbD_or, BitVec.getLsbD_shiftLeft, BitVec.getLsbD_setWidth,
    BitVec.getLsbD_append, Nat.sub_sub]
  rcases hk with h | ⟨h, h'⟩ | ⟨h, h'⟩ | ⟨h, h'⟩
  · simp [show i < 32 by omega, h]
  · have a1 : ¬ i < 8 := by omega
    have a2 : i - 8 < 8 := by omega
    have hz : z.getLsbD i = false := BitVec.getLsbD_of_ge _ _ (by omega)
    simp [show i < 32 by omega, show i - 8 < 32 by omega, a1, a2, hz]
  · have a1 : ¬ i < 8 := by omega
    have a2 : ¬ i - 8 < 8 := by omega
    have a3 : i - 16 < 8 := by omega
    have hz : z.getLsbD i = false := BitVec.getLsbD_of_ge _ _ (by omega)
    have hy : y.getLsbD (i - 8) = false := BitVec.getLsbD_of_ge _ _ (by omega)
    simp [show i < 32 by omega, show i - 8 < 32 by omega, show i - 16 < 32 by omega, a1, a2, a3, hz, hy]
  · have a1 : ¬ i < 8 := by omega
    have a2 : ¬ i - 8 < 8 := by omega
    have a3 : ¬ i - 16 < 8 := by omega
    have hz : z.getLsbD i = false := BitVec.getLsbD_of_ge _ _ (by omega)
    have hy : y.getLsbD (i - 8) = false := BitVec.getLsbD_of_ge _ _ (by omega)
    have hx : x.getLsbD (i - 16) = false := BitVec.getLsbD_of_ge _ _ (by omega)
    simp [show i < 32 by omega, show i - 8 < 32 by omega, show i - 16 < 32 by omega, show i - 24 < 32 by omega,
      a1, a2, a3, hz, hy, hx]
    omega

/-! ## The invariant -/

theorem Bridge.outgoing_txLeft_le (b : Bridge) (e : Events) (s : BusSide) (h : b.txLeft ≤ 4#3) :
    (b.outgoing e s).txLeft ≤ 4#3 := by
  unfold Bridge.outgoing Bridge.loadWord Bridge.drainByte
  split
  · simp
  · split
    · next hc =>
      have h0 := hc.2
      simp only
      bv_omega
    · exact h

end Sys2Proof.Machine
end

