-- ==== Sys2Proof/Laws/Transport.lean ====
section
/-! SUPPORT. What one tick can do to each transport: one lemma per operation of Transport A (41_transport_a.md R122 to
R126, R130) and per state of Transport B (42_transport_b.md R153 to R158), and the shift register's bits. -/

namespace Sys2Proof.Machine

/-! ## Transport A -/

theorem PortA.next_start (a : PortA) (y : Sync) (t : Byte) (h : a.start y = true) :
    a.next y t = { a.onStart t with sclkPrev := y.sclkS, selPrev := y.selS } := by
  simp [PortA.next, PortA.operate, h]

theorem PortA.next_done (a : PortA) (y : Sync) (t : Byte) (h : a.done y = true) :
    a.next y t = { a.onDone with sclkPrev := y.sclkS, selPrev := y.selS } := by
  have h' : a.start y = false := by
    revert h; unfold PortA.start PortA.done; cases y.selS <;> cases a.selPrev <;> simp
  simp [PortA.next, PortA.operate, h, h']

/-- While the chip is active neither `start` nor `done` holds (R121). -/
theorem PortA.active_excl (a : PortA) (y : Sync) (h : a.active y = true) :
    a.start y = false ∧ a.done y = false := by
  revert h; unfold PortA.start PortA.done PortA.active; cases y.selS <;> cases a.selPrev <;> simp

theorem PortA.next_rise (a : PortA) (y : Sync) (t : Byte) (h : a.active y = true) (hr : a.rise y = true) :
    a.next y t = { a.onRise y.mosiS with sclkPrev := y.sclkS, selPrev := y.selS } := by
  obtain ⟨h1, h2⟩ := a.active_excl y h
  simp [PortA.next, PortA.operate, h, h1, h2, hr]

/-- At most one of `rise` and `fall` (R120). -/
theorem PortA.rise_of_fall (a : PortA) (y : Sync) (h : a.fall y = true) : a.rise y = false := by
  revert h; unfold PortA.rise PortA.fall; cases y.sclkS <;> cases a.sclkPrev <;> simp

theorem PortA.next_byte (a : PortA) (y : Sync) (t : Byte) (h : a.active y = true) (hf : a.fall y = true)
    (hb : a.byteDone = true) :
    a.next y t = { a.onByte t with sclkPrev := y.sclkS, selPrev := y.selS } := by
  obtain ⟨h1, h2⟩ := a.active_excl y h
  simp [PortA.next, PortA.operate, h, h1, h2, hf, a.rise_of_fall y hf, hb]

theorem PortA.next_shift (a : PortA) (y : Sync) (t : Byte) (h : a.active y = true) (hf : a.fall y = true)
    (hb : a.byteDone = false) :
    a.next y t = { a.onShift with sclkPrev := y.sclkS, selPrev := y.selS } := by
  obtain ⟨h1, h2⟩ := a.active_excl y h
  simp [PortA.next, PortA.operate, h, h1, h2, hf, a.rise_of_fall y hf, hb]

/-- A tick whose levels are those of the last tick does nothing. -/
theorem PortA.next_settled (a : PortA) (y : Sync) (t : Byte) (hc : a.sclkPrev = y.sclkS) (hs : a.selPrev = y.selS) :
    a.next y t = a := by
  obtain ⟨c, s, bc, bd, rx, tx, pf⟩ := a
  simp only at hc hs
  subst hc hs
  simp [PortA.next, PortA.operate, PortA.start, PortA.done, PortA.active, PortA.rise, PortA.fall]

/-- In such a tick there is no event. -/
theorem PortA.events_settled (a : PortA) (y : Sync) (hc : a.sclkPrev = y.sclkS) (hs : a.selPrev = y.selS) :
    (a.events y).isQuiet := by
  simp [PortA.events, PortA.start, PortA.done, PortA.active, PortA.fall, hc, hs]

/-- At most one of `Start`, `ByteReady` and `Done` in a tick of Transport A (R131), from any state. -/
theorem PortA.events_excl (a : PortA) (y : Sync) :
    ((a.events y).start = true → (a.events y).byteReady = false ∧ (a.events y).done = false) ∧
    ((a.events y).byteReady = true → (a.events y).start = false ∧ (a.events y).done = false) := by
  simp only [PortA.events, PortA.start, PortA.done, PortA.active]
  cases y.selS <;> cases a.selPrev <;> simp

/-! ## The shift register -/

theorem getLsbD_shiftIn (v : Byte) (m : Bool) (i : Nat) (hi : i < 8) :
    (shiftIn v m).getLsbD i = if i = 0 then m else v.getLsbD (i - 1) := by
  rw [shiftIn, BitVec.getLsbD_concat]
  split
  · rfl
  · simp [BitVec.getLsbD_setWidth]
    omega

/-- Eight samples, most significant bit first, make the byte, whatever the register held (R124, R136). -/
theorem shiftIn_byteBits (v b : Byte) : (byteBits b).foldl shiftIn v = b := by
  apply BitVec.eq_of_getLsbD_eq
  intro i hi
  simp only [byteBits, List.range, List.range.loop, List.map, List.foldl]
  have : i = 0 ∨ i = 1 ∨ i = 2 ∨ i = 3 ∨ i = 4 ∨ i = 5 ∨ i = 6 ∨ i = 7 := by omega
  rcases this with h | h | h | h | h | h | h | h <;> subst h <;>
    simp (disch := omega) only [getLsbD_shiftIn] <;> rfl

/-! ## Transport B -/

theorem PortB.next_reset (b : PortB) (p : Params) (k : Bool) (d t : Byte) (h : b.state = .reset) :
    b.next p k d t = { b.inReset k with busyPrev := b.busy } := by simp [PortB.next, PortB.operate, h]

theorem PortB.next_idle (b : PortB) (p : Params) (k : Bool) (d t : Byte) (h : b.state = .idle) :
    b.next p k d t = { b.inIdle with busyPrev := b.busy } := by simp [PortB.next, PortB.operate, h]

theorem PortB.next_poll (b : PortB) (p : Params) (k : Bool) (d t : Byte) (h : b.state = .poll) :
    b.next p k d t = { b.inPoll p k d t with busyPrev := b.busy } := by simp [PortB.next, PortB.operate, h]

theorem PortB.next_rxread (b : PortB) (p : Params) (k : Bool) (d t : Byte) (h : b.state = .rxread) :
    b.next p k d t = { b.inRxRead k d with busyPrev := b.busy } := by simp [PortB.next, PortB.operate, h]

theorem PortB.next_txwrite (b : PortB) (p : Params) (k : Bool) (d t : Byte) (h : b.state = .txwrite) :
    b.next p k d t = { b.inTxWrite k with busyPrev := b.busy } := by simp [PortB.next, PortB.operate, h]

/-- The delayed copy of busy, in every tick (R158). -/
theorem PortB.next_busyPrev (b : PortB) (p : Params) (k : Bool) (d t : Byte) : (b.next p k d t).busyPrev = b.busy := rfl

/-! ## The status byte of the standard peripheral -/

theorem getLsbD_one_shift (n : Nat) (hn : n < 8) (i : Nat) :
    ((1#8) <<< n).getLsbD i = decide (i = n) := by
  rw [BitVec.getLsbD_shiftLeft]
  by_cases h : i = n
  · subst h; simp [hn]
  · by_cases h2 : i < n
    · simp [h, h2]
    · have : i - n ≠ 0 := by omega
      simp [h, BitVec.getLsbD_one, this]

/-- The three status bits of `statusByte` are the ones asked for, when the positions are distinct
(00_scope.md R9). -/
theorem statusByte_bits (p : Params) (h : p.wf = true) (x y z : Bool) :
    busyBit p (statusByte p x y z) = x ∧ trdyBit p (statusByte p x y z) = y ∧
      rrdyBit p (statusByte p x y z) = z := by
  have hd : p.sbSrBusy ≠ p.sbSrTrdy ∧ p.sbSrBusy ≠ p.sbSrRrdy ∧ p.sbSrTrdy ≠ p.sbSrRrdy := by
    simp [Params.wf, List.nodup_cons] at h
    exact ⟨h.2.1.1, h.2.1.2, h.2.2⟩
  obtain ⟨h1, h2, h3⟩ := hd
  have e1 : p.sbSrBusy.val ≠ p.sbSrTrdy.val := fun e => h1 (Fin.ext e)
  have e2 : p.sbSrBusy.val ≠ p.sbSrRrdy.val := fun e => h2 (Fin.ext e)
  have e3 : p.sbSrTrdy.val ≠ p.sbSrRrdy.val := fun e => h3 (Fin.ext e)
  have l1 := p.sbSrBusy.isLt
  have l2 := p.sbSrTrdy.isLt
  have l3 := p.sbSrRrdy.isLt
  have hz : ∀ (c : Bool) (n i : Nat), n < 8 →
      (if c then (1#8) <<< n else 0#8).getLsbD i = (c && decide (i = n)) := by
    intro c n i hn
    cases c
    · simp
    · simpa using getLsbD_one_shift n hn i
  simp only [busyBit, trdyBit, rrdyBit, statusByte, BitVec.getLsbD_or, hz _ _ _ l1, hz _ _ _ l2, hz _ _ _ l3]
  simp [e1, e2, e3, e1.symm, e2.symm, e3.symm]

end Sys2Proof.Machine
end

