-- ==== Sys2Proof/Laws/Run.lean ====
section
/-! SUPPORT. Runs of ticks. A tick without reset is a tick of everything but the transport, under the events the
transport shows (`bridgeTick`), and the transport's own next state; so a run is a list of events. `stages` packages the
induction over such a list once: what every quiet tick keeps, and each event moves on to its next stage, holds of the
stage after the last event. -/

namespace Sys2Proof.Machine

/-- What the bus slave drives in the current tick. -/
def State.bus (s : State) : BusSide := s.slave.drive s.now s.outputs

/-- One tick of everything but the transport, under the given events. -/
def State.bridgeTick (s : State) (e : Events) : State :=
  { s with br := s.br.next e s.bus, slave := s.slave.after s.outputs, now := s.now + 1,
           record := s.record ++ s.br.recorded s.cfg false s.bus,
           served := s.served ++ (if e.txReq then [s.br.txByte s.bus.fill] else []),
           seen := s.seen ++ e.visible }

@[simp] theorem State.bridgeTick_br (s : State) (e : Events) : (s.bridgeTick e).br = s.br.next e s.bus := rfl
@[simp] theorem State.bridgeTick_cfg (s : State) (e : Events) : (s.bridgeTick e).cfg = s.cfg := rfl
@[simp] theorem State.bridgeTick_port (s : State) (e : Events) : (s.bridgeTick e).port = s.port := rfl
@[simp] theorem State.bridgeTick_todo (s : State) (e : Events) : (s.bridgeTick e).todo = s.todo := rfl
@[simp] theorem State.bridgeTick_record (s : State) (e : Events) :
    (s.bridgeTick e).record = s.record ++ s.br.recorded s.cfg false s.bus := rfl
@[simp] theorem State.bridgeTick_slave (s : State) (e : Events) :
    (s.bridgeTick e).slave = s.slave.after s.outputs := rfl
@[simp] theorem State.bridgeTick_served (s : State) (e : Events) :
    (s.bridgeTick e).served = s.served ++ (if e.txReq then [s.br.txByte s.bus.fill] else []) := rfl
@[simp] theorem State.bridgeTick_seen (s : State) (e : Events) : (s.bridgeTick e).seen = s.seen ++ e.visible := rfl

/-- The state with another transport state. -/
def State.setPort (s : State) (q : Port) : State := { s with port := q }

@[simp] theorem State.setPort_port (s : State) (q : Port) : (s.setPort q).port = q := rfl
@[simp] theorem State.setPort_br (s : State) (q : Port) : (s.setPort q).br = s.br := rfl
@[simp] theorem State.setPort_cfg (s : State) (q : Port) : (s.setPort q).cfg = s.cfg := rfl
@[simp] theorem State.setPort_slave (s : State) (q : Port) : (s.setPort q).slave = s.slave := rfl
@[simp] theorem State.setPort_record (s : State) (q : Port) : (s.setPort q).record = s.record := rfl
@[simp] theorem State.setPort_served (s : State) (q : Port) : (s.setPort q).served = s.served := rfl
@[simp] theorem State.setPort_seen (s : State) (q : Port) : (s.setPort q).seen = s.seen := rfl
@[simp] theorem State.setPort_todo (s : State) (q : Port) : (s.setPort q).todo = s.todo := rfl
@[simp] theorem State.setPort_now (s : State) (q : Port) : (s.setPort q).now = s.now := rfl
@[simp] theorem State.setPort_setPort (s : State) (q r : Port) : (s.setPort q).setPort r = s.setPort r := rfl
theorem State.setPort_self (s : State) (q : Port) (h : s.port = q) : s.setPort q = s := by subst h; rfl

/-- The slave does not see the transport. -/
@[simp] theorem State.setPort_bus (s : State) (q : Port) : (s.setPort q).bus = s.bus := by
  obtain ⟨cfg, port, br, todo, slave, now, record, served, seen⟩ := s
  cases slave with
  | script l => cases l <;> rfl
  | ms m => rfl

@[simp] theorem State.setPort_bridgeTick (s : State) (q : Port) (e : Events) :
    (s.setPort q).bridgeTick e = (s.bridgeTick e).setPort q := by
  have h : (s.slave.after (s.setPort q).outputs) = s.slave.after s.outputs := by
    cases s.slave <;> rfl
  simp only [State.bridgeTick, State.setPort_bus]
  simp only [State.setPort_br, State.setPort_cfg, State.setPort_slave, State.setPort_record, State.setPort_served,
    State.setPort_seen, State.setPort_now, h]
  rfl

/-- A tick without reset, taken apart (10_state.md R50). -/
theorem State.tick_eq (s : State) (p : Pins) (h : p.rst = false) :
    s.tick p = (s.bridgeTick (s.events { pins := p, bus := s.bus })).setPort
      (s.port.next s.cfg { pins := p, bus := s.bus } (s.br.txByte s.bus.fill)) := by
  simp [State.tick, State.tickWith, State.observe, State.clock, State.advance, State.taken, State.shown,
    State.bridgeTick, State.setPort, State.inputs, State.bus, State.txByte, h]
  rfl

/-- Events without `ByteReady` may carry any byte. -/
theorem State.bridgeTick_byte (s : State) (e : Events) (h : e.byteReady = false) :
    s.bridgeTick e = s.bridgeTick { e with byte := 0#8 } := by
  have hv : Events.visible { e with byte := 0#8 } = e.visible := by simp [Events.visible, h]
  simp only [State.bridgeTick, Bridge.next_byte_irrelevant s.br e s.bus 0#8 h, hv]

/-- A tick without an event is a quiet tick. -/
theorem State.bridgeTick_isQuiet (s : State) (e : Events) (h : e.isQuiet) :
    s.bridgeTick e = s.bridgeTick Events.quiet := by
  obtain ⟨st, br, by', dn, tx⟩ := e
  obtain ⟨h1, h2, h3, h4⟩ := h
  simp only at h1 h2 h3 h4
  subst h1 h2 h3 h4
  exact s.bridgeTick_byte _ rfl

/-- A run of events. -/
def State.bridgeRun (s : State) (es : List Events) : State := es.foldl State.bridgeTick s

@[simp] theorem State.bridgeRun_nil (s : State) : s.bridgeRun [] = s := rfl
@[simp] theorem State.bridgeRun_cons (s : State) (e : Events) (es : List Events) :
    s.bridgeRun (e :: es) = (s.bridgeTick e).bridgeRun es := rfl
theorem State.bridgeRun_append (s : State) (es fs : List Events) :
    s.bridgeRun (es ++ fs) = (s.bridgeRun es).bridgeRun fs := by simp [State.bridgeRun]

@[simp] theorem State.bridgeRun_cfg (s : State) (es : List Events) : (s.bridgeRun es).cfg = s.cfg := by
  induction es generalizing s with
  | nil => rfl
  | cons e es ih => simp [ih]

@[simp] theorem State.bridgeRun_port (s : State) (es : List Events) : (s.bridgeRun es).port = s.port := by
  induction es generalizing s with
  | nil => rfl
  | cons e es ih => simp [ih]

@[simp] theorem State.setPort_bridgeRun (s : State) (q : Port) (es : List Events) :
    (s.setPort q).bridgeRun es = (s.bridgeRun es).setPort q := by
  induction es generalizing s with
  | nil => rfl
  | cons e es ih => simp [ih]

@[simp] theorem State.run_nil (s : State) : s.run [] = s := rfl
@[simp] theorem State.run_cons (s : State) (p : Pins) (l : List Pins) : s.run (p :: l) = (s.tick p).run l := rfl
theorem State.run_append (s : State) (l m : List Pins) : s.run (l ++ m) = (s.run l).run m := by simp [State.run]

/-! ## Whether a further frame is to come (70_reset_and_hazards.md R284) -/

@[simp] theorem State.noFurtherFrame_nil (s : State) : s.noFurtherFrame [] = true := rfl
@[simp] theorem State.noFurtherFrame_cons (s : State) (q : Pins) (rest : List Pins) :
    s.noFurtherFrame (q :: rest) = (!s.showsFrame q && (s.tick q).noFurtherFrame rest) := rfl
theorem State.noFurtherFrame_append (s : State) (l rest : List Pins) :
    s.noFurtherFrame (l ++ rest) = (s.noFurtherFrame l && (s.run l).noFurtherFrame rest) := by
  induction l generalizing s with
  | nil => simp
  | cons q l ih => simp [ih, Bool.and_assoc]

/-- A status read has an answer only in POLL, on the acknowledge (42_transport_b.md R155). -/
@[simp] theorem PortB.statusRead_eq_some (b : PortB) (q : Pins) (sr : Byte) :
    b.statusRead q = some sr ↔ b.state = .poll ∧ q.sbAck = true ∧ q.sbDatR = sr := by
  simp [PortB.statusRead, and_assoc]

/-- The events of a list that are not quiet. -/
def loud (es : List Events) : List Events := es.filter (fun e => decide (e ≠ Events.quiet))

@[simp] theorem loud_nil : loud [] = [] := rfl
@[simp] theorem loud_append (es fs : List Events) : loud (es ++ fs) = loud es ++ loud fs := by simp [loud]
@[simp] theorem loud_quiet (es : List Events) : loud (Events.quiet :: es) = loud es := by simp [loud]
theorem loud_cons (e : Events) (es : List Events) (h : e ≠ Events.quiet) : loud (e :: es) = e :: loud es := by
  simp [loud, h]
@[simp] theorem loud_replicate (n : Nat) : loud (List.replicate n Events.quiet) = [] := by
  simp [loud]

/-- The induction over a run of events, once: a family of properties that quiet ticks keep and that each event moves on
holds, after the run, of the stage after its last event. -/
theorem stages (P : List Events → State → Prop)
    (quiet : ∀ todo s, P todo s → P todo (s.bridgeTick Events.quiet))
    (move : ∀ e todo s, P (e :: todo) s → P todo (s.bridgeTick e))
    (es : List Events) (s : State) (h : P (loud es) s) : P [] (s.bridgeRun es) := by
  induction es generalizing s with
  | nil => exact h
  | cons e es ih =>
    rw [State.bridgeRun_cons]
    apply ih
    by_cases he : e = Events.quiet
    · subst he
      rw [loud_quiet] at h
      exact quiet _ _ h
    · rw [loud_cons e es he] at h
      exact move _ _ _ h

/-- What every tick keeps, a run keeps. -/
theorem State.run_keeps (P : State → Prop) (h : ∀ s p, P s → P (s.tick p)) (l : List Pins) (s : State) (hs : P s) :
    P (s.run l) := by
  induction l generalizing s with
  | nil => exact hs
  | cons p l ih => exact ih _ (h s p hs)

/-- What every tick keeps, a run against the peripheral keeps. -/
theorem State.runPeripheral_keeps (P : State → Prop) (h : ∀ s p, P s → P (s.tick p)) (n : Nat) (q : Peripheral)
    (s : State) (hs : P s) : P (s.runPeripheral q n) := by
  induction n generalizing s q with
  | zero => exact hs
  | succ n ih =>
    rw [State.runPeripheral]
    split
    · exact hs
    · exact ih _ _ (h s _ hs)

/-- What every tick keeps, a frame keeps. -/
theorem State.runFrame_keeps (P : State → Prop) (h : ∀ s p, P s → P (s.tick p)) (f : Frame) (s : State) (hs : P s) :
    P (s.runFrame f) := by
  unfold State.runFrame
  split
  · exact State.run_keeps P h _ s hs
  · exact State.runPeripheral_keeps P h _ _ s hs

end Sys2Proof.Machine
end

