-- ==== Sys2Proof/Laws/FrameA.lean ====
section
/-! SUPPORT. A whole frame under Variant A and the timing T4 is a list of events: `Start` in its first phase, one
`ByteReady` in the phase after each eighth bit, `Done` in its last phase, and quiet ticks between them
(95_test_vectors.md section 0.1; 41_transport_a.md R131, R136). -/

namespace Sys2Proof.Machine

/-- `Start` with its request (41_transport_a.md R122, R128). -/
def Events.startA : Events := { start := true, byteReady := false, byte := 0#8, done := false, txReq := true }
/-- `ByteReady(b)` with its request (41_transport_a.md R125, R128). -/
def Events.readyA (b : Byte) : Events := { start := false, byteReady := true, byte := b, done := false, txReq := true }
/-- `Done` (41_transport_a.md R123). -/
def Events.doneOnly : Events := { start := false, byteReady := false, byte := 0#8, done := true, txReq := false }

/-- Both stages of every line show the levels `p`. -/
def level (p : Pins) : Sync :=
  { sclk1 := p.sclk, sclk2 := p.sclk, csn1 := p.csN, csn2 := p.csN, mosi1 := p.mosi, mosi2 := p.mosi }

/-- The latches agree with both stages of their lines. -/
abbrev settled (y : Sync) (a : PortA) : Prop :=
  y.sclk1 = a.sclkPrev ∧ y.sclk2 = a.sclkPrev ∧ y.csn1 = !a.selPrev ∧ y.csn2 = !a.selPrev

theorem State.tick_a (s : State) (p : Pins) (y : Sync) (a : PortA) (hp : s.port = .a y a) (hr : p.rst = false) :
    s.tick p = (s.bridgeTick (a.events y)).setPort (.a (y.next p) (a.next y (s.br.txByte s.bus.fill))) := by
  rw [State.tick_eq s p hr]
  simp [State.events, Port.events, Port.next, hp]

theorem settled_next (p : Pins) (a : PortA) (t : Byte) : settled (level p) (a.next (level p) t) := by
  simp [settled, level, PortA.next, Sync.sclkS, Sync.selS]

theorem settled_level (p : Pins) (a : PortA) (hc : a.sclkPrev = p.sclk) (hs : a.selPrev = !p.csN) :
    settled (level p) a := by
  simp [settled, level, hc, hs]

theorem level_next (p : Pins) : (level p).next p = level p := rfl

/-- Four ticks of unchanging pins from a settled state: two quiet ticks, the operation of the new levels, and a quiet
tick (40_synchronizer.md R116, 41_transport_a.md R130). -/
theorem State.run_phase (s : State) (p : Pins) (y : Sync) (a : PortA) (hp : s.port = .a y a) (hs : settled y a)
    (hr : p.rst = false) :
    ∃ t, s.run (List.replicate 4 p) =
      (s.bridgeRun [Events.quiet, Events.quiet, a.events (level p), Events.quiet]).setPort
        (.a (level p) (a.next (level p) t)) := by
  obtain ⟨h1, h2, h3, h4⟩ := hs
  have hy1 : a.sclkPrev = y.sclkS ∧ a.selPrev = y.selS := by simp [Sync.sclkS, Sync.selS, h2, h4]
  have e1 : s.tick p = (s.bridgeTick Events.quiet).setPort (.a (y.next p) a) := by
    rw [State.tick_a s p y a hp hr, PortA.next_settled a y _ hy1.1 hy1.2,
      State.bridgeTick_isQuiet s _ (a.events_settled y hy1.1 hy1.2)]
  have hy2 : a.sclkPrev = (y.next p).sclkS ∧ a.selPrev = (y.next p).selS := by
    simp [Sync.sclkS, Sync.selS, Sync.next, h1, h3]
  have hl : (y.next p).next p = level p := rfl
  have e2 : (s.tick p).tick p =
      ((s.bridgeTick Events.quiet).bridgeTick Events.quiet).setPort (.a (level p) a) := by
    rw [e1, State.tick_a _ p (y.next p) a rfl hr, PortA.next_settled a _ _ hy2.1 hy2.2,
      State.bridgeTick_isQuiet _ _ (a.events_settled _ hy2.1 hy2.2), hl]
    simp
  have e3 : ∀ u : State, (u.setPort (.a (level p) a)).tick p =
      (u.bridgeTick (a.events (level p))).setPort (.a (level p) (a.next (level p) (u.br.txByte u.bus.fill))) := by
    intro u
    rw [State.tick_a _ p (level p) a rfl hr, level_next]
    simp
  have e4 : ∀ (u : State) (t : Byte), (u.setPort (.a (level p) (a.next (level p) t))).tick p =
      (u.bridgeTick Events.quiet).setPort (.a (level p) (a.next (level p) t)) := by
    intro u t
    rw [State.tick_a _ p (level p) (a.next (level p) t) rfl hr, level_next,
      PortA.next_settled (a.next (level p) t) (level p) _ rfl rfl,
      State.bridgeTick_isQuiet _ _ (PortA.events_settled (a.next (level p) t) (level p) rfl rfl)]
    simp
  refine ⟨((s.bridgeTick Events.quiet).bridgeTick Events.quiet).br.txByte
    ((s.bridgeTick Events.quiet).bridgeTick Events.quiet).bus.fill, ?_⟩
  show (((s.tick p).tick p).tick p).tick p = _
  rw [e2, e3, e4]
  rfl

/-- What follows the first phase of a frame: for each bit a high phase and a low one, then the deselect. -/
def laterPins : List Bool → List Pins
  | [] => List.replicate 4 (spi true false false)
  | m :: ms => List.replicate 4 (spi false true m) ++ (List.replicate 4 (spi false false (ms.headD false)) ++ laterPins ms)

theorem bitPins_regroup (ms : List Bool) :
    ms.flatMap bitPins ++ endPins = List.replicate 4 (spi false false (ms.headD false)) ++ laterPins ms := by
  induction ms with
  | nil => rfl
  | cons m ms ih =>
    rw [List.flatMap_cons, List.append_assoc, ih]
    simp [bitPins, laterPins]

/-- The events after the first phase, from a bit count and a receive register. -/
def bitEvents (k : BitVec 3) (rx : Byte) : List Bool → List Events
  | [] => [Events.quiet, Events.quiet, Events.doneOnly, Events.quiet]
  | m :: ms =>
      [Events.quiet, Events.quiet, Events.quiet, Events.quiet, Events.quiet, Events.quiet,
        (if k = 7#3 then Events.readyA (shiftIn rx m) else Events.quiet), Events.quiet]
        ++ bitEvents (k + 1#3) (shiftIn rx m) ms

/-- One high phase: the sample, without an event (41_transport_a.md R124). -/
theorem State.run_high (s : State) (m : Bool) (y : Sync) (a : PortA) (hp : s.port = .a y a) (hs : settled y a)
    (hsel : a.selPrev = true) (hclk : a.sclkPrev = false) (hbd : a.byteDone = false) :
    s.run (List.replicate 4 (spi false true m)) =
      (s.bridgeRun [Events.quiet, Events.quiet, Events.quiet, Events.quiet]).setPort
        (.a (level (spi false true m))
          { a with sclkPrev := true, selPrev := true, rxShift := shiftIn a.rxShift m, bitCount := a.bitCount + 1#3,
                   byteDone := decide (a.bitCount = 7#3) }) := by
  obtain ⟨t, h⟩ := State.run_phase s (spi false true m) y a hp hs rfl
  have hq : (a.events (level (spi false true m))).isQuiet := by
    simp [PortA.events, PortA.start, PortA.done, PortA.active, PortA.fall, level, spi, Sync.selS, Sync.sclkS, hsel,
      hclk]
  have hn : a.next (level (spi false true m)) t =
      { a with sclkPrev := true, selPrev := true, rxShift := shiftIn a.rxShift m, bitCount := a.bitCount + 1#3,
               byteDone := decide (a.bitCount = 7#3) } := by
    rw [PortA.next_rise _ _ _ (by simp [PortA.active, level, spi, Sync.selS, hsel])
      (by simp [PortA.rise, level, spi, Sync.sclkS, hclk])]
    simp [PortA.onRise, level, spi, Sync.selS, Sync.sclkS, Sync.mosiS, hbd]
  rw [h, hn]
  simp only [State.bridgeRun, List.foldl_cons, List.foldl_nil]
  rw [State.bridgeTick_isQuiet _ _ hq]

/-- One low phase after a high one, in the middle of a byte: a shift, without an event (41_transport_a.md R126). -/
theorem State.run_low_shift (s : State) (m : Bool) (y : Sync) (a : PortA) (hp : s.port = .a y a) (hs : settled y a)
    (hsel : a.selPrev = true) (hclk : a.sclkPrev = true) (hbd : a.byteDone = false) :
    s.run (List.replicate 4 (spi false false m)) =
      (s.bridgeRun [Events.quiet, Events.quiet, Events.quiet, Events.quiet]).setPort
        (.a (level (spi false false m))
          { a with sclkPrev := false, selPrev := true, txShift := shiftIn a.txShift false }) := by
  obtain ⟨t, h⟩ := State.run_phase s (spi false false m) y a hp hs rfl
  have hq : (a.events (level (spi false false m))).isQuiet := by
    simp [PortA.events, PortA.start, PortA.done, level, spi, Sync.selS, hsel, hbd]
  have hn : a.next (level (spi false false m)) t =
      { a with sclkPrev := false, selPrev := true, txShift := shiftIn a.txShift false } := by
    rw [PortA.next_shift _ _ _ (by simp [PortA.active, level, spi, Sync.selS, hsel])
      (by simp [PortA.fall, level, spi, Sync.sclkS, hclk]) hbd]
    simp [PortA.onShift, level, spi, Sync.selS, Sync.sclkS]
  rw [h, hn]
  simp only [State.bridgeRun, List.foldl_cons, List.foldl_nil]
  rw [State.bridgeTick_isQuiet _ _ hq]

/-- One low phase after a byte's eighth high one: `ByteReady` with its request (41_transport_a.md R125). -/
theorem State.run_low_byte (s : State) (m : Bool) (y : Sync) (a : PortA) (hp : s.port = .a y a) (hs : settled y a)
    (hsel : a.selPrev = true) (hclk : a.sclkPrev = true) (hbd : a.byteDone = true) :
    ∃ t, s.run (List.replicate 4 (spi false false m)) =
      (s.bridgeRun [Events.quiet, Events.quiet, Events.readyA a.rxShift, Events.quiet]).setPort
        (.a (level (spi false false m))
          { a with sclkPrev := false, selPrev := true, byteDone := false, txShift := t }) := by
  obtain ⟨t, h⟩ := State.run_phase s (spi false false m) y a hp hs rfl
  have hq : a.events (level (spi false false m)) = Events.readyA a.rxShift := by
    simp [PortA.events, PortA.start, PortA.done, PortA.active, PortA.fall, level, spi, Sync.selS, Sync.sclkS, hsel,
      hclk, hbd, Events.readyA]
  refine ⟨t, ?_⟩
  have hn : a.next (level (spi false false m)) t =
      { a with sclkPrev := false, selPrev := true, byteDone := false, txShift := t } := by
    rw [PortA.next_byte _ _ _ (by simp [PortA.active, level, spi, Sync.selS, hsel])
      (by simp [PortA.fall, level, spi, Sync.sclkS, hclk]) hbd]
    simp [PortA.onByte, level, spi, Sync.selS, Sync.sclkS]
  rw [h, hn, hq]

/-- The last phase: `Done` (41_transport_a.md R123). -/
theorem State.run_deselect (s : State) (y : Sync) (a : PortA) (hp : s.port = .a y a) (hs : settled y a)
    (hsel : a.selPrev = true) :
    s.run (List.replicate 4 (spi true false false)) =
      (s.bridgeRun [Events.quiet, Events.quiet, Events.doneOnly, Events.quiet]).setPort
        (.a (level (spi true false false))
          { a with sclkPrev := false, selPrev := false, bitCount := 0#3, byteDone := false,
                   partialFlag := a.partialFlag || a.incomplete }) := by
  obtain ⟨t, h⟩ := State.run_phase s (spi true false false) y a hp hs rfl
  have hn : a.next (level (spi true false false)) t =
      { a with sclkPrev := false, selPrev := false, bitCount := 0#3, byteDone := false,
               partialFlag := a.partialFlag || a.incomplete } := by
    rw [PortA.next_done _ _ _ (by simp [PortA.done, level, spi, Sync.selS, hsel])]
    simp [PortA.onDone, level, spi, Sync.selS, Sync.sclkS]
  have hb : (a.events (level (spi true false false))).byteReady = false := by
    simp [PortA.events, PortA.active, level, spi, Sync.selS]
  have he : { a.events (level (spi true false false)) with byte := 0#8 } = Events.doneOnly := by
    simp [PortA.events, PortA.start, PortA.done, PortA.active, level, spi, Sync.selS, hsel, Events.doneOnly]
  rw [h, hn]
  simp only [State.bridgeRun, List.foldl_cons, List.foldl_nil]
  rw [State.bridgeTick_byte _ _ hb, he]

/-- The first phase: `Start` with its request (41_transport_a.md R122). -/
theorem State.run_select (s : State) (m : Bool) (y : Sync) (a : PortA) (hp : s.port = .a y a) (hs : settled y a)
    (hsel : a.selPrev = false) :
    ∃ t, s.run (List.replicate 4 (spi false false m)) =
      (s.bridgeRun [Events.quiet, Events.quiet, Events.startA, Events.quiet]).setPort
        (.a (level (spi false false m))
          { a with sclkPrev := false, selPrev := true, bitCount := 0#3, byteDone := false, rxShift := 0#8,
                   txShift := t }) := by
  obtain ⟨t, h⟩ := State.run_phase s (spi false false m) y a hp hs rfl
  refine ⟨t, ?_⟩
  have hn : a.next (level (spi false false m)) t =
      { a with sclkPrev := false, selPrev := true, bitCount := 0#3, byteDone := false, rxShift := 0#8,
               txShift := t } := by
    rw [PortA.next_start _ _ _ (by simp [PortA.start, level, spi, Sync.selS, hsel])]
    simp [PortA.onStart, level, spi, Sync.selS, Sync.sclkS]
  have hb : (a.events (level (spi false false m))).byteReady = false := by
    simp [PortA.events, PortA.active, hsel]
  have he : { a.events (level (spi false false m)) with byte := 0#8 } = Events.startA := by
    simp [PortA.events, PortA.start, PortA.done, PortA.active, level, spi, Sync.selS, hsel, Events.startA]
  rw [h, hn]
  simp only [State.bridgeRun, List.foldl_cons, List.foldl_nil]
  rw [State.bridgeTick_byte _ _ hb, he]

/-- All phases after the first one. -/
theorem State.run_later (ms : List Bool) (s : State) (y : Sync) (a : PortA) (hp : s.port = .a y a)
    (hs : settled y a) (hsel : a.selPrev = true) (hclk : a.sclkPrev = false) (hbd : a.byteDone = false) :
    ∃ y' a', s.run (laterPins ms) = (s.bridgeRun (bitEvents a.bitCount a.rxShift ms)).setPort (.a y' a') ∧
      idleA y' a' ∧ a'.bitCount = 0#3 ∧ a'.byteDone = false ∧ a'.rxShift = ms.foldl shiftIn a.rxShift ∧
      a'.partialFlag = (a.partialFlag || decide (a.bitCount + BitVec.ofNat 3 ms.length ≠ 0#3)) := by
  induction ms generalizing s y a with
  | nil =>
    refine ⟨_, _, State.run_deselect s y a hp hs hsel, by simp [level, spi], rfl, rfl, rfl, ?_⟩
    simp [PortA.incomplete, hbd]
  | cons m ms ih =>
    have h1 := State.run_high s m y a hp hs hsel hclk hbd
    have hk : a.bitCount + 1#3 + BitVec.ofNat 3 ms.length = a.bitCount + BitVec.ofNat 3 (m :: ms).length := by
      rw [List.length_cons, BitVec.ofNat_add, BitVec.add_assoc, BitVec.add_comm 1#3]
    let a1 : PortA := { a with sclkPrev := true, selPrev := true, rxShift := shiftIn a.rxShift m,
                               bitCount := a.bitCount + 1#3, byteDone := decide (a.bitCount = 7#3) }
    have hs1 : settled (level (spi false true m)) a1 := settled_level _ _ rfl rfl
    by_cases h7 : a.bitCount = 7#3
    · obtain ⟨t, h2⟩ := State.run_low_byte
        ((s.bridgeRun [Events.quiet, Events.quiet, Events.quiet, Events.quiet]).setPort
          (.a (level (spi false true m)) a1)) (ms.headD false) _ a1 rfl hs1 rfl rfl (by simp [a1, h7])
      obtain ⟨y', a', h3, h4, h5, h6, h8, h9⟩ := ih (State.setPort _ _) _
        { a1 with sclkPrev := false, selPrev := true, byteDone := false, txShift := t } rfl
        (settled_level (spi false false (ms.headD false)) _ rfl rfl) rfl rfl rfl
      refine ⟨y', a', ?_, h4, h5, h6, h8, ?_⟩
      · rw [laterPins, State.run_append, h1, State.run_append, h2, h3]
        simp [bitEvents, h7, a1]
      · rw [h9, ← hk]
    · have h2 := State.run_low_shift
        ((s.bridgeRun [Events.quiet, Events.quiet, Events.quiet, Events.quiet]).setPort
          (.a (level (spi false true m)) a1)) (ms.headD false) _ a1 rfl hs1 rfl rfl (by simp [a1, h7])
      obtain ⟨y', a', h3, h4, h5, h6, h8, h9⟩ := ih (State.setPort _ _) _
        { a1 with sclkPrev := false, selPrev := true, txShift := shiftIn a1.txShift false } rfl
        (settled_level (spi false false (ms.headD false)) _ rfl rfl) rfl rfl (by simp [a1, h7])
      refine ⟨y', a', ?_, h4, h5, h6, h8, ?_⟩
      · rw [laterPins, State.run_append, h1, State.run_append, h2, h3]
        simp [bitEvents, h7, a1]
      · rw [h9, ← hk]

/-- The events of one whole byte: 60 quiet ticks, then a phase with its `ByteReady`. -/
def byteEvents (b : Byte) : List Events :=
  List.replicate 60 Events.quiet ++ [Events.quiet, Events.quiet, Events.readyA b, Events.quiet]

/-- The events of a whole frame under Variant A and T4. -/
def frameEventsA (f : Frame) : List Events :=
  [Events.quiet, Events.quiet, Events.startA, Events.quiet] ++
    (f.bytes.flatMap byteEvents ++ (List.replicate (8 * f.tail.length) Events.quiet ++
      [Events.quiet, Events.quiet, Events.doneOnly, Events.quiet]))

theorem bitEvents_byte (b : Byte) (rx : Byte) (ms : List Bool) :
    bitEvents 0#3 rx (byteBits b ++ ms) = byteEvents b ++ bitEvents 0#3 b ms := by
  have h : shiftIn (shiftIn (shiftIn (shiftIn (shiftIn (shiftIn (shiftIn (shiftIn rx (b.getLsbD 7)) (b.getLsbD 6))
      (b.getLsbD 5)) (b.getLsbD 4)) (b.getLsbD 3)) (b.getLsbD 2)) (b.getLsbD 1)) (b.getLsbD 0) = b :=
    shiftIn_byteBits rx b
  show bitEvents 0#3 rx (b.getLsbD 7 :: b.getLsbD 6 :: b.getLsbD 5 :: b.getLsbD 4 :: b.getLsbD 3 :: b.getLsbD 2 ::
    b.getLsbD 1 :: b.getLsbD 0 :: ms) = _
  simp only [bitEvents, h]
  rfl

theorem bitEvents_tail (ms : List Bool) (k : BitVec 3) (rx : Byte) (h : k.toNat + ms.length < 8) :
    bitEvents k rx ms = List.replicate (8 * ms.length) Events.quiet ++
      [Events.quiet, Events.quiet, Events.doneOnly, Events.quiet] := by
  induction ms generalizing k rx with
  | nil => rfl
  | cons m ms ih =>
    simp only [List.length_cons] at h
    have hk : k ≠ 7#3 := by
      intro h'; subst h'; simp at h; omega
    have hk1 : (k + 1#3).toNat = k.toNat + 1 := by
      rw [BitVec.toNat_add]
      show (k.toNat + 1) % 8 = _
      omega
    rw [bitEvents, ih (k + 1#3) _ (by omega), if_neg hk, List.length_cons,
      show 8 * (ms.length + 1) = 8 + 8 * ms.length by omega, List.replicate_add]
    rfl

theorem bitEvents_frame (bytes : List Byte) (tail : List Bool) (rx : Byte) (h : tail.length < 8) :
    bitEvents 0#3 rx (bytes.flatMap byteBits ++ tail) =
      bytes.flatMap byteEvents ++ (List.replicate (8 * tail.length) Events.quiet ++
        [Events.quiet, Events.quiet, Events.doneOnly, Events.quiet]) := by
  induction bytes generalizing rx with
  | nil => exact bitEvents_tail tail 0#3 rx (by simpa using h)
  | cons b bytes ih =>
    rw [List.flatMap_cons, List.append_assoc, bitEvents_byte, ih, List.flatMap_cons, List.append_assoc]

/-- A whole frame under Variant A, from a state between frames: its events, and where the transport ends. -/
theorem State.runFrame_a (f : Frame) (s : State) (y : Sync) (a : PortA) (hp : s.port = .a y a) (hi : idleA y a)
    (hf : f.wf = true) :
    ∃ y' a', s.runFrame f = (s.bridgeRun (frameEventsA f)).setPort (.a y' a') ∧ idleA y' a' ∧ a'.bitCount = 0#3 ∧
      a'.byteDone = false ∧ a'.partialFlag = (a.partialFlag || decide (f.tail ≠ [])) := by
  have ht : f.tail.length < 8 := by simpa [Frame.wf] using hf
  obtain ⟨i1, i2, i3, i4, i5, i6⟩ := hi
  have hs : settled y a := ⟨i1.trans i5.symm, i2.trans i5.symm, by rw [i3, i6]; rfl, by rw [i4, i6]; rfl⟩
  obtain ⟨t, h0⟩ := State.run_select s ((frameBits f).headD false) y a hp hs i6
  obtain ⟨y', a', h1, h2, h3, h4, -, h5⟩ := State.run_later (frameBits f) (State.setPort _ _) _
    { a with sclkPrev := false, selPrev := true, bitCount := 0#3, byteDone := false, rxShift := 0#8, txShift := t }
    rfl (settled_level (spi false false ((frameBits f).headD false)) _ rfl rfl) rfl rfl rfl
  refine ⟨y', a', ?_, h2, h3, h4, ?_⟩
  · have hrun : s.runFrame f = s.run (framePins f) := by simp [State.runFrame, hp]
    rw [hrun, framePins, bitPins_regroup, State.run_append, h0, h1]
    simp only [State.setPort_bridgeRun, State.setPort_setPort, ← State.bridgeRun_append]
    rw [frameBits, bitEvents_frame f.bytes f.tail _ ht]
    rfl
  · rw [h5]
    have hl : BitVec.ofNat 3 (frameBits f).length = BitVec.ofNat 3 f.tail.length := by
      apply BitVec.eq_of_toNat_eq
      have : (f.bytes.flatMap byteBits).length = 8 * f.bytes.length := by
        induction f.bytes with
        | nil => rfl
        | cons b l ih => rw [List.flatMap_cons, List.length_append, ih, List.length_cons]; simp [byteBits]; omega
      simp only [frameBits, List.length_append, this, BitVec.toNat_ofNat]
      omega
    rw [hl]
    congr 1
    rw [decide_eq_decide]
    simp only [ne_eq, BitVec.zero_add]
    rw [not_iff_not]
    constructor
    · intro h
      have := congrArg BitVec.toNat h
      simp at this
      exact List.eq_nil_of_length_eq_zero (by omega)
    · intro h; simp [h]

end Sys2Proof.Machine
end

