-- ==== Sys2Proof/Laws/FrameB.lean ====
section
/-! SUPPORT. A whole frame under Variant B and the standard peripheral is a list of events too: a request and `Start`,
for each byte its `ByteReady` and then a request, and `Done` (42_transport_b.md R155 to R162, R165). -/

namespace Sys2Proof.Machine

/-- A request alone (42_transport_b.md R162, 60_exceptions.md R244). -/
def Events.requestOnly : Events := { start := false, byteReady := false, byte := 0#8, done := false, txReq := true }
/-- `Start` alone (42_transport_b.md R159). -/
def Events.startOnly : Events := { start := true, byteReady := false, byte := 0#8, done := false, txReq := false }
/-- `ByteReady(b)` alone (42_transport_b.md R161). -/
def Events.readyOnly (b : Byte) : Events :=
  { start := false, byteReady := true, byte := b, done := false, txReq := false }

/-- One tick of a run against the peripheral. -/
theorem State.runPeripheral_step (s : State) (b : PortB) (q : Peripheral) (n : Nat) (hp : s.port = .b b) :
    s.runPeripheral q (n + 1) =
      ((s.bridgeTick (b.events s.cfg (q.drive b.state).sbAck (q.drive b.state).sbDatR)).setPort
        (.b (b.next s.cfg (q.drive b.state).sbAck (q.drive b.state).sbDatR (s.br.txByte s.bus.fill)))).runPeripheral
          (q.after b.state) n := by
  have hr : (q.drive b.state).rst = false := by
    unfold Peripheral.drive
    split <;> rfl
  rw [State.runPeripheral, hp]
  simp only
  rw [State.tick_eq s _ hr]
  simp [State.events, Port.events, Port.next, hp]

/-- The adapter at the beginning of a polling round: `IDLE`, no busy edge, no byte. -/
def atIdle (busy : Bool) (rx tx : Byte) : PortB :=
  { state := .idle, busy := busy, busyPrev := busy, rxStrobe := false, rxByte := rx, txData := tx }

/-- The adapter in `POLL`, no busy edge, no byte. -/
def atPoll (busy : Bool) (rx tx : Byte) : PortB :=
  { state := .poll, busy := busy, busyPrev := busy, rxStrobe := false, rxByte := rx, txData := tx }

/-- The IDLE tick of a round (42_transport_b.md R154). -/
theorem State.periph_idle (s : State) (busy : Bool) (rx tx : Byte) (q : Peripheral) (n : Nat)
    (hp : s.port = .b (atIdle busy rx tx)) :
    s.runPeripheral q (n + 1) =
      ((s.bridgeTick Events.quiet).setPort (.b (atPoll busy rx tx))).runPeripheral q n := by
  rw [State.runPeripheral_step s _ q n hp, State.bridgeTick_isQuiet]
  · rfl
  · cases busy <;> simp [PortB.events, atIdle, PortB.busyRise, PortB.busyFall]

/-- A round's POLL that shows a free transmit slot, and the write that follows: a request, then `Start` if busy is new
(42_transport_b.md R155, R157, R159). -/
theorem State.periph_poll_tx (s : State) (busy : Bool) (rx tx : Byte) (d rd : Byte) (l : List (Byte × Byte)) (n : Nat)
    (hw : s.cfg.wf = true) (hp : s.port = .b (atPoll busy rx tx)) :
    ∃ tx', s.runPeripheral { polls := (statusByte s.cfg true true false, d) :: l, rxData := rd } (n + 2) =
      ((s.bridgeRun [Events.requestOnly, if busy then Events.quiet else Events.startOnly]).setPort
        (.b (atIdle true rx tx'))).runPeripheral { polls := l, rxData := d } n := by
  obtain ⟨h1, h2, h3⟩ := statusByte_bits s.cfg hw true true false
  refine ⟨s.br.txByte s.bus.fill, ?_⟩
  have e1 : { (atPoll busy rx tx).events s.cfg true (statusByte s.cfg true true false) with byte := 0#8 } =
      Events.requestOnly := by
    cases busy <;> simp [PortB.events, atPoll, PortB.busyRise, PortB.busyFall, h2, h3, Events.requestOnly]
  have n1 : (atPoll busy rx tx).next s.cfg true (statusByte s.cfg true true false) (s.br.txByte s.bus.fill) =
      { state := .txwrite, busy := true, busyPrev := busy, rxStrobe := false, rxByte := rx,
        txData := s.br.txByte s.bus.fill } := by
    simp [PortB.next, PortB.operate, PortB.inPoll, atPoll, h1, h2, h3]
  rw [State.runPeripheral_step s _ _ (n + 1) hp]
  show ((s.bridgeTick ((atPoll busy rx tx).events s.cfg true (statusByte s.cfg true true false))).setPort
    (.b ((atPoll busy rx tx).next s.cfg true (statusByte s.cfg true true false) (s.br.txByte s.bus.fill)))).runPeripheral
      { polls := l, rxData := d } (n + 1) = _
  rw [State.bridgeTick_byte s ((atPoll busy rx tx).events s.cfg true (statusByte s.cfg true true false)) rfl, e1, n1,
    State.runPeripheral_step _ _ _ n rfl]
  simp only [State.setPort_bridgeTick, State.setPort_setPort, State.setPort_cfg, State.bridgeTick_cfg]
  rw [State.bridgeTick_byte _ (PortB.events _ _ _ _) rfl]
  cases busy <;> rfl

/-- A round's POLL that shows a received byte, the read that follows, and the next round's IDLE tick: the byte's
`ByteReady` (42_transport_b.md R155, R156, R161). -/
theorem State.periph_poll_rx (s : State) (rx tx : Byte) (d rd : Byte) (l : List (Byte × Byte)) (n : Nat)
    (hw : s.cfg.wf = true) (hp : s.port = .b (atPoll true rx tx)) :
    s.runPeripheral { polls := (statusByte s.cfg true false true, d) :: l, rxData := rd } (n + 3) =
      ((s.bridgeRun [Events.quiet, Events.quiet, Events.readyOnly d]).setPort
        (.b (atPoll true d tx))).runPeripheral { polls := l, rxData := d } n := by
  obtain ⟨h1, h2, h3⟩ := statusByte_bits s.cfg hw true false true
  have e1 : ((atPoll true rx tx).events s.cfg true (statusByte s.cfg true false true)).isQuiet := by
    simp [PortB.events, atPoll, PortB.busyRise, PortB.busyFall, h3]
  have n1 : (atPoll true rx tx).next s.cfg true (statusByte s.cfg true false true) (s.br.txByte s.bus.fill) =
      { state := .rxread, busy := true, busyPrev := true, rxStrobe := false, rxByte := rx, txData := tx } := by
    simp [PortB.next, PortB.operate, PortB.inPoll, atPoll, h1, h3]
  rw [State.runPeripheral_step s _ _ (n + 2) hp]
  show ((s.bridgeTick ((atPoll true rx tx).events s.cfg true (statusByte s.cfg true false true))).setPort
    (.b ((atPoll true rx tx).next s.cfg true (statusByte s.cfg true false true) (s.br.txByte s.bus.fill)))).runPeripheral
      { polls := l, rxData := d } (n + 2) = _
  rw [State.bridgeTick_isQuiet s _ e1, n1, State.runPeripheral_step _ _ _ (n + 1) rfl]
  simp only [State.setPort_bridgeTick, State.setPort_setPort, State.setPort_cfg, State.bridgeTick_cfg]
  rw [State.bridgeTick_byte _ (PortB.events _ _ _ _) rfl, State.runPeripheral_step _ _ _ n rfl]
  simp only [State.setPort_bridgeTick, State.setPort_setPort, State.setPort_cfg, State.bridgeTick_cfg]
  rfl

/-- A round's POLL that shows nothing, and the next round's IDLE tick: `Done` if busy is gone
(42_transport_b.md R155, R160). -/
theorem State.periph_poll_end (s : State) (rx tx : Byte) (d rd : Byte) (l : List (Byte × Byte)) (n : Nat)
    (hw : s.cfg.wf = true) (hp : s.port = .b (atPoll true rx tx)) :
    s.runPeripheral { polls := (statusByte s.cfg false false false, d) :: l, rxData := rd } (n + 2) =
      ((s.bridgeRun [Events.quiet, Events.doneOnly]).setPort
        (.b (atPoll false rx tx))).runPeripheral { polls := l, rxData := d } n := by
  obtain ⟨h1, h2, h3⟩ := statusByte_bits s.cfg hw false false false
  have e1 : ((atPoll true rx tx).events s.cfg true (statusByte s.cfg false false false)).isQuiet := by
    simp [PortB.events, atPoll, PortB.busyRise, PortB.busyFall, h2]
  have n1 : (atPoll true rx tx).next s.cfg true (statusByte s.cfg false false false) (s.br.txByte s.bus.fill) =
      { state := .idle, busy := false, busyPrev := true, rxStrobe := false, rxByte := rx, txData := tx } := by
    simp [PortB.next, PortB.operate, PortB.inPoll, atPoll, h1, h2, h3]
  rw [State.runPeripheral_step s _ _ (n + 1) hp]
  show ((s.bridgeTick ((atPoll true rx tx).events s.cfg true (statusByte s.cfg false false false))).setPort
    (.b ((atPoll true rx tx).next s.cfg true (statusByte s.cfg false false false)
      (s.br.txByte s.bus.fill)))).runPeripheral { polls := l, rxData := d } (n + 1) = _
  rw [State.bridgeTick_isQuiet s _ e1, n1, State.runPeripheral_step _ _ _ n rfl]
  simp only [State.setPort_bridgeTick, State.setPort_setPort, State.setPort_cfg, State.bridgeTick_cfg]
  rw [State.bridgeTick_byte _ (PortB.events _ _ _ _) rfl]
  rfl

/-- After the last answer the adapter polls on, in quiet ticks. -/
theorem State.periph_rest (n : Nat) (s : State) (rx tx rd : Byte)
    (hp : s.port = .b (atPoll false rx tx) ∨ s.port = .b (atIdle false rx tx)) :
    ∃ b', s.runPeripheral { polls := [], rxData := rd } n =
        (s.bridgeRun (List.replicate n Events.quiet)).setPort (.b b') ∧
      idleB b' ∧ (b'.state = .idle ∨ b'.state = .poll) := by
  induction n generalizing s with
  | zero =>
    rcases hp with hp | hp
    · exact ⟨atPoll false rx tx, (State.setPort_self s _ hp).symm, by simp [atPoll], .inr rfl⟩
    · exact ⟨atIdle false rx tx, (State.setPort_self s _ hp).symm, by simp [atIdle], .inl rfl⟩
  | succ n ih =>
    rcases hp with hp | hp
    · have hz : ∀ p : Params, busyBit p 0#8 = false ∧ trdyBit p 0#8 = false ∧ rrdyBit p 0#8 = false := by
        intro p; simp [busyBit, trdyBit, rrdyBit]
      obtain ⟨h1, h2, h3⟩ := hz s.cfg
      have e1 : ((atPoll false rx tx).events s.cfg true 0#8).isQuiet := by
        simp [PortB.events, atPoll, PortB.busyRise, PortB.busyFall, h2]
      have n1 : (atPoll false rx tx).next s.cfg true 0#8 (s.br.txByte s.bus.fill) = atIdle false rx tx := by
        simp [PortB.next, PortB.operate, PortB.inPoll, atPoll, atIdle, h1, h2, h3]
      have hstep : s.runPeripheral { polls := [], rxData := rd } (n + 1) =
          ((s.bridgeTick Events.quiet).setPort (.b (atIdle false rx tx))).runPeripheral
            { polls := [], rxData := rd } n := by
        rw [State.runPeripheral_step s _ _ n hp]
        show ((s.bridgeTick ((atPoll false rx tx).events s.cfg true 0#8)).setPort
          (.b ((atPoll false rx tx).next s.cfg true 0#8 (s.br.txByte s.bus.fill)))).runPeripheral
            { polls := [], rxData := rd } n = _
        rw [State.bridgeTick_isQuiet s _ e1, n1]
      obtain ⟨b', h4, h5⟩ := ih ((s.bridgeTick Events.quiet).setPort (.b (atIdle false rx tx))) (.inr rfl)
      exact ⟨b', by rw [hstep, h4]; simp [List.replicate_succ], h5⟩
    · obtain ⟨b', h4, h5⟩ := ih ((s.bridgeTick Events.quiet).setPort (.b (atPoll false rx tx))) (.inl rfl)
      exact ⟨b', by rw [State.periph_idle s false rx tx _ n hp, h4]; simp [List.replicate_succ], h5⟩

/-- The events of one whole byte under the standard peripheral, from its POLL. -/
def byteEventsB (b : Byte) : List Events :=
  [Events.quiet, Events.quiet, Events.readyOnly b, Events.requestOnly, Events.quiet, Events.quiet]

/-- The rounds of all bytes. -/
theorem State.periph_bytes (bytes : List Byte) (s : State) (rx tx rd : Byte) (l : List (Byte × Byte)) (n : Nat)
    (hw : s.cfg.wf = true) (hp : s.port = .b (atPoll true rx tx)) :
    ∃ rx' tx' rd', s.runPeripheral { polls := bytes.flatMap (bytePolls s.cfg) ++ l, rxData := rd }
        (n + 6 * bytes.length) =
      ((s.bridgeRun (bytes.flatMap byteEventsB)).setPort (.b (atPoll true rx' tx'))).runPeripheral
        { polls := l, rxData := rd' } n := by
  induction bytes generalizing s rx tx rd with
  | nil => exact ⟨rx, tx, rd, by simp [State.setPort_self s _ hp]⟩
  | cons b bytes ih =>
    have h1 := State.periph_poll_rx s rx tx b rd
      ((statusByte s.cfg true true false, b) :: (bytes.flatMap (bytePolls s.cfg) ++ l)) (n + 6 * bytes.length + 3)
      hw hp
    obtain ⟨tx', h2⟩ := State.periph_poll_tx
      ((s.bridgeRun [Events.quiet, Events.quiet, Events.readyOnly b]).setPort (.b (atPoll true b tx)))
      true b tx b b (bytes.flatMap (bytePolls s.cfg) ++ l) (n + 6 * bytes.length + 1) (by simpa using hw) rfl
    have h3 := State.periph_idle
      ((((s.bridgeRun [Events.quiet, Events.quiet, Events.readyOnly b]).setPort
        (.b (atPoll true b tx))).bridgeRun [Events.requestOnly, Events.quiet]).setPort (.b (atIdle true b tx')))
      true b tx' { polls := bytes.flatMap (bytePolls s.cfg) ++ l, rxData := b } (n + 6 * bytes.length) rfl
    obtain ⟨rx'', tx'', rd'', h4⟩ := ih
      (((((s.bridgeRun [Events.quiet, Events.quiet, Events.readyOnly b]).setPort
        (.b (atPoll true b tx))).bridgeRun [Events.requestOnly, Events.quiet]).setPort
          (.b (atIdle true b tx'))).bridgeTick Events.quiet |>.setPort (.b (atPoll true b tx')))
      b tx' b (by simpa using hw) rfl
    refine ⟨rx'', tx'', rd'', ?_⟩
    have hc : n + 6 * (b :: bytes).length = n + 6 * bytes.length + 3 + 3 := by simp; omega
    have hl : List.flatMap (bytePolls s.cfg) (b :: bytes) ++ l =
        (statusByte s.cfg true false true, b) :: (statusByte s.cfg true true false, b) ::
          (bytes.flatMap (bytePolls s.cfg) ++ l) := by simp [bytePolls]
    rw [hc, hl, h1]
    simp only [State.setPort_cfg, State.bridgeRun_cfg, State.bridgeTick_cfg] at h2 h4
    rw [h2]
    simp only [if_true]
    rw [h3, h4]
    simp [byteEventsB]

/-- The events of a whole frame under Variant B and the standard peripheral, after `pre` quiet ticks that bring the
adapter to POLL and before `post` quiet ticks of polling. -/
def frameEventsB (f : Frame) (pre post : Nat) : List Events :=
  List.replicate pre Events.quiet ++ ([Events.requestOnly, Events.startOnly, Events.quiet] ++
    (f.bytes.flatMap byteEventsB ++ ([Events.quiet, Events.doneOnly] ++ List.replicate post Events.quiet)))

/-- The frame from POLL on. -/
theorem State.periph_frame (f : Frame) (s : State) (rx tx rd : Byte) (k : Nat) (hw : s.cfg.wf = true)
    (hp : s.port = .b (atPoll false rx tx)) :
    ∃ b', s.runPeripheral { polls := framePolls s.cfg f, rxData := rd } (k + 2 + 6 * f.bytes.length + 1 + 2) =
        (s.bridgeRun (frameEventsB f 0 k)).setPort (.b b') ∧
      idleB b' ∧ (b'.state = .idle ∨ b'.state = .poll) := by
  obtain ⟨tx1, h1⟩ := State.periph_poll_tx s false rx tx 0#8 rd
    (f.bytes.flatMap (bytePolls s.cfg) ++ [(statusByte s.cfg false false false, 0#8)])
    (k + 2 + 6 * f.bytes.length + 1) hw hp
  have h2 := State.periph_idle ((s.bridgeRun [Events.requestOnly, Events.startOnly]).setPort (.b (atIdle true rx tx1)))
    true rx tx1 { polls := f.bytes.flatMap (bytePolls s.cfg) ++ [(statusByte s.cfg false false false, 0#8)],
                  rxData := 0#8 } (k + 2 + 6 * f.bytes.length) rfl
  obtain ⟨rx2, tx2, rd2, h3⟩ := State.periph_bytes f.bytes
    ((((s.bridgeRun [Events.requestOnly, Events.startOnly]).setPort (.b (atIdle true rx tx1))).bridgeTick
      Events.quiet).setPort (.b (atPoll true rx tx1))) rx tx1 0#8 [(statusByte s.cfg false false false, 0#8)] (k + 2)
    (by simpa using hw) rfl
  simp only [State.setPort_cfg, State.bridgeRun_cfg, State.bridgeTick_cfg] at h3
  have h4 := State.periph_poll_end
    ((((((s.bridgeRun [Events.requestOnly, Events.startOnly]).setPort (.b (atIdle true rx tx1))).bridgeTick
      Events.quiet).setPort (.b (atPoll true rx tx1))).bridgeRun (f.bytes.flatMap byteEventsB)).setPort
        (.b (atPoll true rx2 tx2))) rx2 tx2 0#8 rd2 [] k (by simpa using hw) rfl
  simp only [State.setPort_cfg, State.bridgeRun_cfg, State.bridgeTick_cfg] at h4
  obtain ⟨b', h5, h6⟩ := State.periph_rest k
    ((((((((s.bridgeRun [Events.requestOnly, Events.startOnly]).setPort (.b (atIdle true rx tx1))).bridgeTick
      Events.quiet).setPort (.b (atPoll true rx tx1))).bridgeRun (f.bytes.flatMap byteEventsB)).setPort
        (.b (atPoll true rx2 tx2))).bridgeRun [Events.quiet, Events.doneOnly]).setPort (.b (atPoll false rx2 tx2)))
    rx2 tx2 0#8 (.inl rfl)
  refine ⟨b', ?_, h6⟩
  have hl : framePolls s.cfg f = (statusByte s.cfg true true false, 0#8) ::
      (f.bytes.flatMap (bytePolls s.cfg) ++ [(statusByte s.cfg false false false, 0#8)]) := rfl
  rw [hl, h1]
  simp only [Bool.false_eq_true, if_false]
  rw [h2, h3, h4, h5]
  simp [frameEventsB, State.bridgeRun_append]

/-- A whole frame under Variant B and the standard peripheral, from a state between frames. -/
theorem State.runFrame_b (f : Frame) (s : State) (b : PortB) (hp : s.port = .b b) (hw : s.cfg.wf = true)
    (hi : idleB b) :
    ∃ pre post b', s.runFrame f = (s.bridgeRun (frameEventsB f pre post)).setPort (.b b') ∧ idleB b' := by
  obtain ⟨st, bu, bp, rs, rx, tx⟩ := b
  obtain ⟨h1, h2, h3, h4⟩ := hi
  simp only at h1 h2 h3 h4
  subst h1 h2 h3
  have hlen : (framePolls s.cfg f).length = 2 + 2 * f.bytes.length := by
    have : (f.bytes.flatMap (bytePolls s.cfg)).length = 2 * f.bytes.length := by
      induction f.bytes with
      | nil => rfl
      | cons b l ih => rw [List.flatMap_cons, List.length_append, ih, List.length_cons]; simp [bytePolls]; omega
    simp [framePolls, this]; omega
  obtain ⟨rd, hrun⟩ : ∃ rd, s.runFrame f =
      s.runPeripheral { polls := framePolls s.cfg f, rxData := rd } (6 * f.bytes.length + 8) := by
    refine ⟨(Config.pinsDraw s.now).sbDatR, ?_⟩
    simp only [State.runFrame, hp, peripheralTicks, hlen]
    congr 1
    omega
  have idle_case : ∀ (u : State) (m : Nat), u.cfg = s.cfg → u.port = .b (atIdle false rx tx) →
      ∃ b', u.runPeripheral { polls := framePolls s.cfg f, rxData := rd } (m + 2 + 6 * f.bytes.length + 1 + 2 + 1) =
        (u.bridgeRun (frameEventsB f 1 m)).setPort (.b b') ∧ idleB b' := by
    intro u m hc hu
    obtain ⟨b', h5, h6, -⟩ := State.periph_frame f ((u.bridgeTick Events.quiet).setPort (.b (atPoll false rx tx))) rx tx
      rd m (by simpa [hc] using hw) rfl
    refine ⟨b', ?_, h6⟩
    rw [State.periph_idle u false rx tx _ _ hu]
    simp only [State.setPort_cfg, State.bridgeTick_cfg, hc] at h5
    rw [h5]
    simp [frameEventsB, List.replicate_succ]
  cases st with
  | idle =>
    obtain ⟨b', h5, h6⟩ := idle_case s 2 rfl hp
    exact ⟨1, 2, b', by rw [hrun, ← h5]; congr 1; omega, h6⟩
  | poll =>
    obtain ⟨b', h5, h6, -⟩ := State.periph_frame f s rx tx rd 3 hw hp
    exact ⟨0, 3, b', by rw [hrun, ← h5]; congr 1; omega, h6⟩
  | rxread => exact absurd rfl h4
  | reset =>
    have e : s.runPeripheral { polls := framePolls s.cfg f, rxData := rd } (6 * f.bytes.length + 7 + 1) =
        ((s.bridgeTick Events.quiet).setPort (.b (atIdle false rx tx))).runPeripheral
          { polls := framePolls s.cfg f, rxData := rd } (6 * f.bytes.length + 7) := by
      rw [State.runPeripheral_step s _ _ _ hp, State.bridgeTick_isQuiet]
      · rfl
      · simp [PortB.events, PortB.busyRise, PortB.busyFall]
    obtain ⟨b', h5, h6⟩ := idle_case ((s.bridgeTick Events.quiet).setPort (.b (atIdle false rx tx))) 1 rfl rfl
    refine ⟨2, 1, b', ?_, h6⟩
    rw [hrun, e, show 6 * f.bytes.length + 7 = 1 + 2 + 6 * f.bytes.length + 1 + 2 + 1 by omega, h5]
    simp [frameEventsB, List.replicate_succ]
  | txwrite =>
    have e : s.runPeripheral { polls := framePolls s.cfg f, rxData := rd } (6 * f.bytes.length + 7 + 1) =
        ((s.bridgeTick Events.quiet).setPort (.b (atIdle false rx tx))).runPeripheral
          { polls := framePolls s.cfg f, rxData := rd } (6 * f.bytes.length + 7) := by
      rw [State.runPeripheral_step s _ _ _ hp, State.bridgeTick_isQuiet]
      · rfl
      · simp [PortB.events, PortB.busyRise, PortB.busyFall]
    obtain ⟨b', h5, h6⟩ := idle_case ((s.bridgeTick Events.quiet).setPort (.b (atIdle false rx tx))) 1 rfl rfl
    refine ⟨2, 1, b', ?_, h6⟩
    rw [hrun, e, show 6 * f.bytes.length + 7 = 1 + 2 + 6 * f.bytes.length + 1 + 2 + 1 by omega, h5]
    simp [frameEventsB, List.replicate_succ]

end Sys2Proof.Machine
end

