-- ==== Sys2Proof/Laws/PerInstr.lean ====
section
/-! SUPPORT. Families of facts about commands as syntax, one lemma per constructor (named in LAWS.json). -/

namespace Sys2Proof.Laws.FrameLength

/-- The frame of a well-formed command is a well-formed frame, and has at least the bytes its opcode needs before it
dispatches (30_encoding.md R87). -/
def Statement (i : Instr) : Prop :=
  i.wf = true → (encode i).wf = true ∧ ∃ lead op rest, (encode i).bytes = lead :: op :: rest ∧
    ∀ n, dispatchLength op = some n → n ≤ (encode i).bytes.length

theorem read (lead : Byte) (addr : AddrField) (pad : List Byte) (tail : List Bool) :
    Statement (.read lead addr pad tail) := by
  intro h
  refine ⟨h, _, _, _, rfl, ?_⟩
  intro n hn
  have hn : 4 = n := by simpa [dispatchLength, opcodeClass] using hn
  simp [encode, readFrame, addrBytes, ← hn]

theorem write (lead : Byte) (addr : AddrField) (data : Word) (pad : List Byte) (tail : List Bool) :
    Statement (.write lead addr data pad tail) := by
  intro h
  refine ⟨h, _, _, _, rfl, ?_⟩
  intro n hn
  have hn : 8 = n := by simpa [dispatchLength, opcodeClass, Config.opcWrite, Config.opcRead] using hn
  simp [encode, writeFrame, addrBytes, wordBytes, ← hn]

theorem unknown (lead opcode : Byte) (rest : List Byte) (tail : List Bool) :
    Statement (.unknown lead opcode rest tail) := by
  intro h
  simp only [Instr.wf, Bool.and_eq_true, decide_eq_true_eq] at h
  refine ⟨decide_eq_true h.1.1, _, _, _, rfl, ?_⟩
  intro n hn
  simp [dispatchLength, opcodeClass, h.1.2, h.2] at hn

end Sys2Proof.Laws.FrameLength
end

