-- ==== Sys2Proof/Tests/Slice0.lean ====
section
/-! SUPPORT. Tests of this model: ill-formed terms that the checks refuse; frames written out from 30_encoding.md R84 that
decode to their commands; vectors of 95_test_vectors.md (named in each comment), one step each; and for every statement of
Certificates/Slice0/Obligations.lean that has hypotheses a concrete case that meets them. -/

namespace Sys2Proof.Tests

open Sys2Proof Sys2Proof.Machine

/-! ## Ill-formed terms are refused -/

theorem smoke_frame_tail : Frame.wf ⟨[0x00#8], [true, true, true, true, true, true, true, true]⟩ = false := by decide
theorem smoke_read_tail :
    Instr.wf (.read 0x00#8 0x0010#16 [] [true, true, true, true, true, true, true, true]) = false := by decide
theorem smoke_write_tail :
    Instr.wf (.write 0x00#8 0x0010#16 0#32 [] [true, true, true, true, true, true, true, true]) = false := by decide
theorem smoke_unknown_tail :
    Instr.wf (.unknown 0x00#8 0x01#8 [] [true, true, true, true, true, true, true, true]) = false := by decide
theorem smoke_unknown_read : Instr.wf (.unknown 0x00#8 0x03#8 [] []) = false := by decide
theorem smoke_unknown_write : Instr.wf (.unknown 0x00#8 0x02#8 [] []) = false := by decide
theorem smoke_well_formed : Instr.wf (.unknown 0x00#8 0x01#8 [] [true, false]) = true := by decide
theorem smoke_addr_width : Params.wf { Config.params with busAddrW := 15 } = false := by decide
theorem smoke_high_addr : Params.wf { Config.params with highAddr := 1 } = false := by decide
theorem smoke_sb_width : Params.wf { Config.params with sbAddrW := 1 } = false := by decide
theorem smoke_sb_same_register : Params.wf { Config.params with sbRegSr := 0 } = false := by decide
theorem smoke_sb_register_range : Params.wf { Config.params with sbRegRxdr := 4 } = false := by decide
theorem smoke_sb_same_bit : Params.wf { Config.params with sbSrTrdy := 6 } = false := by decide
theorem smoke_params : Config.params.wf = true := by decide
theorem smoke_memory_order : Memory.wf [(5, 1#32), (5, 2#32)] = false := by decide
theorem smoke_memory_unlisted : Memory.wf [(5, 0#32)] = false := by decide
theorem smoke_memory_canonical : (Memory.write [(5, 1#32)] 5 0#32) = [] := by decide
theorem smoke_decode_tail :
    decode ⟨[0x00#8, 0x03#8, 0x00#8, 0x10#8], [true, true, true, true, true, true, true, true]⟩ =
      .error .tailNotPartial := by decide

/-! ## Decoding: the bytes of 30_encoding.md R84, R89 and of 95_test_vectors.md W1, W2, CMD-U1, CMD-L2 -/

theorem decode_read_w1 :
    decode ⟨[0x00#8, 0x03#8, 0x00#8, 0x10#8], []⟩ = .ok (.read 0x00#8 0x0010#16 [] []) := by decide
theorem decode_read_pads :
    decode ⟨[0xA5#8, 0x03#8, 0x12#8, 0x34#8, 0x56#8], [true, false]⟩ =
      .ok (.read 0xA5#8 0x1234#16 [0x56#8] [true, false]) := by decide
theorem decode_write_w2 :
    decode ⟨[0x00#8, 0x02#8, 0x00#8, 0x20#8, 0x11#8, 0x22#8, 0x33#8, 0x44#8], []⟩ =
      .ok (.write 0x00#8 0x0020#16 0x11223344#32 [] []) := by decide
theorem decode_unknown_83 :
    decode ⟨[0x00#8, 0x83#8, 0x00#8, 0x10#8], []⟩ = .ok (.unknown 0x00#8 0x83#8 [0x00#8, 0x10#8] []) := by decide
theorem decode_unknown_l2 :
    decode ⟨[0x03#8, 0x00#8, 0x10#8], []⟩ = .ok (.unknown 0x03#8 0x00#8 [0x10#8] []) := by decide
theorem decode_short_read : decode ⟨[0x00#8, 0x03#8, 0x00#8], []⟩ = .error .readTooShort := by decide
theorem decode_short_write :
    decode ⟨[0x00#8, 0x02#8, 0x00#8, 0x20#8, 0x11#8, 0x22#8, 0x33#8], []⟩ = .error .writeTooShort := by decide
theorem decode_one_byte : decode ⟨[0x03#8], []⟩ = .error .noOpcode := by decide
theorem encode_read : encode (.read 0x00#8 0xABCD#16 [0x7F#8] []) =
    ⟨[0x00#8, 0x03#8, 0xAB#8, 0xCD#8, 0x7F#8], []⟩ := by decide
theorem encode_write : encode (.write 0x00#8 0x0030#16 0xDEADBEEF#32 [] []) =
    ⟨[0x00#8, 0x02#8, 0x00#8, 0x30#8, 0xDE#8, 0xAD#8, 0xBE#8, 0xEF#8], []⟩ := by decide
theorem form_read : formRead 0x0010#16 5 =
    ⟨[0x00#8, 0x03#8, 0x00#8, 0x10#8, 0x00#8, 0x00#8, 0x00#8, 0x00#8, 0x00#8], []⟩ := by decide
theorem form_nop : formNop 0x01#8 1 = ⟨[0x00#8, 0x01#8, 0x00#8, 0x00#8, 0x00#8], []⟩ := by decide
/-- Bits 7:0 of a word of the opcode table are byte 1, bits 15:8 byte 2, bits 23:16 byte 3 (log entry 11). -/
theorem table_read : decodeTableWord 24 0x201003 =
    some (.read 0x00#8 0x1020#16 [0x00#8, 0x00#8, 0x00#8, 0x00#8, 0x00#8] []) := by decide
theorem table_write : decodeTableWord 8 0x02 = some (.write 0x00#8 0x0000#16 0#32 [0x00#8] []) := by decide
theorem table_unknown : decodeTableWord 8 0x00 =
    some (.unknown 0x00#8 0x00#8 [0x00#8, 0x00#8, 0x00#8, 0x00#8, 0x00#8, 0x00#8, 0x00#8] []) := by decide
theorem reset_runs_read :
    step (State.reset.withFetchWord 8 0x03) =
      exec (.read 0x00#8 0x0000#16 [0x00#8, 0x00#8, 0x00#8, 0x00#8, 0x00#8] []) State.reset := rfl
theorem reset_runs_write :
    step (State.reset.withFetchWord 8 0x02) = exec (.write 0x00#8 0x0000#16 0#32 [0x00#8] []) State.reset := rfl
theorem reset_runs_unknown :
    step (State.reset.withFetchWord 8 0x00) =
      exec (.unknown 0x00#8 0x00#8 [0x00#8, 0x00#8, 0x00#8, 0x00#8, 0x00#8, 0x00#8, 0x00#8] []) State.reset := rfl

/-! ## Small states -/

/-- The Bridge after reset, in a state of the state machine. -/
def brIn (st : BridgeState) : Bridge := { Bridge.resetValue Config.params with state := st }

/-- A block with Variant A. -/
def stA (y : Sync) (a : PortA) (br : Bridge) (slave : Slave) : State :=
  { State.reset with port := .a y a, br := br, slave := slave }

/-- A block with Variant B. -/
def stB (b : PortB) (br : Bridge) (slave : Slave) : State := { State.reset with port := .b b, br := br, slave := slave }

/-- Variant A between frames, with the memory slave. -/
def msA (m : Memory) : State := stA Sync.resetValue PortA.resetValue (brIn .idle) (.ms m)

/-- Variant B between frames, with the memory slave. -/
def msB (m : Memory) : State := stB PortB.resetValue (brIn .idle) (.ms m)

/-- Levels that select the chip, clock low. -/
def selected : Sync := { Sync.resetValue with csn1 := false, csn2 := false }

/-- One reply of a script. -/
def reply (ack : Bool) (d : Word) : BusSide := { ack := ack, datR := d, fill := 0xC3#8 }

/-- Pins of a reset tick. -/
def rstPins : Pins := { spi true false false with rst := true }

/-- The state a command leaves, where it leaves one. -/
def after (i : Instr) (s : State) : State :=
  match exec i s with
  | .next t => t
  | .fault _ => s
  | .refused _ => s

/-! ## Commands, one step each (95_test_vectors.md section 6.2) -/

/-- W1b: the read word goes out in slots 5 to 8 and nothing is left waiting. -/
theorem test_read_w1b :
    let t := after (.read 0x00#8 0x0010#16 [0x00#8, 0x00#8, 0x00#8, 0x00#8, 0x00#8] []) (msA [(0x0010, 0xAABBCCDD#32)])
    t.record = [{ dir := .read, adr := 0x0010, data := some 0xAABBCCDD#32 }] ∧
      (t.served.drop 5).take 4 = [0xAA#8, 0xBB#8, 0xCC#8, 0xDD#8] ∧ t.br.txLeft = 0#3 := by decide +kernel
/-- CMD-R5: `READ 0xFFFF` with `HIGH_ADDR = 0x01` and `BUS_ADDR_W = 24`, here with Variant B. -/
theorem test_read_high_addr :
    (after (.read 0x00#8 0xFFFF#16 [] [])
      { msB [(0x01FFFF, 7#32)] with
        cfg := { Config.params with busAddrW := 24, highAddr := 1 }
        br := { brIn .idle with addrHigh := 1 } }).record =
      [{ dir := .read, adr := 0x01FFFF, data := some 7#32 }] := by decide +kernel
/-- W2: one write, data folded from the bytes in order. -/
theorem test_write_w2 :
    let t := after (.write 0x00#8 0x0020#16 0x11223344#32 [] []) (msA [])
    t.record = [{ dir := .write, adr := 0x0020, data := some 0x11223344#32 }] ∧
      t.slave = .ms [(0x0020, 0x11223344#32)] ∧ t.br.acc = 0x11223344#32 := by decide +kernel
/-- CMD-W2 and CMD-L1 together, with Variant B: bytes after byte 7 are ignored, and the lead byte does not matter. -/
theorem test_write_no_second :
    (after (.write 0x03#8 0x0020#16 0x11223344#32 [0x02#8, 0x00#8, 0x20#8, 0x55#8] []) (msB [])).record =
      [{ dir := .write, adr := 0x0020, data := some 0x11223344#32 }] := by decide +kernel
/-- CMD-U2: the counter saturates, and the `0x03` in byte 9 is never an opcode. -/
theorem test_unknown_u2 :
    let t := after (.unknown 0x00#8 0x01#8 [0x00#8, 0x10#8, 0x00#8, 0x00#8, 0x00#8, 0x00#8, 0x00#8, 0x03#8, 0x00#8,
      0x10#8] []) (msA [])
    t.record = [] ∧ t.br.state = .idle ∧ t.br.opcode = 0x01#8 ∧ t.br.addr = 0x0010#16 ∧
      t.br.acc = 0x00030010#32 := by decide +kernel
/-- VA-2 after an UNKNOWN opcode: a partial byte sets the flag and is not delivered. -/
theorem test_unknown_partial :
    let t := after (.unknown 0x00#8 0x01#8 [] [true, true, true]) (msA [])
    (match t.port with | .a _ a => a.partialFlag | .b _ => false) = true ∧ t.br.count = 0#3 ∧ t.record = [] ∧
      t.seen = [.start, .byteReady 0x00#8, .byteReady 0x01#8, .done] := by decide +kernel

/-! ## Ticks -/

/-- VA-5 (41_transport_a.md R124's example). -/
theorem test_sample : ({ PortA.resetValue with rxShift := 0b01010011#8, bitCount := 7#3 } : PortA).onRise true =
    { PortA.resetValue with rxShift := 0b10100111#8, bitCount := 0#3, byteDone := true } := by decide
/-- VA-10 (R126's example). -/
theorem test_shift : ({ PortA.resetValue with txShift := 0xA5#8 } : PortA).onShift.txShift = 0x4A#8 := by decide
/-- 42_transport_b.md R155's example. -/
theorem test_poll : PortB.next { PortB.resetValue with state := .poll } Config.params true 0b01010000#8 0x11#8 =
    { PortB.resetValue with state := .txwrite, busy := true, txData := 0x11#8 } := by decide
/-- VB-1, tick 10: receive-ready wins over transmit-ready. -/
theorem test_poll_priority :
    (PortB.next { PortB.resetValue with state := .poll } Config.params true 0x58#8 0x11#8).state = .rxread := by decide
/-- BR-8: address capture and READ dispatch. -/
theorem test_dispatch_read :
    (Bridge.onByte { brIn .command with acc := 0x00FF0312#32, count := 3#3, opcode := 0x03#8 } 0x34#8) =
      { brIn .read with acc := 0xFF031234#32, count := 4#3, opcode := 0x03#8, addr := 0x1234#16 } := by decide
/-- BR-10: WRITE dispatch. -/
theorem test_dispatch_write :
    (Bridge.onByte { brIn .command with acc := 0x20112233#32, count := 7#3, opcode := 0x02#8 } 0x44#8) =
      { brIn .write with acc := 0x11223344#32, count := 7#3, opcode := 0x02#8, wdata := 0x11223344#32 } := by decide
/-- BR-12: the opcode is not captured again. -/
theorem test_saturated :
    (Bridge.onByte { brIn .command with count := 7#3, opcode := 0x01#8 } 0x03#8) =
      { brIn .command with acc := 0x03#32, count := 7#3, opcode := 0x01#8 } := by decide
/-- TX-7: a read acknowledge overwrites what waits, and a request in the same tick takes the old byte. -/
theorem test_overwrite :
    let b := { brIn .read with txWord := 0xCCDD0000#32, txLeft := 2#3 }
    b.txByte 0x00#8 = 0xCC#8 ∧
      b.next { start := false, byteReady := false, byte := 0x00#8, done := false, txReq := true }
        (reply true 0x01020304#32) = { brIn .idle with txWord := 0x01020304#32, txLeft := 4#3 } := by decide
/-- BUS-7: a reset cancels the cycle and records it without data. -/
theorem test_reset_cancels :
    let s := stA Sync.resetValue PortA.resetValue { brIn .read with addr := 0x0040#16 } (.script [reply false 0#32])
    (s.tick rstPins).record = [{ dir := .read, adr := 0x0040, data := none }] ∧
      s.outputs.cyc = true ∧ (s.tick rstPins).outputs.cyc = false := by decide
/-- SY-1: a select captured in tick 0 is on the output two ticks later, and not before. -/
theorem test_latency :
    (Sync.resetValue.next (spi false false false)).selS = false ∧
      ((Sync.resetValue.next (spi false false false)).next (spi false false false)).selS = true := by decide
/-- The timing T4 keeps duty M2 of 70_reset_and_hazards.md R283, from a deselected chip on. -/
theorem test_t4_keeps_mode : keepsM2 (spi true false false :: framePins ⟨[0xA5#8], [true]⟩) = true := by decide

/-! ## Witnesses: a concrete case that meets the hypotheses of each statement, clause by clause -/

/-- A deselected chip, the clock low, no reset. -/
abbrev quietPins : Pins := spi true false false

theorem witness_StepRunsTick :
    ({ State.reset with todo := [.tick quietPins, .tick rstPins] } : State).todo = .tick quietPins :: [.tick rstPins] ∧
      State.reset.todo = [] := ⟨rfl, rfl⟩

theorem witness_StepRunsDecodedCommand :
    ({ State.reset with todo := [.frame (formWrite 0x0020#16 0x11223344#32)] } : State).todo =
        .frame (formWrite 0x0020#16 0x11223344#32) :: [] ∧
      decode (formWrite 0x0020#16 0x11223344#32) = .ok (.write 0x00#8 0x0020#16 0x11223344#32 [] []) ∧
      decodeTableWord 8 0x03 = some (.read 0x00#8 0x0000#16 [0x00#8, 0x00#8, 0x00#8, 0x00#8, 0x00#8] []) :=
  ⟨rfl, by decide, by decide⟩

theorem ready_a (m : Memory) : (msA m).ready := ⟨⟨rfl, rfl, rfl, rfl, rfl, rfl, rfl⟩, rfl⟩
theorem ready_b (m : Memory) : (msB m).ready := ⟨⟨rfl, rfl, rfl, rfl, by decide⟩, rfl⟩

/-- One frame for each clause of CommandlessFrameIssuesNothing: 0, 1, 3 and 7 bytes. -/
theorem witness_CommandlessFrameIssuesNothing (f : Frame) (e : DecodeError)
    (h : (f, e) ∈ [(⟨[], [true]⟩, DecodeError.noOpcode), (⟨[0x03#8], []⟩, .noOpcode),
      (⟨[0x00#8, 0x03#8, 0x00#8], []⟩, .readTooShort),
      (⟨[0x00#8, 0x02#8, 0x00#8, 0x20#8, 0x11#8, 0x22#8, 0x33#8], [true, true]⟩, .writeTooShort)]) :
    ({ msA [] with todo := [.frame f] } : State).ready ∧ f.wf = true ∧
      ({ msA [] with todo := [.frame f] } : State).todo = .frame f :: [] ∧ decode f = .error e := by
  refine ⟨⟨⟨rfl, rfl, rfl, rfl, rfl, rfl, rfl⟩, rfl⟩, ?_, rfl, ?_⟩ <;>
  · simp only [List.mem_cons, Prod.mk.injEq, List.not_mem_nil, or_false] at h
    rcases h with ⟨rfl, rfl⟩ | ⟨rfl, rfl⟩ | ⟨rfl, rfl⟩ | ⟨rfl, rfl⟩ <;> decide

theorem witness_ResetOverridesEverything (st : BridgeState) :
    rstPins.rst = true ∧ (msA []).port = .a Sync.resetValue PortA.resetValue ∧ (msB []).port = .b PortB.resetValue ∧
      (stB PortB.resetValue (brIn st) (.script [reply false 0#32])).br.state = st ∧
      ((stB PortB.resetValue (brIn st) (.script [reply false 0#32])).inputs rstPins).bus.ack = false :=
  ⟨rfl, rfl, rfl, rfl, rfl⟩

theorem witness_InitialState :
    Params.wf { Config.params with busAddrW := 24, highAddr := 255 } = true ∧
      (Port.a selected PortA.resetValue) = .a selected PortA.resetValue ∧
      (Port.b PortB.resetValue) = .b PortB.resetValue := ⟨by decide, rfl, rfl⟩

theorem witness_SynchronizerStages :
    (msA []).port = .a Sync.resetValue PortA.resetValue ∧ quietPins.rst = false := ⟨rfl, rfl⟩

theorem witness_SynchronizerLatency :
    (msA []).port = .a Sync.resetValue PortA.resetValue ∧
      (∀ q ∈ [spi false true true, quietPins], q.rst = false) ∧
      [spi false true true, quietPins][0]? = some (spi false true true) ∧
      0 + 2 ≤ [spi false true true, quietPins].length := ⟨rfl, by decide, rfl, by decide⟩

/-- The cases of the operations of Transport A: start, done, rise, fall with and without a whole byte, deselected, active
without an edge. -/
theorem witness_TransportA :
    (quietPins.rst = false ∧ selected.csn2 = false ∧ PortA.resetValue.selPrev = false) ∧
    (Sync.resetValue.csn2 = true ∧ ({ PortA.resetValue with selPrev := true } : PortA).selPrev = true) ∧
    (selected.csn2 = false ∧ ({ selected with sclk2 := true } : Sync).sclk2 = true ∧
      ({ PortA.resetValue with selPrev := true } : PortA).sclkPrev = false) ∧
    (∀ d, ({ PortA.resetValue with selPrev := true, sclkPrev := true, byteDone := d } : PortA).sclkPrev = true ∧
      ({ PortA.resetValue with selPrev := true, sclkPrev := true, byteDone := d } : PortA).byteDone = d ∧
      selected.sclk2 = false) ∧
    (Sync.resetValue.csn2 = true ∧ PortA.resetValue.selPrev = false) ∧
    (selected.csn2 = false ∧ ({ PortA.resetValue with selPrev := true } : PortA).selPrev = true ∧
      selected.sclk2 = ({ PortA.resetValue with selPrev := true } : PortA).sclkPrev) := by
  refine ⟨⟨rfl, rfl, rfl⟩, ⟨rfl, rfl⟩, ⟨rfl, rfl, rfl⟩, fun d => ⟨rfl, rfl, rfl⟩, ⟨rfl, rfl⟩, rfl, rfl, rfl⟩

/-- The state of each case has the levels and latches it names. -/
theorem witness_TransportA_port (y : Sync) (a : PortA) (slave : Slave) :
    (stA y a (brIn .command) slave).port = .a y a := rfl

theorem witness_PartialFlagIsSticky :
    (stA Sync.resetValue { PortA.resetValue with partialFlag := true } (brIn .idle) (.ms [])).port =
        .a Sync.resetValue { PortA.resetValue with partialFlag := true } ∧
      rstPins.rst = true ∧ quietPins.rst = false ∧
      ∃ t, exec (.unknown 0x00#8 0x01#8 [] [])
        (stA Sync.resetValue { PortA.resetValue with partialFlag := true } (brIn .idle) (.ms [])) = .next t :=
  ⟨rfl, rfl, rfl, _, rfl⟩

/-- Variant A with Start, with ByteReady, with Done; Variant B with a request. -/
theorem witness_AtMostOneEvent :
    (stA selected PortA.resetValue (brIn .idle) (.ms [])).port.Inv ∧
    ((stA selected PortA.resetValue (brIn .idle) (.ms [])).events
      ((stA selected PortA.resetValue (brIn .idle) (.ms [])).inputs quietPins)).start = true ∧
    (stA selected { PortA.resetValue with selPrev := true, sclkPrev := true, byteDone := true } (brIn .command)
      (.ms [])).port.Inv ∧
    ((stA selected { PortA.resetValue with selPrev := true, sclkPrev := true, byteDone := true } (brIn .command)
      (.ms [])).events
      ((stA selected { PortA.resetValue with selPrev := true, sclkPrev := true, byteDone := true } (brIn .command)
        (.ms [])).inputs quietPins)).byteReady = true ∧
    (stB { PortB.resetValue with state := .poll } (brIn .idle) (.ms [])).port.Inv ∧
    ((stB { PortB.resetValue with state := .poll } (brIn .idle) (.ms [])).events
      ((stB { PortB.resetValue with state := .poll } (brIn .idle) (.ms [])).inputs (sb true 0x50#8))).txReq = true := by
  refine ⟨fun h => ?_, rfl, fun _ => ⟨rfl, rfl, rfl⟩, rfl, ⟨fun h => ?_, fun h => ?_, fun h => ?_⟩, rfl⟩ <;>
    exact absurd h (by decide)

/-- Each state of the adapter, with and without an acknowledge, and the three answers of a status read. -/
theorem witness_Adapter (st : AdapterState) :
    (stB { PortB.resetValue with state := st } (brIn .idle) (.ms [])).port = .b { PortB.resetValue with state := st } ∧
      ({ PortB.resetValue with state := st } : PortB).state = st ∧
      (sb true 0#8).rst = false ∧ (sb true 0#8).sbAck = true ∧ (sb false 0#8).sbAck = false ∧
      (0x48#8).getLsbD Config.params.sbSrRrdy.val = true ∧ (0x50#8).getLsbD Config.params.sbSrRrdy.val = false ∧
      (0x50#8).getLsbD Config.params.sbSrTrdy.val = true ∧ (0x40#8).getLsbD Config.params.sbSrRrdy.val = false ∧
      (0x40#8).getLsbD Config.params.sbSrTrdy.val = false := by
  refine ⟨rfl, rfl, rfl, rfl, rfl, ?_⟩; decide

theorem witness_AdapterReset_inv : PortB.resetValue.Inv := by decide

theorem witness_RegisterCycleHeldUntilAck :
    ({ PortB.resetValue with state := .rxread } : PortB).state ≠ .idle ∧
      (∀ p ∈ [sb false 0#8, sb false 0#8], p.rst = false ∧ p.sbAck = false) := by decide

/-- A `Start` in Idle and in Command, a quiet tick in Idle, a `Done` in every state, a byte in Command, and every count
before it. -/
theorem witness_Bridge (st : BridgeState) (k : BitVec 3) :
    quietPins.rst = false ∧
    (stA selected PortA.resetValue (brIn st) (.ms [])).br.state = st ∧
    ((stA selected PortA.resetValue (brIn st) (.ms [])).events
      ((stA selected PortA.resetValue (brIn st) (.ms [])).inputs quietPins)).start = true ∧
    ((stA Sync.resetValue PortA.resetValue (brIn st) (.ms [])).events
      ((stA Sync.resetValue PortA.resetValue (brIn st) (.ms [])).inputs quietPins)).start = false ∧
    (stA Sync.resetValue { PortA.resetValue with selPrev := true } (brIn st) (.ms [])).port.Inv ∧
    ((stA Sync.resetValue { PortA.resetValue with selPrev := true } (brIn st) (.ms [])).events
      ((stA Sync.resetValue { PortA.resetValue with selPrev := true } (brIn st) (.ms [])).inputs quietPins)).start =
        false ∧
    ((stA Sync.resetValue { PortA.resetValue with selPrev := true } (brIn st) (.ms [])).events
      ((stA Sync.resetValue { PortA.resetValue with selPrev := true } (brIn st) (.ms [])).inputs quietPins)).done =
        true ∧
    (∀ op, (stB { PortB.resetValue with state := .idle, rxStrobe := true, rxByte := 0x10#8 }
      { brIn .command with count := k, opcode := op } (.ms [])).br.count = k ∧
      ((stB { PortB.resetValue with state := .idle, rxStrobe := true, rxByte := 0x10#8 }
        { brIn .command with count := k, opcode := op } (.ms [])).events
        ((stB { PortB.resetValue with state := .idle, rxStrobe := true, rxByte := 0x10#8 }
          { brIn .command with count := k, opcode := op } (.ms [])).inputs quietPins)).byteReady = true ∧
      ((stB { PortB.resetValue with state := .idle, rxStrobe := true, rxByte := 0x10#8 }
        { brIn .command with count := k, opcode := op } (.ms [])).events
        ((stB { PortB.resetValue with state := .idle, rxStrobe := true, rxByte := 0x10#8 }
          { brIn .command with count := k, opcode := op } (.ms [])).inputs quietPins)).start = false ∧
      ((stB { PortB.resetValue with state := .idle, rxStrobe := true, rxByte := 0x10#8 }
        { brIn .command with count := k, opcode := op } (.ms [])).events
        ((stB { PortB.resetValue with state := .idle, rxStrobe := true, rxByte := 0x10#8 }
          { brIn .command with count := k, opcode := op } (.ms [])).inputs quietPins)).done = false) :=
  ⟨rfl, rfl, rfl, rfl, fun h => absurd h (by decide), rfl, rfl, fun _ => ⟨rfl, rfl, rfl, rfl⟩⟩

/-- Read and Write with and without an acknowledge. -/
theorem witness_InCycle (st : BridgeState) (ack : Bool) :
    (stA Sync.resetValue PortA.resetValue (brIn st) (.script [reply ack 5#32])).br.state = st ∧
      ((stA Sync.resetValue PortA.resetValue (brIn st) (.script [reply ack 5#32])).inputs quietPins).bus.ack = ack :=
  ⟨rfl, rfl⟩

/-- The cases of the outgoing source: no byte waiting, one, four; a request, and none. -/
theorem witness_OutgoingSource (n : BitVec 3) :
    (stA selected PortA.resetValue { brIn .idle with txLeft := n } (.script [reply true 5#32])).br.txLeft = n ∧
      ¬((stA selected PortA.resetValue { brIn .idle with txLeft := n } (.script [reply true 5#32])).br.state = .read ∧
        ((stA selected PortA.resetValue { brIn .idle with txLeft := n } (.script [reply true 5#32])).inputs
          quietPins).bus.ack = true) ∧
      ((stA selected PortA.resetValue { brIn .idle with txLeft := n } (.script [reply true 5#32])).events
        ((stA selected PortA.resetValue { brIn .idle with txLeft := n } (.script [reply true 5#32])).inputs
          quietPins)).txReq = true ∧
      ((stA Sync.resetValue PortA.resetValue { brIn .idle with txLeft := n } (.script [])).events
        ((stA Sync.resetValue PortA.resetValue { brIn .idle with txLeft := n } (.script [])).inputs
          quietPins)).txReq = false :=
  ⟨rfl, fun h => absurd h.1 (by simp [stA, brIn]), rfl, rfl⟩

/-- The invariant, in Idle and in a cycle. -/
theorem witness_Inv :
    (msA [(5, 7#32)]).Inv ∧ (msB []).Inv ∧
      (stA Sync.resetValue PortA.resetValue
        { brIn .read with opcode := 0x03#8, count := 4#3, addr := 0xFFFF#16 } (.ms [])).Inv := by
  refine ⟨⟨rfl, ?_, ⟨?_, ?_, ?_, rfl⟩, rfl⟩, ⟨rfl, ?_, ⟨?_, ?_, ?_, rfl⟩, rfl⟩,
    ⟨rfl, ?_, ⟨?_, fun _ => ⟨.inr rfl, rfl⟩, ?_, rfl⟩, rfl⟩⟩
  · intro h; exact absurd h (by decide)
  · decide
  · intro h; exact absurd h (by decide)
  · intro h; exact absurd h (by decide)
  · exact witness_AdapterReset_inv
  · decide
  · intro h; exact absurd h (by decide)
  · intro h; exact absurd h (by decide)
  · intro h; exact absurd h (by decide)
  · decide
  · intro h; exact absurd h (by decide)

theorem witness_StepKeepsInvariant : (msA [(5, 7#32)]).Inv ∧ ∃ t, step (msA [(5, 7#32)]) = .next t :=
  ⟨witness_Inv.1, _, rfl⟩

/-- Two ticks that differ in the acknowledge and the read data alone. -/
theorem witness_AckOutsideCycleIgnored :
    ({ pins := quietPins, bus := reply true 1#32 } : Inputs).pins =
        ({ pins := quietPins, bus := reply false 2#32 } : Inputs).pins ∧
      (reply true 1#32).fill = (reply false 2#32).fill ∧ (msA []).br.state = .idle := ⟨rfl, rfl, rfl⟩

theorem witness_CycleHeldWithoutAck :
    (stA Sync.resetValue PortA.resetValue (brIn .write) (.script [reply false 0#32])).br.state = .write ∧
      (stA Sync.resetValue PortA.resetValue (brIn .write) (.script [reply false 0#32])).slave =
        .script [reply false 0#32] ∧
      [quietPins].length ≤ [reply false 0#32].length ∧ (∀ r ∈ [reply false 0#32], r.ack = false) ∧
      (∀ p ∈ [quietPins], p.rst = false) := ⟨rfl, rfl, by decide, by decide, by decide⟩

theorem witness_GapBetweenCycles :
    (msA []).br.state = .idle ∧ [quietPins, quietPins, quietPins, quietPins].length ≤ 4 := ⟨rfl, by decide⟩

/-- The commands, with the longest partial byte, from ready states of both transports. -/
theorem witness_Commands :
    (msA []).ready ∧ (msB []).ready ∧ (msA []).slave = .ms [] ∧ Memory.wf [] = true ∧
      [true, true, true, true, true, true, true].length < 8 ∧ (0x00#8) ≠ 0x02#8 ∧ (0x00#8) ≠ 0x03#8 ∧
      (msA []).br.txLeft ≤ 4#3 ∧ 5 ≤ [0x00#8, 0x00#8, 0x00#8, 0x00#8, 0x00#8].length :=
  ⟨ready_a [], ready_b [], rfl, rfl, by decide, by decide, by decide, by decide, by decide⟩

theorem witness_CommandFrameEvents :
    Instr.wf (.unknown 0x00#8 0xFF#8 [] [true]) = true ∧ (msA []).betweenFrames ∧ (msB []).betweenFrames ∧
      (msA []).port = .a Sync.resetValue PortA.resetValue := ⟨by decide, (ready_a []).1, (ready_b []).1, rfl⟩

theorem witness_CommandDuringTransactionIsLost :
    Instr.wf (.read 0x00#8 0x0040#16 [] []) = true ∧
      (stA Sync.resetValue PortA.resetValue (brIn .write)
        (.script [reply false 0#32, reply false 0#32, reply false 0#32])).betweenFrames ∧
      (stA Sync.resetValue PortA.resetValue (brIn .write)
        (.script [reply false 0#32, reply false 0#32, reply false 0#32])).br.state = .write ∧
      (stA Sync.resetValue PortA.resetValue (brIn .write)
        (.script [reply false 0#32, reply false 0#32, reply false 0#32])).slave =
          .script [reply false 0#32, reply false 0#32, reply false 0#32] ∧
      3 ≤ [reply false 0#32, reply false 0#32, reply false 0#32].length ∧
      (∀ r ∈ [reply false 0#32, reply false 0#32, reply false 0#32].take 3, r.ack = false) :=
  ⟨by decide, ⟨rfl, rfl, rfl, rfl, rfl, rfl, rfl⟩, rfl, rfl, by decide, by decide⟩

theorem witness_AtMostOneTransactionPerFrame :
    (formRead 0x0010#16 5).wf = true ∧ (msB []).betweenFrames := ⟨by decide, (ready_b []).1⟩

theorem witness_ReadWordDrainsInOrder :
    (stB { PortB.resetValue with state := .poll } (brIn .read)
        (.script [reply true 0xAABBCCDD#32, reply false 0#32])).br.state = .read ∧ (sb true 0x50#8).rst = false ∧
      (stB { PortB.resetValue with state := .poll } (brIn .read)
        (.script [reply true 0xAABBCCDD#32, reply false 0#32])).slave =
          .script (reply true 0xAABBCCDD#32 :: [reply false 0#32]) ∧
      (reply true 0xAABBCCDD#32).ack = true ∧ (∀ x ∈ [reply false 0#32], x.ack = false) ∧
      [sb true 0x50#8].length ≤ [reply false 0#32].length ∧ (∀ q ∈ [sb true 0x50#8], q.rst = false) :=
  ⟨rfl, rfl, rfl, rfl, by decide, by decide, by decide⟩

theorem witness_WaitingReadDataGoesOutFirst :
    Instr.wf (.unknown 0x00#8 0x00#8 [] []) = true ∧
      (stA Sync.resetValue PortA.resetValue { brIn .idle with txWord := 0xAABBCCDD#32, txLeft := 4#3 } (.ms [])).ready ∧
      (4#3 : BitVec 3) ≤ 4#3 := ⟨by decide, ⟨⟨rfl, rfl, rfl, rfl, rfl, rfl, rfl⟩, rfl⟩, by decide⟩

theorem witness_ShortReadServesNextFrame :
    (msA []).ready ∧ Instr.wf (.unknown 0x00#8 0x00#8 [0x00#8, 0x00#8] []) = true ∧
      4 ≤ (encode (.unknown 0x00#8 0x00#8 [0x00#8, 0x00#8] [])).bytes.length := ⟨ready_a [], by decide, by decide⟩

theorem witness_TransportsAgree :
    Instr.wf (.write 0x00#8 0x0020#16 1#32 [] []) = true ∧ (msA []).cfg.wf = true ∧ (msA []).br.state = .idle ∧
      (msA []).slave = .ms [] ∧ idleA Sync.resetValue PortA.resetValue ∧ idleB PortB.resetValue :=
  ⟨by decide, rfl, rfl, rfl, by decide, by decide⟩

theorem witness_StepKeepsInstance : ∃ t, step (msB []) = .next t := ⟨_, rfl⟩

theorem witness_QuiescentStaysQuiescent :
    (msA []).quiescent ([quietPins] ++ [spi false false false]) = true ∧
      (stA Sync.resetValue PortA.resetValue { brIn .idle with txLeft := 4#3 } (.ms [])).quiescent
        ([quietPins] ++ [quietPins]) = true ∧
      (stB { PortB.resetValue with state := .poll } (brIn .idle) (.ms [])).quiescent
        ([sb true 0x27#8] ++ [sb true 0x40#8]) = true ∧
      (stB { PortB.resetValue with state := .poll } { brIn .idle with txLeft := 4#3 } (.ms [])).quiescent
        ([sb true 0x27#8] ++ [sb true 0x58#8]) = true ∧
      (∀ p ∈ [quietPins, sb true 0x27#8], p.rst = false ∧ p.csN = true) ∧
      ({ PortB.resetValue with state := .poll } : PortB).statusRead (sb true 0x27#8) = some 0x27#8 ∧
      (0x27#8).getLsbD Config.params.sbSrBusy.val = false ∧ (0x27#8).getLsbD Config.params.sbSrTrdy.val = false ∧
      (0x27#8).getLsbD Config.params.sbSrRrdy.val = false := ⟨rfl, rfl, rfl, rfl, by decide⟩

/-- An acknowledge in IDLE is no status read (42_transport_b.md R151): 0x58 there, as in the run above, shows no frame.
A status read that shows busy does. -/
theorem test_status_read_shows_frame :
    let s := stB { PortB.resetValue with state := .poll } { brIn .idle with txLeft := 4#3 } (.ms [])
    s.noFurtherFrame [sb true 0x27#8, sb true 0x58#8] = true ∧
      s.noFurtherFrame [sb true 0x27#8, sb true 0x58#8, sb true 0x40#8] = false ∧
      s.noFurtherFrame [sb true 0x08#8, sb true 0xFF#8] = true := ⟨rfl, rfl, rfl⟩

/-- With read data waiting and a further frame to come, a state is not quiescent (70_reset_and_hazards.md R284). -/
theorem test_not_quiescent :
    (stA Sync.resetValue PortA.resetValue { brIn .idle with txLeft := 4#3 } (.ms [])).quiescent
      [quietPins, spi false false false] = false := rfl

/-- Variant A in Command in the tick of the frame's `Done`, after `k` bytes with the opcode register at `op`. -/
def atDone (k : BitVec 3) (op : Byte) : State :=
  stA Sync.resetValue { PortA.resetValue with selPrev := true } { brIn .command with count := k, opcode := op }
    (.script [reply false 0#32])

/-- Variant B reporting a byte, in IDLE, with busy as given and the Bridge in a state. -/
def reporting (busy : Bool) (st : BridgeState) : State :=
  stB { PortB.resetValue with state := .idle, busy := busy, busyPrev := busy, rxStrobe := true, rxByte := 0x10#8 }
    (brIn st) (.ms [])

/-- E6: a byte after `Done`, to a Bridge in Idle and in a cycle; while busy none is late. E7: `Done` after no byte, one byte,
`[0x00, 0x03]` (W3), 3 bytes of a READ, `[0x00, 0x02]` and 7 bytes of a WRITE. UNKNOWN: `Done` after 2 bytes (the first count
at which the opcode is this frame's) and after 7 or more. -/
theorem witness_LateByteAndEarlyEnd :
    (∀ st, (reporting false st).lateByte ((reporting false st).inputs (sb false 0#8)) = true) ∧
    (∀ st, (reporting true st).port = .b { PortB.resetValue with
      state := .idle, busy := true, busyPrev := true, rxStrobe := true, rxByte := 0x10#8 }) ∧
    (∀ c ∈ [(0#3, 0x01#8), (1#3, 0x01#8), (2#3, 0x03#8), (3#3, 0x03#8), (2#3, 0x02#8), (7#3, 0x02#8)],
      (atDone c.1 c.2).endedEarly ((atDone c.1 c.2).inputs quietPins) = true) ∧
    (∀ k ∈ [2#3, 7#3],
      (atDone k 0x01#8).br.state = .command ∧
      ((atDone k 0x01#8).events ((atDone k 0x01#8).inputs quietPins)).done = true ∧
      ((atDone k 0x01#8).events ((atDone k 0x01#8).inputs quietPins)).start = false ∧
      2 ≤ (atDone k 0x01#8).br.count.toNat ∧
      (atDone k 0x01#8).endedEarly ((atDone k 0x01#8).inputs quietPins) = false) := by
  refine ⟨fun st => rfl, fun st => rfl, ?_, ?_⟩ <;> decide +kernel

/-- A pad byte while busy is no late byte, though the Bridge is in Idle already. -/
theorem test_pad_byte_not_late :
    (reporting true .idle).lateByte ((reporting true .idle).inputs (sb false 0#8)) = false := rfl

theorem witness_Encodings :
    Instr.wf (.read 0xFF#8 0xFFFF#16 [0xFF#8] [true, true, true, true, true, true, true]) = true ∧
      decode ⟨[0x00#8, 0x03#8, 0x00#8, 0x10#8], []⟩ = .ok (.read 0x00#8 0x0010#16 [] []) ∧
      [true, true, true, true, true, true, true].length < 8 ∧
      (0x01#8) ≠ 0x03#8 ∧ (0x01#8) ≠ 0x02#8 ∧ [0x00#8, 0x03#8, 0x00#8].length < 4 ∧
      [0x00#8, 0x02#8, 0x00#8, 0x20#8, 0x11#8, 0x22#8, 0x33#8].length < 8 := by decide

end Sys2Proof.Tests
end

section
/-! SUPPORT. What no step changes (00_scope.md R3, R10; 10_state.md R42, R49). `State.Preserves` collects it as a relation
between two states; it is reflexive and transitive and every tick meets it, so a frame, which is a run of ticks, meets it
too, and `step_cases` carries it to a step. -/

namespace Sys2Proof.Machine

/-! ## What a step runs -/

/-- The meaning of every command is the run of the frame that encodes it. -/
theorem exec_eq_runFrame_encode (i : Instr) (s : State) : exec i s = .next (s.runFrame (encode i)) := by
  cases i <;> rfl

/-- A state with nothing scheduled has nothing to take off. -/
theorem State.pop_of_todo_nil (s : State) (h : s.todo = []) : s.pop = s := by
  cases s; cases h; rfl

/-- A step is one tick or one whole frame, from the state with the head of `todo` taken off. -/
theorem step_cases {s t : State} (h : step s = .next t) :
    (∃ p, t = s.pop.tick p) ∨ (∃ f, t = s.pop.runFrame f) := by
  unfold step at h
  split at h
  · next hnil => exact .inl ⟨_, by rw [s.pop_of_todo_nil hnil]; exact (Host.Outcome.next.inj h).symm⟩
  · exact .inl ⟨_, (Host.Outcome.next.inj h).symm⟩
  · split at h
    · rw [exec_eq_runFrame_encode] at h
      exact .inr ⟨_, (Host.Outcome.next.inj h).symm⟩
    · exact .inr ⟨_, (Host.Outcome.next.inj h).symm⟩

/-! ## The Bridge never writes `addrHigh` (10_state.md R42) -/

@[simp] theorem Bridge.clearOnDone_addrHigh (b : Bridge) (e : Events) : (b.clearOnDone e).addrHigh = b.addrHigh := by
  rw [Bridge.clearOnDone_eq]

@[simp] theorem Bridge.onStart_addrHigh (b : Bridge) : b.onStart.addrHigh = b.addrHigh := rfl

@[simp] theorem Bridge.captureOpcode_addrHigh (b : Bridge) (k : BitVec 3) (a : Word) :
    (b.captureOpcode k a).addrHigh = b.addrHigh := by
  unfold Bridge.captureOpcode; split <;> rfl

@[simp] theorem Bridge.dispatchRead_addrHigh (b : Bridge) (k : BitVec 3) (a : Word) :
    (b.dispatchRead k a).addrHigh = b.addrHigh := by
  unfold Bridge.dispatchRead; split <;> rfl

@[simp] theorem Bridge.dispatchWrite_addrHigh (b : Bridge) (k : BitVec 3) (a : Word) :
    (b.dispatchWrite k a).addrHigh = b.addrHigh := by
  unfold Bridge.dispatchWrite; split <;> rfl

@[simp] theorem Bridge.accumulate_addrHigh (b : Bridge) (x : Byte) : (b.accumulate x).addrHigh = b.addrHigh := rfl

@[simp] theorem Bridge.onByte_addrHigh (b : Bridge) (x : Byte) : (b.onByte x).addrHigh = b.addrHigh := by
  simp [Bridge.onByte]

@[simp] theorem Bridge.fsm_addrHigh (b : Bridge) (e : Events) (ack : Bool) : (b.fsm e ack).addrHigh = b.addrHigh := by
  unfold Bridge.fsm
  split
  · split <;> simp
  · split_ifs <;> simp
  · split <;> rfl
  · split <;> rfl

@[simp] theorem Bridge.next_addrHigh (b : Bridge) (e : Events) (s : BusSide) : (b.next e s).addrHigh = b.addrHigh := by
  simp [Bridge.next]

/-! ## The kinds of transport and of slave (00_scope.md R3, R7) -/

/-- Transport A is the one that is present. -/
def Port.isA (q : Port) : Prop := ∃ y a, q = .a y a

@[simp] theorem Port.resetValue_isA (q : Port) : q.resetValue.isA ↔ q.isA := by
  cases q <;> simp [Port.isA, Port.resetValue]

@[simp] theorem Port.next_isA (q : Port) (p : Params) (i : Inputs) (x : Byte) : (q.next p i x).isA ↔ q.isA := by
  cases q <;> simp [Port.isA, Port.next]

/-- The slave is the memory slave MS. -/
def Slave.isMs (v : Slave) : Prop := ∃ m, v = .ms m

@[simp] theorem Slave.after_isMs (v : Slave) (o : Outputs) : (v.after o).isMs ↔ v.isMs := by
  cases v with
  | script l => simp [Slave.isMs, Slave.after]
  | ms m =>
    have h : (Slave.after (.ms m) o).isMs := by
      unfold Slave.after Slave.isMs
      dsimp only
      split <;> exact ⟨_, rfl⟩
    exact iff_of_true h ⟨m, rfl⟩

/-! ## What is kept -/

/-- `t` has the parameters, the kinds of transport and slave, and the schedule of `s`, and its observations go on from those of `s`. -/
structure State.Preserves (s t : State) : Prop where
  cfg : t.cfg = s.cfg
  transport : s.port.isA ↔ t.port.isA
  record : s.record <+: t.record
  served : s.served <+: t.served
  seen : s.seen <+: t.seen
  todo : t.todo = s.todo
  addrHigh : s.br.addrHigh = s.cfg.highAddr → t.br.addrHigh = s.cfg.highAddr
  slave : s.slave.isMs ↔ t.slave.isMs

theorem State.Preserves.refl (s : State) : s.Preserves s where
  cfg := rfl
  transport := .rfl
  record := List.prefix_rfl
  served := List.prefix_rfl
  seen := List.prefix_rfl
  todo := rfl
  addrHigh := id
  slave := .rfl

theorem State.Preserves.trans {s t u : State} (h : s.Preserves t) (k : t.Preserves u) : s.Preserves u where
  cfg := k.cfg.trans h.cfg
  transport := h.transport.trans k.transport
  record := h.record.trans k.record
  served := h.served.trans k.served
  seen := h.seen.trans k.seen
  todo := k.todo.trans h.todo
  addrHigh := fun hs => h.cfg ▸ k.addrHigh (h.cfg ▸ h.addrHigh hs)
  slave := h.slave.trans k.slave

/-- The registers after a tick, reset or not, belong to the same transport. -/
@[simp] theorem State.clock_port_isA (s : State) (i : Inputs) : (s.clock i).port.isA ↔ s.port.isA := by
  cases h : i.pins.rst
  · simp [s.clock_of_no_reset i h]
  · simp [s.clock_of_reset i h]

/-- A tick writes `addrHigh` only in reset, and then with its constant (10_state.md R42, R51). -/
theorem State.clock_addrHigh (s : State) (i : Inputs) (hs : s.br.addrHigh = s.cfg.highAddr) :
    (s.clock i).br.addrHigh = s.cfg.highAddr := by
  cases h : i.pins.rst
  · simp [s.clock_of_no_reset i h, hs]
  · simp [s.clock_of_reset i h, Bridge.resetValue]

theorem State.tick_preserves (s : State) (p : Pins) : s.Preserves (s.tick p) where
  cfg := s.tick_cfg p
  transport := (s.clock_port_isA (s.inputs p)).symm
  record := List.prefix_append _ _
  served := List.prefix_append _ _
  seen := List.prefix_append _ _
  todo := s.tick_todo p
  addrHigh := s.clock_addrHigh (s.inputs p)
  slave := (s.slave.after_isMs s.outputs).symm

theorem State.runFrame_preserves (s : State) (f : Frame) : s.Preserves (s.runFrame f) :=
  State.runFrame_keeps s.Preserves (fun t p ht => ht.trans (t.tick_preserves p)) f s (.refl s)

/-- A step preserves the state with the head of `todo` taken off. -/
theorem step_preserves {s t : State} (h : step s = .next t) : s.pop.Preserves t := by
  obtain ⟨p, rfl⟩ | ⟨f, rfl⟩ := step_cases h
  · exact s.pop.tick_preserves p
  · exact s.pop.runFrame_preserves f

/-- Settles O52: a step is a tick or a run of ticks, and every tick preserves what `State.Preserves` lists. -/
theorem stepKeepsInstance : Obligations.StepKeepsInstance := by
  unfold Obligations.StepKeepsInstance
  intro s t h
  obtain ⟨hcfg, hport, hrecord, hserved, hseen, htodo, haddr, hslave⟩ := step_preserves h
  exact ⟨hcfg, hport, hrecord, hserved, hseen, htodo, haddr, hslave⟩

end Sys2Proof.Machine
end

section
/-! SUPPORT. The state of the block (10_state.md): what it is after reset (R51), which step is a tick (R50), the partial
flag (R30), and that reset and every tick keep the invariant of R52 with its companions. Each part of the block has one
lemma for reset and one for a tick; `State.tick_inv` joins them. -/

namespace Sys2Proof.Machine

/-! ## Transport A: the operation of a tick and what it keeps (41_transport_a.md R134) -/

/-- `start` and `done` exclude each other (41_transport_a.md R121). -/
theorem PortA.done_of_start (a : PortA) (y : Sync) (h : a.start y = true) : a.done y = false := by
  have hsel : y.selS = true := (Bool.and_eq_true_iff.1 h).1
  simp [PortA.done, hsel]

/-- Every operation of Transport A, with the condition under which it is the one of the tick. -/
theorem PortA.operate_cases (a : PortA) (y : Sync) (t : Byte) :
    (a.start y = true ∧ a.operate y t = a.onStart t) ∨
    (a.done y = true ∧ a.operate y t = a.onDone) ∨
    (a.active y = true ∧ a.rise y = true ∧ a.operate y t = a.onRise y.mosiS) ∨
    (a.active y = true ∧ a.fall y = true ∧ a.byteDone = true ∧ a.operate y t = a.onByte t) ∨
    (a.active y = true ∧ a.fall y = true ∧ a.byteDone = false ∧ a.operate y t = a.onShift) ∨
    (a.done y = false ∧ (a.active y && a.fall y) = false ∧ a.operate y t = a) := by
  unfold PortA.operate
  split_ifs <;> simp_all

/-- The partial flag after a tick: set before, or a partial frame ends now (label E1; 41_transport_a.md R123). -/
theorem PortA.next_partialFlag (a : PortA) (y : Sync) (t : Byte) :
    (a.next y t).partialFlag = (a.partialFlag || (a.done y && a.incomplete)) := by
  have hnext : (a.next y t).partialFlag = (a.operate y t).partialFlag := rfl
  rw [hnext]
  rcases a.operate_cases y t with
    ⟨hs, ho⟩ | ⟨hd, ho⟩ | ⟨ha, -, ho⟩ | ⟨ha, -, -, ho⟩ | ⟨ha, -, -, ho⟩ | ⟨hd, -, ho⟩ <;> rw [ho]
  · simp [PortA.onStart, a.done_of_start y hs]
  · simp [PortA.onDone, hd]
  · simp [PortA.onRise, (a.active_excl y ha).2]
  · simp [PortA.onByte, (a.active_excl y ha).2]
  · simp [PortA.onShift, (a.active_excl y ha).2]
  · simp [hd]

/-- A whole byte is waiting only where the count has wrapped to 0, with the clock high and the chip selected: a rise sets
`byteDone` at count 7, and every fall or deselect clears it. -/
theorem PortA.next_inv (a : PortA) (y : Sync) (t : Byte) (h : a.Inv) : (a.next y t).Inv := by
  intro hb
  change (a.operate y t).byteDone = true at hb
  change (a.operate y t).bitCount = 0#3 ∧ y.sclkS = true ∧ y.selS = true
  rcases a.operate_cases y t with
    ⟨-, ho⟩ | ⟨-, ho⟩ | ⟨ha, hr, ho⟩ | ⟨-, -, -, ho⟩ | ⟨-, -, hn, ho⟩ | ⟨hd, hf, ho⟩ <;> rw [ho] at hb ⊢
  · simp [PortA.onStart] at hb
  · simp [PortA.onDone] at hb
  · obtain ⟨hclk, hprev⟩ : y.sclkS = true ∧ a.sclkPrev = false := by simpa [PortA.rise] using hr
    obtain ⟨hsel, -⟩ : y.selS = true ∧ a.selPrev = true := by simpa [PortA.active] using ha
    have hnot : a.byteDone = false := by
      by_contra hbd
      simp [(h (by simpa using hbd)).2.1] at hprev
    have h7 : a.bitCount = 7#3 := by simpa [PortA.onRise, hnot] using hb
    exact ⟨by simp [PortA.onRise, h7], hclk, hsel⟩
  · simp [PortA.onByte] at hb
  · simp [PortA.onShift, hn] at hb
  · obtain ⟨hcount, hclk, hsel⟩ := h hb
    have hsel' : y.selS = true := by simpa [PortA.done, hsel] using hd
    have hclk' : y.sclkS = true := by simpa [PortA.active, PortA.fall, hsel, hsel', hclk] using hf
    exact ⟨hcount, hclk', hsel'⟩

/-! ## Transport B and the transport that is present -/

/-- Only in IDLE may a received byte be waiting to be shown. -/
theorem PortB.Inv.rxStrobe_eq_false {b : PortB} (h : b.Inv) (hst : b.state ≠ .idle) : b.rxStrobe = false := by
  by_contra hrx
  exact hst (h.1 (by simpa using hrx)).1

/-- A new level of busy is latched on leaving POLL and a received byte on leaving RXREAD, where busy is settled; what is
shown in IDLE is cleared there (42_transport_b.md R154 to R156, R158). -/
theorem PortB.next_inv (b : PortB) (p : Params) (k : Bool) (d t : Byte) (h : b.Inv) : (b.next p k d t).Inv := by
  cases hst : b.state with
  | reset =>
    obtain ⟨hbusy, -, hrx⟩ := h.2.2 hst
    rw [b.next_reset p k d t hst, PortB.inReset]
    cases k <;> simp [PortB.Inv, hst, hbusy, hrx]
  | idle =>
    rw [b.next_idle p k d t hst]
    simp [PortB.Inv, PortB.inIdle]
  | poll =>
    have hrx : b.rxStrobe = false := h.rxStrobe_eq_false (by simp [hst])
    rw [b.next_poll p k d t hst, PortB.inPoll]
    split_ifs <;> simp [PortB.Inv, hst, hrx]
  | rxread =>
    have hrx : b.rxStrobe = false := h.rxStrobe_eq_false (by simp [hst])
    rw [b.next_rxread p k d t hst, PortB.inRxRead]
    cases k <;> simp [PortB.Inv, hst, hrx]
  | txwrite =>
    have hrx : b.rxStrobe = false := h.rxStrobe_eq_false (by simp [hst])
    rw [b.next_txwrite p k d t hst, PortB.inTxWrite]
    cases k <;> simp [PortB.Inv, hst, hrx]

theorem Port.resetValue_inv (q : Port) : q.resetValue.Inv := by
  cases q with
  | a y a => simp [Port.resetValue, PortA.resetValue]
  | b b => simp [Port.Inv, PortB.Inv, Port.resetValue, PortB.resetValue]

theorem Port.next_inv (q : Port) (p : Params) (i : Inputs) (x : Byte) (h : q.Inv) : (q.next p i x).Inv := by
  cases q with
  | a y a => exact a.next_inv y x h
  | b b => exact b.next_inv p _ _ x h

/-! ## The Bridge -/

theorem Bridge.resetValue_inv (p : Params) : (Bridge.resetValue p).Inv p := by
  simp [Bridge.Inv, Bridge.resetValue]

theorem Bridge.outgoing_inv (b : Bridge) (p : Params) (e : Events) (s : BusSide) (h : b.Inv p) :
    (b.outgoing e s).Inv p := by
  obtain ⟨htx, hread, hwrite, haddr⟩ := h
  exact ⟨b.outgoing_txLeft_le e s htx, by simpa using hread, by simpa using hwrite, by simpa using haddr⟩

/-- Outside a bus cycle the invariant asks only for the range of `txLeft` and the constant `addrHigh`. -/
theorem Bridge.inv_of_not_inCycle {b : Bridge} {p : Params} (hr : b.state ≠ .read) (hw : b.state ≠ .write)
    (htx : b.txLeft ≤ 4#3) (haddr : b.addrHigh = p.highAddr) : b.Inv p :=
  ⟨htx, fun h => absurd h hr, fun h => absurd h hw, haddr⟩

/-- A byte enters Read only at count 3 with READ's opcode, and Write only at count 7 with WRITE's (43_bridge.md R188,
R189). -/
theorem Bridge.onByte_inv (b : Bridge) (p : Params) (x : Byte) (hst : b.state = .command) (h : b.Inv p) :
    (b.onByte x).Inv p := by
  obtain ⟨htx, -, -, haddr⟩ := h
  by_cases h1 : b.count = 1#3
  · rw [b.onByte_one x h1]
    exact Bridge.inv_of_not_inCycle (by simp [Bridge.accumulate, hst]) (by simp [Bridge.accumulate, hst]) htx haddr
  by_cases h3 : b.count = 3#3
  · rw [b.onByte_three x h3]
    by_cases ho : b.opcode = Config.opcRead <;>
      simp [Bridge.Inv, Bridge.accumulate, countUp, h3, ho, hst, htx, haddr]
  by_cases h7 : b.count = 7#3 ∧ b.opcode = Config.opcWrite
  · obtain ⟨hk, ho⟩ := h7
    rw [b.onByte_seven_write x hk ho]
    simp [Bridge.Inv, Bridge.accumulate, countUp, hk, ho, htx, haddr]
  · rw [b.onByte_plain x h1 h3 (not_and_or.1 h7)]
    exact Bridge.inv_of_not_inCycle (by simp [Bridge.accumulate, hst]) (by simp [Bridge.accumulate, hst]) htx haddr

/-- A counter that is 0 or `n` is so after a tick that may clear it (43_bridge.md R197). -/
theorem clearedCount_eq_or {k n : BitVec 3} (c : Bool) (h : k = 0#3 ∨ k = n) :
    (if c then 0#3 else k) = 0#3 ∨ (if c then 0#3 else k) = n := by
  cases c with
  | false => exact h
  | true => exact .inl rfl

/-- In a bus cycle a tick ends the cycle, or keeps it with its opcode and at most clears the counter (43_bridge.md R193 to
R195, R197). -/
theorem Bridge.next_inv_of_inCycle (b : Bridge) (p : Params) (e : Events) (s : BusSide)
    (hcyc : b.state = .read ∨ b.state = .write) (h : b.Inv p) : (b.next e s).Inv p := by
  obtain ⟨htx, hread, hwrite, haddr⟩ := b.outgoing_inv p e s h
  rw [b.next_cycle e s hcyc]
  cases s.ack with
  | true => exact Bridge.inv_of_not_inCycle (by simp) (by simp) htx haddr
  | false =>
    refine ⟨htx, fun hst => ?_, fun hst => ?_, haddr⟩
    · obtain ⟨hcount, hop⟩ := hread (by simpa using hst)
      exact ⟨clearedCount_eq_or e.done (by simpa using hcount), hop⟩
    · obtain ⟨hcount, hop⟩ := hwrite (by simpa using hst)
      exact ⟨clearedCount_eq_or e.done (by simpa using hcount), hop⟩

theorem Bridge.next_inv (b : Bridge) (p : Params) (e : Events) (s : BusSide) (h : b.Inv p) : (b.next e s).Inv p := by
  have ho := b.outgoing_inv p e s h
  obtain ⟨htx, -, -, haddr⟩ := b.outgoing_inv p e s h
  cases hst : b.state with
  | idle =>
    cases hs : e.start with
    | true =>
      rw [b.next_start e s (.inl hst) hs]
      exact Bridge.inv_of_not_inCycle (by simp [Bridge.onStart]) (by simp [Bridge.onStart]) htx haddr
    | false =>
      rw [b.next_idle e s hst hs]
      exact Bridge.inv_of_not_inCycle (by simp [hst]) (by simp [hst]) htx haddr
  | command =>
    cases hs : e.start with
    | true =>
      rw [b.next_start e s (.inr hst) hs]
      exact Bridge.inv_of_not_inCycle (by simp [Bridge.onStart]) (by simp [Bridge.onStart]) htx haddr
    | false =>
      cases hd : e.done with
      | true =>
        rw [b.next_command_done e s hst hs hd]
        exact Bridge.inv_of_not_inCycle (by simp) (by simp) htx haddr
      | false =>
        cases hb : e.byteReady with
        | true =>
          rw [b.next_command_byte e s hst hs hd hb]
          exact Bridge.onByte_inv _ p e.byte (by simp [hst]) ho
        | false =>
          rw [b.next_command_quiet e s hst hs hd hb]
          exact ho
  | read => exact b.next_inv_of_inCycle p e s (.inl hst) h
  | write => exact b.next_inv_of_inCycle p e s (.inr hst) h

/-! ## The state -/

theorem Slave.after_inv (v : Slave) (o : Outputs) (h : v.Inv) : (v.after o).Inv := by
  cases v with
  | script l => trivial
  | ms m =>
    rw [Slave.after]
    split
    · exact m.write_wf _ _ h
    · exact h

theorem State.resetWith_inv (p : Params) (q : Port) (h : p.wf = true) : (State.resetWith p q).Inv :=
  ⟨h, q.resetValue_inv, Bridge.resetValue_inv p, trivial⟩

/-- The registers after a tick, reset or not, meet the invariants of the transport and of the Bridge. -/
theorem State.clock_inv (s : State) (i : Inputs) (hport : s.port.Inv) (hbr : s.br.Inv s.cfg) :
    (s.clock i).port.Inv ∧ (s.clock i).br.Inv s.cfg := by
  cases hr : i.pins.rst with
  | false =>
    rw [s.clock_of_no_reset i hr]
    exact ⟨s.port.next_inv s.cfg i _ hport, s.br.next_inv s.cfg _ _ hbr⟩
  | true =>
    rw [s.clock_of_reset i hr]
    exact ⟨s.port.resetValue_inv, Bridge.resetValue_inv s.cfg⟩

theorem State.tick_inv (s : State) (p : Pins) (h : s.Inv) : (s.tick p).Inv := by
  obtain ⟨hcfg, hport, hbr, hslave⟩ := h
  obtain ⟨hport', hbr'⟩ := s.clock_inv (s.inputs p) hport hbr
  rw [State.Inv, s.tick_cfg p]
  exact ⟨hcfg, hport', hbr', s.slave.after_inv s.outputs hslave⟩

/-- Settles O51: a step is a tick or a run of ticks, and every tick keeps the invariant of each part. -/
theorem stepKeepsInvariant : Obligations.StepKeepsInvariant := by
  unfold Obligations.StepKeepsInvariant
  intro s t hs h
  have hpop : s.pop.Inv := hs
  obtain ⟨p, rfl⟩ | ⟨f, rfl⟩ := step_cases h
  · exact s.pop.tick_inv p hpop
  · exact State.runFrame_keeps State.Inv State.tick_inv f s.pop hpop

/-! ## Reset and the tick (10_state.md R50, R51) -/

/-- Settles O7: each part's reset value meets its invariant, and the parameters of `State.reset` are in their ranges. -/
theorem resetHasInvariant : Obligations.ResetHasInvariant := by
  unfold Obligations.ResetHasInvariant
  exact ⟨State.resetWith_inv Config.params _ (by decide), State.resetWith_inv⟩

/-- Settles O2: `step` looks at the head of `todo` alone. -/
theorem stepRunsTick : Obligations.StepRunsTick := by
  unfold Obligations.StepRunsTick
  intro s
  constructor
  · intro p rest h
    simp [step, h, execTick, State.pop]
  · intro h
    simp [step, h, execTick]

/-- With the address field at 0, an address in range is the constant upper part alone (44_bus_transactor.md R221). -/
theorem busAddr_zero (p : Params) (hp : p.wf = true) : busAddr p p.highAddr 0#16 = p.highAddr * 2 ^ 16 := by
  obtain ⟨hw, hhigh⟩ : 16 ≤ p.busAddrW ∧ p.highAddr < 2 ^ (p.busAddrW - 16) := by
    simp only [Params.wf, Bool.and_eq_true, decide_eq_true_eq] at hp
    obtain ⟨⟨⟨⟨⟨hw, hhigh⟩, -⟩, -⟩, -⟩, -⟩ := hp
    exact ⟨hw, hhigh⟩
  have hlt : p.highAddr * 2 ^ 16 < 2 ^ p.busAddrW := by
    calc p.highAddr * 2 ^ 16 < 2 ^ (p.busAddrW - 16) * 2 ^ 16 := by gcongr
      _ = 2 ^ p.busAddrW := by rw [← pow_add, Nat.sub_add_cancel hw]
  simpa [busAddr] using Nat.mod_eq_of_lt hlt

/-- Settles O6: `State.resetWith` puts the reset values of R51, and the outputs read them; `adr` needs `HIGH_ADDR` in its
range. -/
theorem initialState : Obligations.InitialState := by
  unfold Obligations.InitialState
  intro p port hp
  refine ⟨rfl, rfl, rfl, rfl, rfl, busAddr_zero p hp, rfl, ?_, ?_, _, rfl⟩
  · rintro y a rfl
    exact ⟨rfl, rfl⟩
  · rintro b rfl
    exact ⟨rfl, rfl⟩

/-! ## The partial flag (10_state.md R30) -/

/-- The transport after a tick without reset. -/
theorem State.tick_port_of_no_reset (s : State) (p : Pins) (hr : p.rst = false) :
    (s.tick p).port = s.port.next s.cfg (s.inputs p) (s.txByte (s.inputs p)) := by
  rw [State.tick, State.tickWith_port, s.clock_of_no_reset (s.inputs p) hr, State.advance_port]

/-- The transport after a reset tick. -/
theorem State.tick_port_of_reset (s : State) (p : Pins) (hr : p.rst = true) :
    (s.tick p).port = s.port.resetValue := by
  rw [State.tick, State.tickWith_port, s.clock_of_reset (s.inputs p) hr, State.takeReset_port]

/-- Transport A is present and its partial flag is set. -/
def Port.flagged (q : Port) : Prop := ∃ y a, q = .a y a ∧ a.partialFlag = true

theorem Port.next_flagged (q : Port) (p : Params) (i : Inputs) (x : Byte) (h : q.flagged) : (q.next p i x).flagged := by
  obtain ⟨y, a, rfl, hf⟩ := h
  exact ⟨_, _, rfl, by rw [a.next_partialFlag, hf, Bool.true_or]⟩

/-- A tick without reset keeps a set flag. -/
theorem State.tick_flagged (s : State) (p : Pins) (hr : p.rst = false) (h : s.port.flagged) :
    (s.tick p).port.flagged := by
  rw [s.tick_port_of_no_reset p hr]
  exact s.port.next_flagged s.cfg _ _ h

/-- The master's standard timing never asks for a reset. -/
theorem framePins_rst (f : Frame) : ∀ p ∈ framePins f, p.rst = false := by
  intro p hp
  simp only [framePins, bitPins, endPins, List.mem_append, List.mem_flatMap, List.mem_replicate] at hp
  obtain ⟨m, -, ⟨-, rfl⟩ | ⟨-, rfl⟩⟩ | ⟨-, rfl⟩ | ⟨-, rfl⟩ := hp <;> rfl

/-- What every tick without reset keeps, a run without reset keeps. -/
theorem State.run_keeps_of_no_reset (P : State → Prop) (h : ∀ s p, p.rst = false → P s → P (s.tick p)) (l : List Pins)
    (hl : ∀ p ∈ l, p.rst = false) (s : State) (hs : P s) : P (s.run l) := by
  induction l generalizing s with
  | nil => exact hs
  | cons p l ih =>
    rw [List.forall_mem_cons] at hl
    exact ih hl.2 _ (h s p hl.1 hs)

/-- No frame clears the flag. -/
theorem State.runFrame_flagged (s : State) (f : Frame) (h : s.port.flagged) : (s.runFrame f).port.flagged := by
  obtain ⟨y, a, hp, hf⟩ := h
  have hrun : s.runFrame f = s.run (framePins f) := by simp [State.runFrame, hp]
  rw [hrun]
  exact State.run_keeps_of_no_reset (fun t => t.port.flagged) State.tick_flagged _ (framePins_rst f) s ⟨y, a, hp, hf⟩

/-- Settles O17: `PortA.next_partialFlag` is the tick, and a command is a run of ticks without reset. -/
theorem partialFlagIsSticky : Obligations.PartialFlagIsSticky := by
  unfold Obligations.PartialFlagIsSticky
  constructor
  · intro s y a p hp
    have hout : s.outputs.port = .a a.txShift.msb a.partialFlag := by
      simp [State.outputs, Bridge.outputs, Port.out, PortA.out, hp]
    refine ⟨⟨_, hout⟩, ?_⟩
    cases hr : p.rst with
    | true =>
      have hport : (s.tick p).port = .a Sync.resetValue PortA.resetValue := by
        rw [s.tick_port_of_reset p hr, hp, Port.resetValue]
      exact ⟨_, _, hport, fun _ => rfl, by simp⟩
    | false =>
      have hport : (s.tick p).port = .a (y.next p) (a.next y (s.txByte (s.inputs p))) := by
        rw [s.tick_port_of_no_reset p hr, hp, Port.next, State.inputs_pins]
      refine ⟨_, _, hport, by simp, fun _ => ?_⟩
      simp [a.next_partialFlag, PortA.done, PortA.incomplete, Sync.selS, and_assoc]
  · intro i s y a t hp hf h
    rw [exec_eq_runFrame_encode] at h
    cases h
    exact s.runFrame_flagged (encode i) ⟨y, a, hp, hf⟩

end Sys2Proof.Machine
end

section
/-! SUPPORT. Addresses and the outgoing-byte source (20_memory.md R61, R67; 43_bridge.md R181, R196): a bus address in
range is `HIGH_ADDR * 2^16 + a`, and a word that waits goes out byte by byte over any ticks that load no other word. -/

namespace Sys2Proof.Machine

/-! ## Addresses (20_memory.md R61) -/

/-- With parameters in range no address is reduced: `HIGH_ADDR * 2^16 + a` fits in `BUS_ADDR_W` bits. -/
theorem highAddr_add_lt (p : Params) (hp : p.wf = true) (a : AddrField) :
    p.highAddr * 2 ^ 16 + a.toNat < 2 ^ p.busAddrW := by
  obtain ⟨hw, hhigh⟩ : 16 ≤ p.busAddrW ∧ p.highAddr < 2 ^ (p.busAddrW - 16) := by
    simp only [Params.wf, Bool.and_eq_true, decide_eq_true_eq] at hp
    obtain ⟨⟨⟨⟨⟨hw, hhigh⟩, -⟩, -⟩, -⟩, -⟩ := hp
    exact ⟨hw, hhigh⟩
  calc p.highAddr * 2 ^ 16 + a.toNat < (p.highAddr + 1) * 2 ^ 16 := by
        have := a.isLt
        omega
    _ ≤ 2 ^ (p.busAddrW - 16) * 2 ^ 16 := Nat.mul_le_mul_right _ hhigh
    _ = 2 ^ p.busAddrW := by rw [← pow_add, Nat.sub_add_cancel hw]

/-- The bus address under the invariant (10_state.md R42, 44_bus_transactor.md R221). -/
theorem Bridge.adr_of_inv (b : Bridge) (p : Params) (hp : p.wf = true) (hb : b.Inv p) :
    b.adr p = p.highAddr * 2 ^ 16 + b.addr.toNat := by
  obtain ⟨-, -, -, hhigh⟩ := hb
  rw [Bridge.adr, busAddr, hhigh, Nat.mod_eq_of_lt (highAddr_add_lt p hp b.addr)]

/-- Every entry a tick adds to the record has the bus address of that tick (44_bus_transactor.md R231). -/
theorem Bridge.adr_of_mem_recorded (b : Bridge) (p : Params) (rst : Bool) (s : BusSide) (e : BusEntry)
    (he : e ∈ b.recorded p rst s) : e.adr = b.adr p := by
  unfold Bridge.recorded at he
  split_ifs at he <;> simp_all [Bridge.entry]

/-- Settles O33: the invariant holds `addrHigh` at `HIGH_ADDR`, and a tick records the address it drives. -/
theorem addressWindow : Obligations.AddressWindow := by
  unfold Obligations.AddressWindow
  intro s hs
  obtain ⟨hcfg, -, hbr, -⟩ := hs
  have hadr := s.br.adr_of_inv s.cfg hcfg hbr
  have hlt : s.br.adr s.cfg < 2 ^ s.cfg.busAddrW := hadr ▸ highAddr_add_lt s.cfg hcfg s.br.addr
  refine ⟨hadr, hlt, fun p e he => ?_⟩
  rcases List.mem_append.1 he with he | he
  · exact .inl he
  · exact .inr ⟨s.br.addr, by rw [s.br.adr_of_mem_recorded s.cfg _ _ e he, hadr]⟩

/-! ## The outgoing source over a tick (43_bridge.md R181, R196) -/

/-- A received byte does not touch the outgoing source. -/
theorem Bridge.onByte_source (b : Bridge) (x : Byte) :
    (b.onByte x).txWord = b.txWord ∧ (b.onByte x).txLeft = b.txLeft := by
  unfold Bridge.onByte Bridge.dispatchWrite Bridge.dispatchRead Bridge.captureOpcode Bridge.accumulate
  split_ifs <;> exact ⟨rfl, rfl⟩

/-- The state machine does not touch the outgoing source. -/
theorem Bridge.fsm_source (b : Bridge) (e : Events) (ack : Bool) :
    (b.fsm e ack).txWord = b.txWord ∧ (b.fsm e ack).txLeft = b.txLeft := by
  unfold Bridge.fsm
  split
  · split_ifs <;> exact ⟨rfl, rfl⟩
  · split_ifs
    · exact ⟨rfl, rfl⟩
    · exact ⟨rfl, rfl⟩
    · exact b.onByte_source e.byte
    · exact ⟨rfl, rfl⟩
  · split_ifs <;> exact ⟨rfl, rfl⟩
  · split_ifs <;> exact ⟨rfl, rfl⟩

/-- Of the three parts of a tick only `Bridge.outgoing` writes the outgoing source (43_bridge.md R199). -/
theorem Bridge.next_source (b : Bridge) (e : Events) (s : BusSide) :
    (b.next e s).txWord = (b.outgoing e s).txWord ∧ (b.next e s).txLeft = (b.outgoing e s).txLeft := by
  have h := ((b.outgoing e s).clearOnDone e).fsm_source e s.ack
  rw [Bridge.clearOnDone_eq] at h
  rw [Bridge.next, Bridge.clearOnDone_eq]
  exact h

/-! ## A word going out byte by byte (20_memory.md R67) -/

@[simp] theorem wordBytes_length (w : Word) : (wordBytes w).length = 4 := rfl

/-- A word has no more than four bytes to give. -/
theorem take_take_wordBytes (w : Word) (n : Nat) {k : Nat} (hk : 4 ≤ k) :
    ((wordBytes w).take n).take k = (wordBytes w).take n :=
  List.take_of_length_le ((List.length_take_le' n _).trans hk)

/-- The top byte of a word shifted by `k` bytes is its byte `k`, most significant first. -/
theorem wordBytes_getElem (w : Word) (k : Nat) (hk : k < 4) :
    (wordBytes w)[k]'(by simpa using hk) = (w <<< (8 * k)).extractLsb' 24 8 := by
  have hcases : k = 0 ∨ k = 1 ∨ k = 2 ∨ k = 3 := by omega
  apply BitVec.eq_of_getLsbD_eq
  intro i hi
  have hshift : 24 + i - 8 = 16 + i ∧ 24 + i - 16 = 8 + i ∧ 24 + i - 24 = i := by omega
  have hrange : 24 + i < 32 ∧ ¬ 24 + i < 8 ∧ ¬ 24 + i < 16 ∧ ¬ 24 + i < 24 := by omega
  rcases hcases with rfl | rfl | rfl | rfl <;> simp [wordBytes, hi, hshift, hrange] <;> rfl

/-- The outgoing source of `b` is what is left of the word `w`, of which `n` bytes waited, after requests that took the
bytes `new`: they got the waiting bytes in order, and fill bytes after those. -/
structure Bridge.DrainedFrom (b : Bridge) (w : Word) (n : Nat) (new : List Byte) : Prop where
  left : b.txLeft.toNat = n - new.length
  word : b.txWord = w <<< (8 * min new.length n)
  bytes : new.take n = ((wordBytes w).take n).take new.length

/-- Before the first request the whole word waits. -/
theorem Bridge.DrainedFrom.nil (b : Bridge) : b.DrainedFrom b.txWord b.txLeft.toNat [] where
  left := by simp
  word := by simp
  bytes := by simp

/-- A request outside a read acknowledge takes the next waiting byte, or a fill byte once none is left. -/
theorem Bridge.DrainedFrom.request {b : Bridge} {w : Word} {n : Nat} {new : List Byte} (h : b.DrainedFrom w n new)
    (hn : n ≤ 4) (e : Events) (s : BusSide) (hl : ¬(b.state = .read ∧ s.ack = true)) (hr : e.txReq = true) :
    (b.next e s).DrainedFrom w n (new ++ [b.txByte s.fill]) := by
  obtain ⟨hleft, hword, hbytes⟩ := h
  obtain ⟨hnw, hnl⟩ := b.next_source e s
  have hpos : 0#3 < b.txLeft ↔ new.length < n := by
    rw [BitVec.lt_def, hleft]
    simp
  by_cases hk : new.length < n
  · have hwaits : 0#3 < b.txLeft := hpos.2 hk
    rw [b.outgoing_drain e s hl hr hwaits] at hnw hnl
    refine ⟨?_, ?_, ?_⟩
    · have hdec : (b.txLeft - 1#3).toNat = b.txLeft.toNat - 1 := by bv_omega
      rw [hnl, Bridge.drainByte, hdec, hleft, List.length_append, List.length_singleton, Nat.sub_sub]
    · rw [hnw, Bridge.drainByte, hword, ← BitVec.shiftLeft_add, List.length_append, List.length_singleton,
        min_eq_left hk.le, min_eq_left hk, Nat.mul_succ]
    · have hlen : new.length < (wordBytes w).length := by simp; omega
      have hbyte : b.txByte s.fill = (wordBytes w)[new.length] := by
        rw [wordBytes_getElem w _ hlen, Bridge.txByte, if_pos hwaits, hword, min_eq_left hk.le]
      rw [List.take_of_length_le hk.le, List.take_take, min_eq_left hk.le] at hbytes
      rw [List.take_of_length_le (by simpa using hk), List.take_take, List.length_append, List.length_singleton,
        min_eq_left hk, List.take_add_one, ← hbytes, hbyte, List.getElem?_eq_getElem hlen, Option.toList_some]
  · rw [b.outgoing_keep e s hl (.inr (fun h => hk (hpos.1 h)))] at hnw hnl
    have hge : n ≤ new.length := Nat.le_of_not_lt hk
    refine ⟨?_, ?_, ?_⟩
    · rw [hnl, hleft, List.length_append]
      omega
    · rw [hnw, hword, List.length_append, min_eq_right hge, min_eq_right (by omega)]
    · rw [List.take_append_of_le_length hge, hbytes, List.take_take, List.take_take, List.length_append,
        min_eq_right hge, min_eq_right (by omega)]

/-- A tick without a request and without a read acknowledge takes nothing. -/
theorem Bridge.DrainedFrom.keep {b : Bridge} {w : Word} {n : Nat} {new : List Byte} (h : b.DrainedFrom w n new)
    (e : Events) (s : BusSide) (hl : ¬(b.state = .read ∧ s.ack = true)) (hr : e.txReq = false) :
    (b.next e s).DrainedFrom w n new := by
  obtain ⟨hleft, hword, hbytes⟩ := h
  obtain ⟨hnw, hnl⟩ := b.next_source e s
  rw [b.outgoing_keep e s hl (.inl hr)] at hnw hnl
  exact ⟨hnl ▸ hleft, hnw ▸ hword, hbytes⟩

/-- Between the states `s` and `t` the requests took bytes of the word that waits in `s`, in order. -/
def State.DrainsTo (s t : State) : Prop :=
  ∃ new, t.served = s.served ++ new ∧ t.br.DrainedFrom s.br.txWord s.br.txLeft.toNat new

theorem State.DrainsTo.refl (s : State) : s.DrainsTo s := ⟨[], by simp, .nil s.br⟩

/-- A tick that loads no other word goes on taking bytes of the word that waits. -/
theorem State.DrainsTo.tick {s t : State} (h : s.DrainsTo t) (hs : s.br.txLeft ≤ 4#3) (e : Events)
    (hl : ¬(t.br.state = .read ∧ t.bus.ack = true)) : s.DrainsTo (t.bridgeTick e) := by
  obtain ⟨new, hserved, hdrained⟩ := h
  have hn : s.br.txLeft.toNat ≤ 4 := by simpa [BitVec.le_def] using hs
  cases hr : e.txReq with
  | false => exact ⟨new, by simp [hr, hserved], hdrained.keep e t.bus hl hr⟩
  | true => exact ⟨_, by simp [hr, hserved], hdrained.request hn e t.bus hl hr⟩

/-- Taking bytes does not depend on the transport. -/
theorem State.DrainsTo.setPort {s t : State} (h : s.DrainsTo t) (q : Port) : s.DrainsTo (t.setPort q) := h

/-- What a script slave drives is its next reply. -/
theorem State.bus_of_script (s : State) (r : BusSide) (rs : List BusSide) (h : s.slave = .script (r :: rs)) :
    s.bus = r := by
  rw [State.bus, h, Slave.drive]

/-- A tick moves a script slave on to its next reply. -/
theorem State.tick_slave_of_script (s : State) (p : Pins) (r : BusSide) (rs : List BusSide)
    (h : s.slave = .script (r :: rs)) : (s.tick p).slave = .script rs := by
  rw [State.tick, State.tickWith_slave, h, Slave.after, List.tail_cons]

/-- Over a run without reset and without an acknowledge the word that waits goes out in order. -/
theorem State.DrainsTo.run {s t : State} (h : s.DrainsTo t) (hs : s.br.txLeft ≤ 4#3) (l : List Pins)
    (rs : List BusSide) (ht : t.slave = .script rs) (hack : ∀ x ∈ rs, x.ack = false) (hlen : l.length ≤ rs.length)
    (hrst : ∀ q ∈ l, q.rst = false) : s.DrainsTo (t.run l) := by
  induction l generalizing t rs with
  | nil => exact h
  | cons p l ih =>
    cases rs with
    | nil => simp at hlen
    | cons r rs =>
      rw [List.forall_mem_cons] at hack hrst
      have htick : s.DrainsTo (t.tick p) := by
        rw [t.tick_eq p hrst.1]
        exact (h.tick hs _ (by simp [t.bus_of_script r rs ht, hack.1])).setPort _
      exact ih htick rs (t.tick_slave_of_script p r rs ht) hack.2 (by simpa using hlen) hrst.2

/-- The acknowledge of a read loads the word (43_bridge.md R193, R196). -/
theorem Bridge.next_source_of_load (b : Bridge) (e : Events) (s : BusSide) (h : b.state = .read) (ha : s.ack = true) :
    (b.next e s).txWord = s.datR ∧ (b.next e s).txLeft = 4#3 := by
  have hsource := b.next_source e s
  rwa [b.outgoing_load e s h ha] at hsource

/-- Settles O44: the acknowledge loads `D` with four bytes waiting, and the run that follows drains them. -/
theorem readWordDrainsInOrder : Obligations.ReadWordDrainsInOrder := by
  unfold Obligations.ReadWordDrainsInOrder
  intro s p l r rs hst hp hslave hr hack hlen hrst
  obtain ⟨hword, hleft⟩ : (s.tick p).br.txWord = r.datR ∧ (s.tick p).br.txLeft = 4#3 := by
    have hbus := s.bus_of_script r rs hslave
    rw [s.tick_eq p hp, State.setPort_br, State.bridgeTick_br, hbus]
    exact s.br.next_source_of_load _ r hst hr
  obtain ⟨new, hserved, hleft', hword', hbytes⟩ := (State.DrainsTo.refl (s.tick p)).run (by simp [hleft]) l rs
    (s.tick_slave_of_script p r rs hslave) hack hlen hrst
  rw [hleft] at hleft' hword' hbytes
  rw [hword] at hword' hbytes
  exact ⟨new, hserved, hbytes, hleft', hword'⟩

end Sys2Proof.Machine
end

section
/-! SUPPORT. The bytes of a frame at the Bridge (30_encoding.md R86, R87; 43_bridge.md R182 to R191): what the Bridge holds
after the bytes `xs` of a frame, up to the byte that dispatches; what ticks outside a bus cycle leave unchanged; and the
events of a whole frame of either transport, cut at one of its bytes. -/

namespace Sys2Proof.Machine

/-! ## The events of a tick, told from what it shows (30_encoding.md R91) -/

theorem Events.visible_eq_nil {e : Events} (h : e.visible = []) :
    e.start = false ∧ e.byteReady = false ∧ e.done = false := by
  obtain ⟨start, ready, byte, done, req⟩ := e
  revert h
  cases start <;> cases ready <;> cases done <;> simp [Events.visible]

theorem Events.visible_eq_start {e : Events} (h : e.visible = [.start]) : e.start = true := by
  obtain ⟨start, ready, byte, done, req⟩ := e
  revert h
  cases start <;> cases ready <;> cases done <;> simp [Events.visible]

theorem Events.visible_eq_byteReady {e : Events} {x : Byte} (h : e.visible = [.byteReady x]) :
    e.start = false ∧ e.byteReady = true ∧ e.byte = x ∧ e.done = false := by
  obtain ⟨start, ready, byte, done, req⟩ := e
  revert h
  cases start <;> cases ready <;> cases done <;> simp [Events.visible]

theorem Events.visible_eq_done {e : Events} (h : e.visible = [.done]) : e.start = false ∧ e.done = true := by
  obtain ⟨start, ready, byte, done, req⟩ := e
  revert h
  cases start <;> cases ready <;> cases done <;> simp [Events.visible]

/-- Where no `Start` is shown, no event of the list is one. -/
theorem start_eq_false_of_shownBy {es : List Events} (h : FrameEvent.start ∉ shownBy es) :
    ∀ e ∈ es, e.start = false := by
  intro e he
  by_contra hs
  exact h (List.mem_flatMap.2 ⟨e, he, by simp [Events.visible, hs]⟩)

/-! ## The requests of a list of events (00_scope.md R14) -/

/-- How many of the events carry a request. -/
def requests (es : List Events) : Nat := es.countP Events.txReq

@[simp] theorem requests_nil : requests [] = 0 := rfl
@[simp] theorem requests_append (es fs : List Events) : requests (es ++ fs) = requests es + requests fs :=
  List.countP_append
@[simp] theorem requests_cons (e : Events) (es : List Events) :
    requests (e :: es) = requests es + if e.txReq then 1 else 0 := List.countP_cons
@[simp] theorem requests_replicate_quiet (n : Nat) : requests (List.replicate n Events.quiet) = 0 := by
  simp [requests, List.countP_replicate, Events.quiet]

/-- Where the events of every byte hold one request, those of a list of bytes hold one for each. -/
theorem requests_flatMap (g : Byte → List Events) (hg : ∀ b, requests (g b) = 1) (xs : List Byte) :
    requests (xs.flatMap g) = xs.length := by
  induction xs with
  | nil => rfl
  | cons x xs ih => rw [List.flatMap_cons, requests_append, hg, ih, List.length_cons, Nat.add_comm]

/-- The observer writes down one byte for each request, and unsays none. -/
theorem State.bridgeRun_served (es : List Events) (s : State) :
    ∃ new, (s.bridgeRun es).served = s.served ++ new ∧ new.length = requests es := by
  induction es generalizing s with
  | nil => exact ⟨[], by simp, rfl⟩
  | cons e es ih =>
    obtain ⟨new, hserved, hlen⟩ := ih (s.bridgeTick e)
    refine ⟨(if e.txReq then [s.br.txByte s.bus.fill] else []) ++ new, ?_, ?_⟩
    · rw [State.bridgeRun_cons, hserved, State.bridgeTick_served, List.append_assoc]
    · rw [List.length_append, hlen, requests_cons]
      split <;> simp [Nat.add_comm]

theorem State.bridgeRun_served_length (es : List Events) (s : State) :
    (s.bridgeRun es).served.length = s.served.length + requests es := by
  obtain ⟨new, hserved, hlen⟩ := s.bridgeRun_served es
  rw [hserved, List.length_append, hlen]

/-! ## The bytes of a frame up to its dispatch -/

/-- The bytes `xs` dispatch nothing: their command, if they hold its opcode, needs more of them (30_encoding.md R87). -/
def Undispatched (xs : List Byte) : Prop :=
  ∀ op n, xs[1]? = some op → dispatchLength op = some n → xs.length < n

/-- No command dispatches before byte 3. -/
theorem four_le_dispatchLength {op : Byte} {n : Nat} (h : dispatchLength op = some n) : 4 ≤ n := by
  unfold dispatchLength at h
  split at h
  · exact (Option.some.inj h).le
  · exact (Option.some.inj h).symm ▸ by decide
  · cases h

theorem undispatched_of_length_lt_four {xs : List Byte} (h : xs.length < 4) : Undispatched xs :=
  fun _ _ _ hn => h.trans_le (four_le_dispatchLength hn)

theorem Undispatched.of_append {xs ys : List Byte} (h : Undispatched (xs ++ ys)) : Undispatched xs := by
  intro op n hop hn
  have hlt := h op n (by rw [List.getElem?_append_left (List.getElem?_eq_some_iff.1 hop).1, hop]) hn
  rw [List.length_append] at hlt
  omega

/-- The Bridge decodes a frame of which it has received the bytes `xs`. -/
structure Bridge.Decoding (b : Bridge) (xs : List Byte) : Prop where
  state : b.state = .command
  count : b.count = BitVec.ofNat 3 (min xs.length 7)
  acc : b.acc = xs.foldl foldByte 0#32
  opcode : ∀ op, xs[1]? = some op → b.opcode = op
  addr : ∀ a1 a0, xs[2]? = some a1 → xs[3]? = some a0 → b.addr = addrOfBytes a1 a0

/-- A `Start` begins the decode of a frame without bytes (43_bridge.md R182). -/
theorem Bridge.decoding_onStart (b : Bridge) : b.onStart.Decoding [] where
  state := rfl
  count := rfl
  acc := rfl
  opcode := by simp
  addr := by simp

/-- The outgoing source takes no part in the decode. -/
theorem Bridge.Decoding.outgoing {b : Bridge} {xs : List Byte} (h : b.Decoding xs) (e : Events) (s : BusSide) :
    (b.outgoing e s).Decoding xs where
  state := by simpa using h.state
  count := by simpa using h.count
  acc := by simpa using h.acc
  opcode := by simpa using h.opcode
  addr := by simpa using h.addr

/-- The counter tells the number of bytes below 7 (43_bridge.md R186). -/
theorem Bridge.Decoding.count_eq_iff {b : Bridge} {xs : List Byte} (h : b.Decoding xs) {k : Nat} (hk : k < 7) :
    b.count = BitVec.ofNat 3 k ↔ xs.length = k := by
  rw [h.count, ← BitVec.toNat_inj, BitVec.toNat_ofNat, BitVec.toNat_ofNat]
  omega

theorem Bridge.Decoding.count_eq_seven_iff {b : Bridge} {xs : List Byte} (h : b.Decoding xs) :
    b.count = 7#3 ↔ 7 ≤ xs.length := by
  rw [h.count, ← BitVec.toNat_inj, BitVec.toNat_ofNat, BitVec.toNat_ofNat]
  omega

/-- The counter goes on to the next byte and stops at 7. -/
theorem countUp_ofNat (n : Nat) : countUp (BitVec.ofNat 3 (min n 7)) = BitVec.ofNat 3 (min (n + 1) 7) := by
  rcases Nat.lt_or_ge n 7 with h | h
  · interval_cases n <;> rfl
  · rw [min_eq_right h, min_eq_right (by omega)]
    rfl

/-- The counter and the accumulator after one more byte (43_bridge.md R186). -/
theorem Bridge.Decoding.accumulate {b : Bridge} {xs : List Byte} (h : b.Decoding xs) (x : Byte) :
    (b.accumulate x).count = BitVec.ofNat 3 (min (xs ++ [x]).length 7) ∧
      (b.accumulate x).acc = (xs ++ [x]).foldl foldByte 0#32 := by
  constructor
  · rw [Bridge.accumulate, h.count, countUp_ofNat, List.length_append, List.length_singleton]
  · rw [Bridge.accumulate, h.acc, List.foldl_append, List.foldl_cons, List.foldl_nil]

/-- The low half of the accumulator after byte 3 (43_bridge.md R188). -/
theorem Bridge.Decoding.addrOf_acc {b : Bridge} {l o a1 : Byte} (h : b.Decoding [l, o, a1]) (a0 : Byte) :
    addrOf (foldByte b.acc a0) = addrOfBytes a1 a0 := by
  rw [h.acc, List.foldl_cons, List.foldl_cons, List.foldl_cons, List.foldl_nil, addrOf_foldByte]

/-- A byte that dispatches nothing is one more byte of the frame (43_bridge.md R186 to R188). -/
theorem Bridge.Decoding.onByte {b : Bridge} {xs : List Byte} (h : b.Decoding xs) (x : Byte)
    (hx : Undispatched (xs ++ [x])) : (b.onByte x).Decoding (xs ++ [x]) := by
  obtain ⟨hcount, hacc⟩ := h.accumulate x
  by_cases h1 : xs.length = 1
  · obtain ⟨l, rfl⟩ := List.length_eq_one_iff.1 h1
    rw [b.onByte_one x ((h.count_eq_iff (by omega)).2 h1)]
    exact ⟨h.state, hcount, hacc, by simp [opcodeOf_foldByte], by simp⟩
  by_cases h3 : xs.length = 3
  · obtain ⟨l, o, a1, rfl⟩ := List.length_eq_three.1 h3
    have hop : b.opcode = o := h.opcode o rfl
    have hread : o ≠ Config.opcRead := by
      rintro rfl
      exact absurd (hx Config.opcRead 4 rfl rfl) (by simp)
    rw [b.onByte_three x ((h.count_eq_iff (by omega)).2 h3), hop, if_neg hread]
    exact ⟨h.state, hcount, hacc, by simpa [Bridge.accumulate] using hop, by simp [h.addrOf_acc]⟩
  · have h7 : b.count ≠ 7#3 ∨ b.opcode ≠ Config.opcWrite := by
      rw [Ne, h.count_eq_seven_iff, or_iff_not_imp_left, not_not]
      intro hlen hop
      have hget : xs[1]? = some Config.opcWrite := by
        rw [← hop, List.getElem?_eq_getElem (by omega), h.opcode _ (List.getElem?_eq_getElem (by omega))]
      have hlt := hx Config.opcWrite 8 (by rw [List.getElem?_append_left (by omega), hget]) rfl
      simp at hlt
      omega
    rw [b.onByte_plain x (mt (h.count_eq_iff (by omega)).1 h1) (mt (h.count_eq_iff (by omega)).1 h3) h7]
    refine ⟨h.state, hcount, hacc, fun op hop => ?_, fun a1 a0 ha1 ha0 => ?_⟩
    · have hlen := (List.getElem?_eq_some_iff.1 hop).1
      simp at hlen
      exact h.opcode op (by rwa [List.getElem?_append_left (by omega)] at hop)
    · have hlen := (List.getElem?_eq_some_iff.1 ha0).1
      simp at hlen
      refine h.addr a1 a0 ?_ ?_
      · rwa [List.getElem?_append_left (by omega)] at ha1
      · rwa [List.getElem?_append_left (by omega)] at ha0

/-- Byte 3 of a READ dispatches it with its address (43_bridge.md R188, R190). -/
theorem Bridge.Decoding.onByte_read {b : Bridge} {l a1 : Byte} (h : b.Decoding [l, Config.opcRead, a1]) (a0 : Byte) :
    (b.onByte a0).state = .read ∧ (b.onByte a0).addr = addrOfBytes a1 a0 := by
  rw [b.onByte_three a0 h.count, h.opcode Config.opcRead rfl, if_pos rfl]
  exact ⟨rfl, h.addrOf_acc a0⟩

/-- Byte 7 of a WRITE dispatches it with its address and its data (43_bridge.md R189, R191). -/
theorem Bridge.Decoding.onByte_write {b : Bridge} {l a1 a0 d3 d2 d1 : Byte}
    (h : b.Decoding [l, Config.opcWrite, a1, a0, d3, d2, d1]) (d0 : Byte) :
    (b.onByte d0).state = .write ∧ (b.onByte d0).addr = addrOfBytes a1 a0 ∧
      (b.onByte d0).wdata = wordOfBytes d3 d2 d1 d0 := by
  rw [b.onByte_seven_write d0 h.count (h.opcode Config.opcWrite rfl)]
  refine ⟨rfl, h.addr a1 a0 rfl rfl, ?_⟩
  rw [h.acc]
  exact foldByte_four _ d3 d2 d1 d0

/-! ## Ticks outside a bus cycle -/

/-- No bus cycle is in progress (44_bus_transactor.md R220). -/
def Bridge.free (b : Bridge) : Prop := b.state = .idle ∨ b.state = .command

theorem Bridge.free.state_ne_read {b : Bridge} (h : b.free) : b.state ≠ .read := by
  rcases h with h | h <;> simp [h]

theorem Bridge.free.inCycle {b : Bridge} (h : b.free) : b.inCycle = false := by
  rcases h with h | h <;> simp [Bridge.inCycle, h]

/-- From `s` to `t` no bus transaction took place: nothing was recorded, the memory slave kept its memory, and the requests
drained the outgoing source of `s`. -/
structure State.WaitsTo (s t : State) : Prop where
  cfg : t.cfg = s.cfg
  addrHigh : t.br.addrHigh = s.br.addrHigh
  record : t.record = s.record
  slave : ∀ m, s.slave = .ms m → t.slave = .ms m
  source : s.br.txLeft ≤ 4#3 → s.DrainsTo t

theorem State.WaitsTo.refl (s : State) : s.WaitsTo s where
  cfg := rfl
  addrHigh := rfl
  record := rfl
  slave := fun _ h => h
  source := fun _ => .refl s

/-- A tick outside a bus cycle (44_bus_transactor.md R225). -/
theorem State.WaitsTo.tick {s t : State} (h : s.WaitsTo t) (hfree : t.br.free) (e : Events) :
    s.WaitsTo (t.bridgeTick e) where
  cfg := h.cfg
  addrHigh := by rw [State.bridgeTick_br, Bridge.next_addrHigh, h.addrHigh]
  record := by simp [Bridge.recorded, hfree.inCycle, h.record]
  slave := fun m hm => by simp [h.slave m hm, Slave.after, hfree.inCycle]
  source := fun hs => (h.source hs).tick hs e (fun hl => hfree.state_ne_read hl.1)

/-- The address a command puts on the bus is the same after such ticks. -/
theorem State.WaitsTo.target {s t : State} (h : s.WaitsTo t) (addr : AddrField) : t.target addr = s.target addr := by
  rw [State.target, State.target, h.cfg, h.addrHigh]

/-- Without a `Start` the Bridge stays in Idle (43_bridge.md R183). -/
theorem State.WaitsTo.run_idle {s t : State} (h : s.WaitsTo t) (hidle : t.br.state = .idle) (es : List Events)
    (hes : ∀ e ∈ es, e.start = false) : s.WaitsTo (t.bridgeRun es) ∧ (t.bridgeRun es).br.state = .idle := by
  induction es generalizing t with
  | nil => exact ⟨h, hidle⟩
  | cons e es ih =>
    rw [List.forall_mem_cons] at hes
    refine ih (h.tick (.inl hidle) e) ?_ hes.2
    rw [State.bridgeTick_br, t.br.next_idle e t.bus hidle hes.1]
    simpa using hidle

/-! ## A frame up to its dispatch -/

/-- How far a frame with the bytes `zs` has come when the events `todo` of it are still to be shown: before its `Start`,
after its first bytes, or after its `Done`. (`last` is what it shows after `zs`: nothing, where a further byte is left
out of account, or its `Done`.) -/
def Bridge.Receiving (b : Bridge) (zs : List Byte) (last todo : List FrameEvent) : Prop :=
  (b.state = .idle ∧ todo = .start :: (zs.map .byteReady ++ last)) ∨
  (∃ xs ys, zs = xs ++ ys ∧ todo = ys.map .byteReady ++ last ∧ b.Decoding xs) ∨
  (b.state = .idle ∧ todo = [] ∧ last = [.done])

theorem Bridge.Receiving.free {b : Bridge} {zs : List Byte} {last todo : List FrameEvent}
    (h : b.Receiving zs last todo) : b.free := by
  rcases h with ⟨h, -⟩ | ⟨_, _, -, -, h⟩ | ⟨h, -⟩
  · exact .inl h
  · exact .inr h.state
  · exact .inl h

/-- An event that shows nothing leaves the frame where it is. -/
theorem Bridge.Receiving.silent {b : Bridge} {zs : List Byte} {last todo : List FrameEvent}
    (h : b.Receiving zs last todo) (e : Events) (s : BusSide) (he : e.visible = []) :
    (b.next e s).Receiving zs last todo := by
  obtain ⟨hs, hb, hd⟩ := Events.visible_eq_nil he
  rcases h with ⟨hst, htodo⟩ | ⟨xs, ys, hz, htodo, hdec⟩ | ⟨hst, htodo⟩
  · exact .inl ⟨by rw [b.next_idle e s hst hs]; simpa using hst, htodo⟩
  · exact .inr (.inl ⟨xs, ys, hz, htodo, by
      rw [b.next_command_quiet e s hdec.state hs hd hb]; exact hdec.outgoing e s⟩)
  · exact .inr (.inr ⟨by rw [b.next_idle e s hst hs]; simpa using hst, htodo⟩)

/-- An event that is shown moves the frame on, as long as its bytes dispatch nothing. -/
theorem Bridge.Receiving.move {b : Bridge} {zs : List Byte} {last todo : List FrameEvent} {x : FrameEvent}
    (h : b.Receiving zs last (x :: todo)) (hz : Undispatched zs) (hlast : last = [] ∨ last = [.done]) (e : Events)
    (s : BusSide) (he : e.visible = [x]) : (b.next e s).Receiving zs last todo := by
  rcases h with ⟨hst, htodo⟩ | ⟨xs, ys, hxy, htodo, hdec⟩ | ⟨-, htodo, -⟩
  · obtain ⟨rfl, rfl⟩ := List.cons.inj htodo
    rw [b.next_start e s (.inl hst) (Events.visible_eq_start he)]
    exact .inr (.inl ⟨[], zs, rfl, rfl, Bridge.decoding_onStart _⟩)
  · cases ys with
    | nil =>
      rcases hlast with rfl | rfl
      · simp at htodo
      · obtain ⟨rfl, rfl⟩ : x = .done ∧ todo = [] := by simpa using htodo
        obtain ⟨hs, hd⟩ := Events.visible_eq_done he
        rw [b.next_command_done e s hdec.state hs hd]
        exact .inr (.inr ⟨rfl, rfl, rfl⟩)
    | cons y ys =>
      obtain ⟨rfl, rfl⟩ := List.cons.inj htodo
      obtain ⟨hs, hb, rfl, hd⟩ := Events.visible_eq_byteReady he
      have hz' : zs = xs ++ [e.byte] ++ ys := by rw [hxy, List.append_assoc, List.singleton_append]
      rw [b.next_command_byte e s hdec.state hs hd hb]
      have hdec' := (hdec.outgoing e s).onByte e.byte (Undispatched.of_append (hz' ▸ hz))
      exact .inr (.inl ⟨xs ++ [e.byte], ys, hz', rfl, hdec'⟩)
  · simp at htodo

/-- A frame whose bytes dispatch nothing: no bus transaction takes place, whatever the slave does. -/
theorem State.WaitsTo.run_receiving {s t : State} (h : s.WaitsTo t) (zs : List Byte) (last : List FrameEvent)
    (hz : Undispatched zs) (hlast : last = [] ∨ last = [.done]) (es : List Events)
    (hes : ∀ e ∈ es, e.visible.length ≤ 1) (ht : t.br.Receiving zs last (shownBy es)) :
    s.WaitsTo (t.bridgeRun es) ∧ (t.bridgeRun es).br.Receiving zs last [] := by
  refine stagesShown (fun todo u => s.WaitsTo u ∧ u.br.Receiving zs last todo) ?_ ?_ es hes t ⟨h, ht⟩
  · rintro e todo u he ⟨hw, hr⟩
    exact ⟨hw.tick hr.free e, hr.silent e u.bus he⟩
  · rintro e x todo u he ⟨hw, hr⟩
    exact ⟨hw.tick hr.free e, hr.move hz hlast e u.bus he⟩

/-- Before the end of the frame the Bridge holds its bytes. -/
theorem Bridge.Receiving.decoding {b : Bridge} {zs : List Byte} (h : b.Receiving zs [] []) : b.Decoding zs := by
  rcases h with ⟨-, h⟩ | ⟨xs, ys, hz, htodo, hdec⟩ | ⟨-, -, h⟩
  · simp at h
  · have hys : ys = [] := by simpa using htodo.symm
    rwa [hz, hys, List.append_nil]
  · simp at h

/-! ## The byte that dispatches, in a frame of either transport -/

/-- The events of a frame, cut at its byte `x` after the bytes `xs` and before the bytes `ys`: `e` delivers that byte, and
`e'` is the tick after it. One request comes with the frame and one with each byte, in or after the tick of the byte
(log entries 2 and 3). -/
structure FrameCut (xs : List Byte) (x : Byte) (ys : List Byte) (pre : List Events) (e e' : Events)
    (post : List Events) : Prop where
  visible_pre : ∀ a ∈ pre, a.visible.length ≤ 1
  shown_pre : shownBy pre = .start :: xs.map .byteReady
  byte : e.visible = [.byteReady x]
  silent : e'.visible = []
  shown_post : shownBy post = ys.map .byteReady ++ [.done]
  requests_pre : requests pre = xs.length + 1
  requests_byte : requests [e, e'] = 1
  requests_post : requests post = ys.length

/-- A whole frame holds one request more than it has bytes. -/
theorem FrameCut.requests {xs : List Byte} {x : Byte} {ys : List Byte} {pre : List Events} {e e' : Events}
    {post : List Events} (h : FrameCut xs x ys pre e e' post) :
    requests (pre ++ e :: e' :: post) = (xs ++ x :: ys).length + 1 := by
  have hsplit : pre ++ e :: e' :: post = pre ++ ([e, e'] ++ post) := rfl
  rw [hsplit, requests_append, requests_append, h.requests_pre, h.requests_byte, h.requests_post, List.length_append,
    List.length_cons]
  omega

@[simp] theorem shownBy_nil : shownBy [] = [] := rfl
@[simp] theorem shownBy_cons (e : Events) (es : List Events) : shownBy (e :: es) = e.visible ++ shownBy es := rfl
@[simp] theorem shownBy_append (es fs : List Events) : shownBy (es ++ fs) = shownBy es ++ shownBy fs :=
  List.flatMap_append
@[simp] theorem shownBy_replicate_quiet (n : Nat) : shownBy (List.replicate n Events.quiet) = [] := by
  rw [shownBy_loud, loud_replicate]
  rfl

/-- Where the events of every byte show its `ByteReady` alone, those of a list of bytes show theirs in order. -/
theorem shownBy_flatMap (g : Byte → List Events) (hg : ∀ b, shownBy (g b) = [.byteReady b]) (xs : List Byte) :
    shownBy (xs.flatMap g) = xs.map .byteReady := by
  induction xs with
  | nil => rfl
  | cons x xs ih => rw [List.flatMap_cons, shownBy_append, hg, ih, List.map_cons, List.singleton_append]

@[simp] theorem shownBy_bytesA (xs : List Byte) : shownBy (xs.flatMap byteEvents) = xs.map .byteReady :=
  shownBy_flatMap byteEvents (fun b => by simp [byteEvents]) xs
@[simp] theorem shownBy_bytesB (xs : List Byte) : shownBy (xs.flatMap byteEventsB) = xs.map .byteReady :=
  shownBy_flatMap byteEventsB (fun b => by simp [byteEventsB]) xs

@[simp] theorem Events.quiet_txReq : Events.quiet.txReq = false := rfl
@[simp] theorem Events.startA_txReq : Events.startA.txReq = true := rfl
@[simp] theorem Events.readyA_txReq (b : Byte) : (Events.readyA b).txReq = true := rfl
@[simp] theorem Events.doneOnly_txReq : Events.doneOnly.txReq = false := rfl
@[simp] theorem Events.requestOnly_txReq : Events.requestOnly.txReq = true := rfl
@[simp] theorem Events.startOnly_txReq : Events.startOnly.txReq = false := rfl
@[simp] theorem Events.readyOnly_txReq (b : Byte) : (Events.readyOnly b).txReq = false := rfl

@[simp] theorem requests_bytesA (xs : List Byte) : requests (xs.flatMap byteEvents) = xs.length :=
  requests_flatMap byteEvents (fun b => by simp [byteEvents]) xs
@[simp] theorem requests_bytesB (xs : List Byte) : requests (xs.flatMap byteEventsB) = xs.length :=
  requests_flatMap byteEventsB (fun b => by simp [byteEventsB]) xs

/-- Under Variant A a byte comes with its request, and the tick after it is quiet. -/
theorem frameEventsA_cut (f : Frame) (xs : List Byte) (x : Byte) (ys : List Byte) (hf : f.bytes = xs ++ x :: ys) :
    ∃ pre e e' post, frameEventsA f = pre ++ e :: e' :: post ∧ FrameCut xs x ys pre e e' post := by
  have hcut : frameEventsA f =
      ([Events.quiet, Events.quiet, Events.startA, Events.quiet] ++ xs.flatMap byteEvents ++
        List.replicate 62 Events.quiet) ++ Events.readyA x :: Events.quiet ::
      (ys.flatMap byteEvents ++ (List.replicate (8 * f.tail.length) Events.quiet ++
        [Events.quiet, Events.quiet, Events.doneOnly, Events.quiet])) := by
    simp [frameEventsA, hf, byteEvents, List.replicate_succ]
  refine ⟨_, _, _, _, hcut, ?_, ?_, ?_, ?_, ?_, ?_, ?_, ?_⟩
  · intro a ha
    exact visible_frameEventsA f a (by rw [hcut]; exact List.mem_append_left _ ha)
  all_goals simp

/-- Under Variant B the request of a byte comes in the tick after it. -/
theorem frameEventsB_cut (f : Frame) (n m : Nat) (xs : List Byte) (x : Byte) (ys : List Byte)
    (hf : f.bytes = xs ++ x :: ys) :
    ∃ pre e e' post, frameEventsB f n m = pre ++ e :: e' :: post ∧ FrameCut xs x ys pre e e' post := by
  have hcut : frameEventsB f n m =
      (List.replicate n Events.quiet ++ [Events.requestOnly, Events.startOnly, Events.quiet] ++
        xs.flatMap byteEventsB ++ [Events.quiet, Events.quiet]) ++ Events.readyOnly x :: Events.requestOnly ::
      ([Events.quiet, Events.quiet] ++ ys.flatMap byteEventsB ++ ([Events.quiet, Events.doneOnly] ++
        List.replicate m Events.quiet)) := by
    simp [frameEventsB, hf, byteEventsB]
  refine ⟨_, _, _, _, hcut, ?_, ?_, ?_, ?_, ?_, ?_, ?_, ?_⟩
  · intro a ha
    exact visible_frameEventsB f n m a (by rw [hcut]; exact List.mem_append_left _ ha)
  all_goals simp

/-- The whole frame of either transport, cut at one of its bytes. -/
theorem State.runFrame_cut (s : State) (hs : s.betweenFrames) (f : Frame) (hf : f.wf = true) (xs : List Byte) (x : Byte)
    (ys : List Byte) (hb : f.bytes = xs ++ x :: ys) :
    ∃ pre e e' post q, s.runFrame f = (s.bridgeRun (pre ++ e :: e' :: post)).setPort q ∧ q.idle ∧
      FrameCut xs x ys pre e e' post := by
  obtain ⟨es, q, hrun, hq, ⟨y, a, -, rfl⟩ | ⟨b, n, m, -, rfl⟩⟩ := s.runFrame_events f hs hf
  · obtain ⟨pre, e, e', post, hcut, h⟩ := frameEventsA_cut f xs x ys hb
    exact ⟨pre, e, e', post, q, hcut ▸ hrun, hq, h⟩
  · obtain ⟨pre, e, e', post, hcut, h⟩ := frameEventsB_cut f n m xs x ys hb
    exact ⟨pre, e, e', post, q, hcut ▸ hrun, hq, h⟩

/-- The events of a whole frame of either transport, and the number of its requests. -/
theorem State.runFrame_whole (s : State) (hs : s.betweenFrames) (f : Frame) (hf : f.wf = true) :
    ∃ es q, s.runFrame f = (s.bridgeRun es).setPort q ∧ q.idle ∧ (∀ e ∈ es, e.visible.length ≤ 1) ∧
      shownBy es = frameShown f ∧ requests es = f.bytes.length + 1 := by
  obtain ⟨es, q, hrun, hq, ⟨y, a, -, rfl⟩ | ⟨b, n, m, -, rfl⟩⟩ := s.runFrame_events f hs hf
  · exact ⟨_, q, hrun, hq, visible_frameEventsA f, shownBy_frameEventsA f, by simp [frameEventsA]⟩
  · exact ⟨_, q, hrun, hq, visible_frameEventsB f n m, shownBy_frameEventsB f n m, by simp [frameEventsB]⟩

end Sys2Proof.Machine
end

section
/-! SUPPORT. Read data over whole frames (20_memory.md R66, R67, R73, R77; 70_reset_and_hazards.md R277): a frame up to its
dispatch, the acknowledge of the memory slave in the tick after it, and the rest of the frame; then the obligations about
`exec`. -/

namespace Sys2Proof.Machine

/-! ## Operands in the order sent (30_encoding.md R84, R86) -/

theorem addrOfBytes_addrBytes (a : AddrField) : addrOfBytes (a.extractLsb' 8 8) (a.extractLsb' 0 8) = a := by
  rw [addrOfBytes, BitVec.extractLsb'_append_extractLsb'_eq_extractLsb' (by omega)]
  simp

theorem wordOfBytes_wordBytes (d : Word) :
    wordOfBytes (d.extractLsb' 24 8) (d.extractLsb' 16 8) (d.extractLsb' 8 8) (d.extractLsb' 0 8) = d := by
  rw [wordOfBytes, BitVec.extractLsb'_append_extractLsb'_eq_extractLsb' (by omega),
    BitVec.extractLsb'_append_extractLsb'_eq_extractLsb' (by omega),
    BitVec.extractLsb'_append_extractLsb'_eq_extractLsb' (by omega)]
  simp

/-! ## The memory slave (95_test_vectors.md section 0.2) -/

/-- MS acknowledges every cycle in its first tick, and a read with the word at the address. -/
theorem State.bus_of_ms (s : State) (m : Memory) (h : s.slave = .ms m) :
    s.bus.ack = s.br.inCycle ∧ (s.br.state = .read → s.bus.datR = m.read (s.br.adr s.cfg)) := by
  rw [State.bus, h, Slave.drive]
  refine ⟨rfl, fun hst => ?_⟩
  simp [Bridge.inCycle, hst]

/-- The tick of a read with MS (43_bridge.md R193, R196; 44_bus_transactor.md R231). -/
theorem State.bridgeTick_read_ms (s : State) (m : Memory) (e : Events) (h : s.slave = .ms m)
    (hst : s.br.state = .read) :
    (s.bridgeTick e).br.state = .idle ∧ (s.bridgeTick e).br.txWord = m.read (s.br.adr s.cfg) ∧
      (s.bridgeTick e).br.txLeft = 4#3 ∧ (s.bridgeTick e).slave = .ms m ∧
      (s.bridgeTick e).record =
        s.record ++ [{ dir := .read, adr := s.br.adr s.cfg, data := some (m.read (s.br.adr s.cfg)) }] := by
  obtain ⟨hack, hdat⟩ := s.bus_of_ms m h
  have hcyc : s.br.inCycle = true := by simp [Bridge.inCycle, hst]
  rw [hcyc] at hack
  obtain ⟨hword, hleft⟩ := s.br.next_source_of_load e s.bus hst hack
  refine ⟨?_, hword.trans (hdat hst), hleft, ?_, ?_⟩
  · rw [State.bridgeTick_br, s.br.next_cycle e s.bus (.inl hst)]
    simp [hack]
  · rw [State.bridgeTick_slave, h, Slave.after]
    simp [hst]
  · simp [Bridge.recorded, Bridge.entry, Bridge.dir, Bridge.movedWord, hcyc, hack, hst, hdat hst]

/-- The tick of a write with MS (43_bridge.md R194; 44_bus_transactor.md R231). -/
theorem State.bridgeTick_write_ms (s : State) (m : Memory) (e : Events) (h : s.slave = .ms m)
    (hst : s.br.state = .write) :
    (s.bridgeTick e).br.state = .idle ∧ (s.bridgeTick e).slave = .ms (m.write (s.br.adr s.cfg) s.br.wdata) ∧
      (s.bridgeTick e).record =
        s.record ++ [{ dir := .write, adr := s.br.adr s.cfg, data := some s.br.wdata }] := by
  obtain ⟨hack, -⟩ := s.bus_of_ms m h
  have hcyc : s.br.inCycle = true := by simp [Bridge.inCycle, hst]
  rw [hcyc] at hack
  refine ⟨?_, ?_, ?_⟩
  · rw [State.bridgeTick_br, s.br.next_cycle e s.bus (.inr hst)]
    simp [hack]
  · rw [State.bridgeTick_slave, h, Slave.after]
    simp [hcyc, hst]
  · simp [Bridge.recorded, Bridge.entry, Bridge.dir, Bridge.movedWord, hcyc, hack, hst]

/-! ## A frame up to its dispatch, and after it -/

/-- In a frame from `s` with the bytes `xs`, `x` and `ys`, the byte `x` was received in the tick before `d`; the tick after it
has the events `e`, and the rest of the frame the events `post`. -/
structure State.Dispatches (s d : State) (xs : List Byte) (x : Byte) (ys : List Byte) (e : Events)
    (post : List Events) : Prop where
  waits : s.WaitsTo d
  bridge : ∃ b : Bridge, b.Decoding xs ∧ d.br = b.onByte x
  served : ∃ before, (d.bridgeTick e).served = s.served ++ before ∧ before.length = xs.length + 2
  start_post : ∀ a ∈ post, a.start = false
  requests_post : requests post = ys.length

/-- A frame from a ready state reaches its byte `x` without a bus transaction, where the bytes before it dispatch none. -/
theorem State.runFrame_dispatches (s : State) (hs : s.ready) (f : Frame) (hf : f.wf = true) (xs : List Byte) (x : Byte)
    (ys : List Byte) (hb : f.bytes = xs ++ x :: ys) (hx : Undispatched xs) :
    ∃ d e post q, s.runFrame f = ((d.bridgeTick e).bridgeRun post).setPort q ∧ q.idle ∧
      s.Dispatches d xs x ys e post := by
  obtain ⟨hbetween, hidle⟩ := hs
  obtain ⟨pre, e, e', post, q, hrun, hq, hcut⟩ := s.runFrame_cut hbetween f hf xs x ys hb
  obtain ⟨hw, hr⟩ := (State.WaitsTo.refl s).run_receiving xs [] hx (.inl rfl) pre hcut.visible_pre
    (.inl ⟨hidle, by rw [hcut.shown_pre, List.append_nil]⟩)
  have hdec := hr.decoding
  obtain ⟨hs, hbyte, rfl, hd⟩ := Events.visible_eq_byteReady hcut.byte
  refine ⟨(s.bridgeRun pre).bridgeTick e, e', post, q, ?_, hq, ?_, ?_, ?_, ?_, hcut.requests_post⟩
  · rw [hrun, State.bridgeRun_append, State.bridgeRun_cons, State.bridgeRun_cons]
  · exact hw.tick hr.free e
  · exact ⟨_, hdec.outgoing e _, Bridge.next_command_byte _ e _ hdec.state hs hd hbyte⟩
  · obtain ⟨before, hserved, hlen⟩ := s.bridgeRun_served (pre ++ [e, e'])
    refine ⟨before, ?_, ?_⟩
    · rw [← hserved, State.bridgeRun_append, State.bridgeRun_cons, State.bridgeRun_cons, State.bridgeRun_nil]
    · rw [hlen, requests_append, hcut.requests_pre, hcut.requests_byte]
  · exact start_eq_false_of_shownBy (by simp [hcut.shown_post])

/-- From `s` to `u` a command completed: its one bus transaction is recorded, and the Bridge is in Idle. -/
structure State.Completes (s u : State) (entry : BusEntry) : Prop where
  idle : u.br.state = .idle
  cfg : u.cfg = s.cfg
  addrHigh : u.br.addrHigh = s.br.addrHigh
  record : u.record = s.record ++ [entry]

/-- After a completed command the next frame may begin. -/
theorem State.Completes.ready {s u : State} {entry : BusEntry} (h : s.Completes u entry) (hw : s.cfg.wf = true)
    (q : Port) (hq : q.idle) : (u.setPort q).ready :=
  ⟨⟨by rw [State.setPort_cfg, h.cfg, hw], hq⟩, h.idle⟩

/-- A cycle acknowledged in the tick after the dispatch completes the command; the rest of the frame is idle. -/
theorem State.Dispatches.completes {s d : State} {xs : List Byte} {x : Byte} {ys : List Byte} {e : Events}
    {post : List Events} (h : s.Dispatches d xs x ys e post) (entry : BusEntry)
    (hidle : (d.bridgeTick e).br.state = .idle) (hrecord : (d.bridgeTick e).record = d.record ++ [entry]) :
    s.Completes ((d.bridgeTick e).bridgeRun post) entry ∧
      (d.bridgeTick e).WaitsTo ((d.bridgeTick e).bridgeRun post) := by
  obtain ⟨hw, hst⟩ := (State.WaitsTo.refl (d.bridgeTick e)).run_idle hidle post h.start_post
  refine ⟨⟨hst, ?_, ?_, ?_⟩, hw⟩
  · rw [hw.cfg, State.bridgeTick_cfg, h.waits.cfg]
  · rw [hw.addrHigh, State.bridgeTick_br, Bridge.next_addrHigh, h.waits.addrHigh]
  · rw [hw.record, hrecord, h.waits.record]

/-- The address of the cycle that a command dispatches. -/
theorem State.WaitsTo.adr {s d : State} (h : s.WaitsTo d) {addr : AddrField} (ha : d.br.addr = addr) :
    d.br.adr d.cfg = s.target addr := by
  rw [← h.target addr, ← ha]
  rfl

/-- A READ from a ready state with MS: five requests come before the word, and the later ones drain it. -/
theorem State.runFrame_read_ms (s : State) (lead : Byte) (addr : AddrField) (pad : List Byte) (tail : List Bool)
    (m : Memory) (hs : s.ready) (ht : tail.length < 8) (hm : s.slave = .ms m) :
    ∃ (u : State) (q : Port), s.runFrame (readFrame lead addr pad tail) = u.setPort q ∧ q.idle ∧
      s.Completes u { dir := .read, adr := s.target addr, data := some (m.read (s.target addr)) } ∧
      ∃ before new, u.served = s.served ++ (before ++ new) ∧ before.length = 5 ∧ new.length = pad.length ∧
        u.br.DrainedFrom (m.read (s.target addr)) 4 new := by
  obtain ⟨d, e, post, q, hrun, hq, hd⟩ := s.runFrame_dispatches hs (readFrame lead addr pad tail) (decide_eq_true ht)
    [lead, Config.opcRead, addr.extractLsb' 8 8] (addr.extractLsb' 0 8) pad rfl
    (undispatched_of_length_lt_four (by simp))
  obtain ⟨b, hdec, hbr⟩ := hd.bridge
  obtain ⟨hst, haddr⟩ := hdec.onByte_read (addr.extractLsb' 0 8)
  rw [← hbr] at hst haddr
  have hadr := hd.waits.adr (haddr.trans (addrOfBytes_addrBytes addr))
  obtain ⟨hidle, hword, hleft, -, hrecord⟩ := d.bridgeTick_read_ms m e (hd.waits.slave m hm) hst
  rw [hadr] at hword hrecord
  obtain ⟨hcompletes, hwaits⟩ := hd.completes _ hidle hrecord
  obtain ⟨before, hbefore, hlen⟩ := hd.served
  obtain ⟨new, hnew, hdrained⟩ := hwaits.source (hleft ▸ BitVec.le_refl _)
  rw [hword, hleft] at hdrained
  refine ⟨_, q, hrun, hq, hcompletes, before, new, ?_, hlen, ?_, hdrained⟩
  · rw [hnew, hbefore, List.append_assoc]
  · have hcount := (d.bridgeTick e).bridgeRun_served_length post
    rw [hnew, List.length_append, hd.requests_post] at hcount
    omega

/-- A WRITE from a ready state with MS: the word is in the memory afterwards. -/
theorem State.runFrame_write_ms (s : State) (lead : Byte) (addr : AddrField) (data : Word) (pad : List Byte)
    (tail : List Bool) (m : Memory) (hs : s.ready) (ht : tail.length < 8) (hm : s.slave = .ms m) :
    ∃ (u : State) (q : Port), s.runFrame (writeFrame lead addr data pad tail) = u.setPort q ∧ q.idle ∧
      s.Completes u { dir := .write, adr := s.target addr, data := some data } ∧
      u.slave = .ms (m.write (s.target addr) data) := by
  have hundispatched : Undispatched [lead, Config.opcWrite, addr.extractLsb' 8 8, addr.extractLsb' 0 8,
      data.extractLsb' 24 8, data.extractLsb' 16 8, data.extractLsb' 8 8] := by
    intro op n hop hn
    obtain rfl : Config.opcWrite = op := Option.some.inj hop
    obtain rfl : 8 = n := Option.some.inj hn
    simp
  obtain ⟨d, e, post, q, hrun, hq, hd⟩ := s.runFrame_dispatches hs (writeFrame lead addr data pad tail)
    (decide_eq_true ht) _ (data.extractLsb' 0 8) pad rfl hundispatched
  obtain ⟨b, hdec, hbr⟩ := hd.bridge
  obtain ⟨hst, haddr, hdata⟩ := hdec.onByte_write (data.extractLsb' 0 8)
  rw [← hbr] at hst haddr hdata
  have hadr := hd.waits.adr (haddr.trans (addrOfBytes_addrBytes addr))
  obtain ⟨hidle, hslave, hrecord⟩ := d.bridgeTick_write_ms m e (hd.waits.slave m hm) hst
  rw [hadr, hdata, wordOfBytes_wordBytes] at hslave hrecord
  obtain ⟨hcompletes, hwaits⟩ := hd.completes _ hidle hrecord
  exact ⟨_, q, hrun, hq, hcompletes, hwaits.slave _ hslave⟩

/-! ## The obligations -/

/-- The frame of a well-formed command is a well-formed frame. -/
theorem encode_wf (i : Instr) (h : i.wf = true) : (encode i).wf = true := by
  cases i with
  | read lead addr pad tail => exact (Laws.FrameLength.read lead addr pad tail h).1
  | write lead addr data pad tail => exact (Laws.FrameLength.write lead addr data pad tail h).1
  | unknown lead opcode rest tail => exact (Laws.FrameLength.unknown lead opcode rest tail h).1

/-- The first events `pre` of a frame, in which nothing dispatches, drain the source of `s`; where they hold four requests, or
are the whole frame, what the rest does is not seen on the waiting bytes. -/
theorem State.bridgeRun_drains (s : State) (hl : s.br.txLeft ≤ 4#3) {zs : List Byte} (hz : Undispatched zs)
    {last : List FrameEvent} (hlast : last = [] ∨ last = [.done]) {pre : List Events} (rest : List Events)
    (hvisible : ∀ e ∈ pre, e.visible.length ≤ 1) (hreceiving : s.br.Receiving zs last (shownBy pre))
    (hfour : rest = [] ∨ 4 ≤ requests pre) :
    ∃ new, (s.bridgeRun (pre ++ rest)).served = s.served ++ new ∧ new.length = requests (pre ++ rest) ∧
      new.take s.br.txLeft.toNat = ((wordBytes s.br.txWord).take s.br.txLeft.toNat).take new.length := by
  obtain ⟨hw, -⟩ := (State.WaitsTo.refl s).run_receiving zs last hz hlast pre hvisible hreceiving
  obtain ⟨new, hserved, hdrained⟩ := hw.source hl
  have hlen : new.length = requests pre := by
    have hcount := s.bridgeRun_served_length pre
    rw [hserved, List.length_append] at hcount
    omega
  rcases hfour with rfl | hfour
  · exact ⟨new, by rw [List.append_nil, hserved], by rw [List.append_nil, hlen], hdrained.bytes⟩
  · obtain ⟨more, hmore, hmorelen⟩ := (s.bridgeRun pre).bridgeRun_served rest
    have hn : s.br.txLeft.toNat ≤ 4 := by simpa [BitVec.le_def] using hl
    refine ⟨new ++ more, ?_, by rw [List.length_append, requests_append, hlen, hmorelen], ?_⟩
    · rw [State.bridgeRun_append, hmore, hserved, List.append_assoc]
    · rw [List.take_append_of_le_length (by omega), hdrained.bytes, take_take_wordBytes _ _ (by omega),
        take_take_wordBytes _ _ (by rw [List.length_append]; omega)]

/-- Up to byte 3 of a frame from a ready state nothing dispatches, and four requests come by then; a shorter frame dispatches
nothing at all. So the waiting bytes go out first, whatever the slave does. -/
theorem State.runFrame_drains (s : State) (hs : s.ready) (f : Frame) (hf : f.wf = true) (hl : s.br.txLeft ≤ 4#3) :
    ∃ new, (s.runFrame f).served = s.served ++ new ∧ new.length = f.bytes.length + 1 ∧
      new.take s.br.txLeft.toNat = ((wordBytes s.br.txWord).take s.br.txLeft.toNat).take new.length := by
  obtain ⟨hbetween, hidle⟩ := hs
  rcases Nat.lt_or_ge f.bytes.length 4 with hshort | hlong
  · obtain ⟨es, q, hrun, -, hvisible, hshown, hreq⟩ := s.runFrame_whole hbetween f hf
    have hdrains := s.bridgeRun_drains hl (undispatched_of_length_lt_four hshort) (.inr rfl) [] hvisible
      (.inl ⟨hidle, hshown⟩) (.inl rfl)
    rwa [List.append_nil, hreq, ← State.setPort_served _ q, ← hrun] at hdrains
  · obtain ⟨x, ys, hdrop⟩ := List.exists_cons_of_length_pos (l := f.bytes.drop 3) (by simp; omega)
    have hbytes : f.bytes = f.bytes.take 3 ++ x :: ys := by rw [← hdrop, List.take_append_drop]
    have hthree : (f.bytes.take 3).length = 3 := by simp; omega
    obtain ⟨pre, e, e', post, q, hrun, -, hcut⟩ := s.runFrame_cut hbetween f hf _ x ys hbytes
    have hreq : requests (pre ++ e :: e' :: post) = f.bytes.length + 1 := by rw [hcut.requests, ← hbytes]
    have hdrains := s.bridgeRun_drains hl (zs := f.bytes.take 3) (undispatched_of_length_lt_four (by omega)) (.inl rfl)
      (e :: e' :: post) hcut.visible_pre (.inl ⟨hidle, by rw [hcut.shown_pre, List.append_nil]⟩)
      (.inr (by rw [hcut.requests_pre, hthree]))
    rwa [hreq, ← State.setPort_served _ q, ← hrun] at hdrains

/-- Settles O45: the bytes before byte 3 dispatch nothing, and the frame makes four requests by then, so the waiting bytes are
gone before the slave can be asked for others. -/
theorem waitingReadDataGoesOutFirst : Obligations.WaitingReadDataGoesOutFirst := by
  unfold Obligations.WaitingReadDataGoesOutFirst
  intro i s hi hs hl
  obtain ⟨new, hserved, hlen, hbytes⟩ := s.runFrame_drains hs (encode i) (encode_wf i hi) hl
  exact ⟨_, new, exec_eq_runFrame_encode i s, hserved, hlen, hbytes⟩

/-- Settles O47: no request comes after the word is loaded, so the whole word waits, and `waitingReadDataGoesOutFirst` is the
next frame. -/
theorem shortReadServesNextFrame : Obligations.ShortReadServesNextFrame := by
  unfold Obligations.ShortReadServesNextFrame
  intro s lead addr tail m i hs ht hl hm hi hlen
  obtain ⟨u, q, hrun, hq, hcompletes, before, new, -, -, hnew, hdrained⟩ :=
    s.runFrame_read_ms lead addr [] tail m hs ht hm
  obtain rfl : new = [] := List.length_eq_zero_iff.1 hnew
  have hword : (u.setPort q).br.txWord = m.read (s.target addr) := by simpa using hdrained.word
  have hleft : (u.setPort q).br.txLeft = 4#3 := BitVec.eq_of_toNat_eq hdrained.left
  obtain ⟨v, next, hexec, hserved, hcount, hbytes⟩ := waitingReadDataGoesOutFirst i (u.setPort q) hi
    (hcompletes.ready hs.1.1 q hq) (hleft ▸ BitVec.le_refl _)
  have hfirst : next.take 4 = wordBytes (m.read (s.target addr)) := by
    rw [hleft, hword, take_take_wordBytes _ _ (by omega)] at hbytes
    exact hbytes
  exact ⟨_, v, next.drop 4, congrArg Host.Outcome.next hrun, hword, hleft, hexec, by
    rw [hserved, ← hfirst, List.take_append_drop]⟩

/-- Settles O48: the WRITE leaves the word in the memory (`Memory.read_write`), and the READ loads it before its slot 5. -/
theorem writeThenReadReturnsWord : Obligations.WriteThenReadReturnsWord := by
  unfold Obligations.WriteThenReadReturnsWord
  intro s l1 l2 addr data pad1 pad2 tail1 tail2 m hs ht1 ht2 hl hm hmwf hpad
  obtain ⟨t, q, hrun, hq, hwrite, hslave⟩ := s.runFrame_write_ms l1 addr data pad1 tail1 m hs ht1 hm
  have htarget : (t.setPort q).target addr = s.target addr := by
    rw [State.target, State.target, State.setPort_cfg, State.setPort_br, hwrite.cfg, hwrite.addrHigh]
  obtain ⟨u, q', hrun', -, hread, before, new, hserved, hbefore, hnew, hdrained⟩ :=
    (t.setPort q).runFrame_read_ms l2 addr pad2 tail2 _ (hwrite.ready hs.1.1 q hq) ht2 hslave
  have hback : (m.write (s.target addr) data).read (s.target addr) = data := by
    rw [Memory.read_write m _ _ _ hmwf, if_pos rfl]
  rw [htarget, hback] at hdrained hread
  have hword : new.take 4 = wordBytes data := by
    rw [hdrained.bytes, take_take_wordBytes _ _ (by omega)]
    rfl
  refine ⟨t.setPort q, u.setPort q', before, new.drop 4, congrArg Host.Outcome.next hrun,
    congrArg Host.Outcome.next hrun', ?_, hbefore, ?_⟩
  · rw [State.setPort_served, hserved, ← hword, List.take_append_drop]
  · rw [State.setPort_record, hread.record, State.setPort_record, hwrite.record, List.append_assoc]
    rfl

end Sys2Proof.Machine
end

section
/-! SUPPORT. The encodings (30_encoding.md R84 to R87): the bytes of an operand and the operand of its bytes are inverse to
each other, each row of the decoder reads back exactly the frames its row of the encoder writes, and a frame too short for
its opcode is rejected by name; then which command a step runs (R89). -/

namespace Sys2Proof.Machine

/-! ## The bytes of an operand read from a frame (20_memory.md R66) -/

theorem addrBytes_addrOfBytes (a1 a0 : Byte) : addrBytes (addrOfBytes a1 a0) = [a1, a0] := by
  have h1 : (a1 ++ a0).extractLsb' 8 8 = a1 := BitVec.extractLsb'_append_eq_left
  have h0 : (a1 ++ a0).extractLsb' 0 8 = a0 := BitVec.extractLsb'_append_eq_right
  rw [addrBytes, addrOfBytes, h1, h0]

/-- A byte field above the last byte of a field of bytes is one of the bytes before it. -/
theorem extractByte_append {n : Nat} (hi : BitVec n) (lo : Byte) (k : Nat) :
    (hi ++ lo).extractLsb' (k + 8) 8 = hi.extractLsb' k 8 := by
  rw [BitVec.extractLsb'_append_eq_of_le (by omega), Nat.add_sub_cancel]

theorem wordBytes_wordOfBytes (d3 d2 d1 d0 : Byte) : wordBytes (wordOfBytes d3 d2 d1 d0) = [d3, d2, d1, d0] := by
  have h3 : (d3 ++ d2 ++ d1 ++ d0).extractLsb' 24 8 = d3 := by
    rw [extractByte_append _ d0 16, extractByte_append _ d1 8, BitVec.extractLsb'_append_eq_left]
  have h2 : (d3 ++ d2 ++ d1 ++ d0).extractLsb' 16 8 = d2 := by
    rw [extractByte_append _ d0 8, extractByte_append _ d1 0, BitVec.extractLsb'_append_eq_right]
  have h1 : (d3 ++ d2 ++ d1 ++ d0).extractLsb' 8 8 = d1 := by
    rw [extractByte_append _ d0 0, BitVec.extractLsb'_append_eq_right]
  have h0 : (d3 ++ d2 ++ d1 ++ d0).extractLsb' 0 8 = d0 := BitVec.extractLsb'_append_eq_right
  rw [wordBytes, wordOfBytes, h3, h2, h1, h0]

/-! ## The row of a frame, by its opcode byte (30_encoding.md R85) -/

/-- With a partial last byte of at most 7 bits, a frame of two or more bytes is decoded by its opcode byte. -/
theorem decode_cons_cons (lead op : Byte) (rest : List Byte) {tail : List Bool} (ht : tail.length < 8) :
    decode ⟨lead :: op :: rest, tail⟩ = decodeRest lead op tail rest := if_pos ht

/-- A frame that decodes has an opcode byte, and its partial last byte has at most 7 bits. -/
theorem decode_ok_cases {f : Frame} {i : Instr} (h : decode f = .ok i) :
    ∃ lead op rest tail, f = ⟨lead :: op :: rest, tail⟩ ∧ tail.length < 8 ∧ decodeRest lead op tail rest = .ok i := by
  obtain ⟨bytes, tail⟩ := f
  have ht : tail.length < 8 := by
    by_contra ht
    simp [decode, ht] at h
  match bytes, h with
  | [], h | [_], h => simp [decode, ht] at h
  | lead :: op :: rest, h => exact ⟨lead, op, rest, tail, rfl, ht, (decode_cons_cons lead op rest ht).symm.trans h⟩

@[simp] theorem decodeRest_opcRead (lead : Byte) (tail : List Bool) (rest : List Byte) :
    decodeRest lead Config.opcRead tail rest = decodeRead lead tail rest := rfl

@[simp] theorem decodeRest_opcWrite (lead : Byte) (tail : List Bool) (rest : List Byte) :
    decodeRest lead Config.opcWrite tail rest = decodeWrite lead tail rest := rfl

theorem decodeRest_other (lead : Byte) {op : Byte} (tail : List Bool) (rest : List Byte) (hr : op ≠ Config.opcRead)
    (hw : op ≠ Config.opcWrite) : decodeRest lead op tail rest = .ok (.unknown lead op rest tail) := by
  simp [decodeRest, opcodeClass, hr, hw]

/-! ## The rows on the bytes they were encoded to (30_encoding.md R84, R86) -/

theorem decodeRead_addrBytes (lead : Byte) (tail : List Bool) (addr : AddrField) (pad : List Byte) :
    decodeRead lead tail (addrBytes addr ++ pad) = .ok (.read lead addr pad tail) := by
  simp [addrBytes, decodeRead, addrOfBytes_addrBytes]

theorem decodeWrite_addrBytes_wordBytes (lead : Byte) (tail : List Bool) (addr : AddrField) (data : Word)
    (pad : List Byte) :
    decodeWrite lead tail (addrBytes addr ++ (wordBytes data ++ pad)) = .ok (.write lead addr data pad tail) := by
  simp [addrBytes, wordBytes, decodeWrite, addrOfBytes_addrBytes, wordOfBytes_wordBytes]

/-! ## The rows by the number of bytes (30_encoding.md R87) -/

/-- Two bytes after the opcode are a READ's whole operand. -/
theorem decodeRead_of_two_le (lead : Byte) (tail : List Bool) {rest : List Byte} (h : 2 ≤ rest.length) :
    ∃ addr pad, rest = addrBytes addr ++ pad ∧ decodeRead lead tail rest = .ok (.read lead addr pad tail) := by
  match rest, h with
  | a1 :: a0 :: pad, _ => exact ⟨addrOfBytes a1 a0, pad, by rw [addrBytes_addrOfBytes]; rfl, rfl⟩

theorem decodeRead_of_lt_two (lead : Byte) (tail : List Bool) {rest : List Byte} (h : rest.length < 2) :
    decodeRead lead tail rest = .error .readTooShort := by
  match rest, h with
  | [], _ | [_], _ => rfl

/-- Six bytes after the opcode are a WRITE's whole operands. -/
theorem decodeWrite_of_six_le (lead : Byte) (tail : List Bool) {rest : List Byte} (h : 6 ≤ rest.length) :
    ∃ addr data pad, rest = addrBytes addr ++ (wordBytes data ++ pad) ∧
      decodeWrite lead tail rest = .ok (.write lead addr data pad tail) := by
  match rest, h with
  | a1 :: a0 :: d3 :: d2 :: d1 :: d0 :: pad, _ =>
    exact ⟨addrOfBytes a1 a0, wordOfBytes d3 d2 d1 d0, pad,
      by rw [addrBytes_addrOfBytes, wordBytes_wordOfBytes]; rfl, rfl⟩

theorem decodeWrite_of_lt_six (lead : Byte) (tail : List Bool) {rest : List Byte} (h : rest.length < 6) :
    decodeWrite lead tail rest = .error .writeTooShort := by
  match rest, h with
  | [], _ | [_], _ | [_, _], _ | [_, _, _], _ | [_, _, _, _], _ | [_, _, _, _, _], _ => rfl

/-- What the READ row accepts is an address and pad bytes. -/
theorem decodeRead_eq_ok {lead : Byte} {tail : List Bool} {rest : List Byte} {i : Instr}
    (h : decodeRead lead tail rest = .ok i) : ∃ addr pad, rest = addrBytes addr ++ pad ∧ i = .read lead addr pad tail := by
  obtain hlt | hle := Nat.lt_or_ge rest.length 2
  · rw [decodeRead_of_lt_two lead tail hlt] at h
    cases h
  · obtain ⟨addr, pad, hrest, hread⟩ := decodeRead_of_two_le lead tail hle
    exact ⟨addr, pad, hrest, Except.ok.inj (h.symm.trans hread)⟩

/-- What the WRITE row accepts is an address, a data word and pad bytes. -/
theorem decodeWrite_eq_ok {lead : Byte} {tail : List Bool} {rest : List Byte} {i : Instr}
    (h : decodeWrite lead tail rest = .ok i) :
    ∃ addr data pad, rest = addrBytes addr ++ (wordBytes data ++ pad) ∧ i = .write lead addr data pad tail := by
  obtain hlt | hle := Nat.lt_or_ge rest.length 6
  · rw [decodeWrite_of_lt_six lead tail hlt] at h
    cases h
  · obtain ⟨addr, data, pad, hrest, hwrite⟩ := decodeWrite_of_six_le lead tail hle
    exact ⟨addr, data, pad, hrest, Except.ok.inj (h.symm.trans hwrite)⟩

/-! ## The obligations -/

theorem decode_encode (i : Instr) (h : i.wf = true) : decode (encode i) = .ok i := by
  cases i with
  | read lead addr pad tail =>
    have ht : tail.length < 8 := by simpa [Instr.wf] using h
    rw [encode, readFrame, decode_cons_cons _ _ _ ht, decodeRest_opcRead, decodeRead_addrBytes]
  | write lead addr data pad tail =>
    have ht : tail.length < 8 := by simpa [Instr.wf] using h
    rw [encode, writeFrame, decode_cons_cons _ _ _ ht, decodeRest_opcWrite, decodeWrite_addrBytes_wordBytes]
  | unknown lead op rest tail =>
    obtain ⟨⟨ht, hr⟩, hw⟩ : (tail.length < 8 ∧ op ≠ Config.opcRead) ∧ op ≠ Config.opcWrite := by
      simpa [Instr.wf] using h
    rw [encode, unknownFrame, decode_cons_cons _ _ _ ht, decodeRest_other _ _ _ hr hw]

/-- Settles O54: by `decode_encode`, the opcode chooses the row and the row reads the operands back. -/
theorem decodeOfEncode : Obligations.DecodeOfEncode := by
  unfold Obligations.DecodeOfEncode
  exact fun i h => ⟨decode_encode i h, encode_wf i h⟩

/-- Settles O55: the row that the opcode chose wrote the frame it accepts. -/
theorem encodeOfDecode : Obligations.EncodeOfDecode := by
  unfold Obligations.EncodeOfDecode
  intro f i h
  obtain ⟨lead, op, rest, tail, rfl, ht, h⟩ := decode_ok_cases h
  by_cases hr : op = Config.opcRead
  · subst hr
    obtain ⟨addr, pad, rfl, rfl⟩ := decodeRead_eq_ok h
    exact ⟨rfl, by simpa [Instr.wf] using ht⟩
  by_cases hw : op = Config.opcWrite
  · subst hw
    obtain ⟨addr, data, pad, rfl, rfl⟩ := decodeWrite_eq_ok h
    exact ⟨rfl, by simpa [Instr.wf] using ht⟩
  · rw [decodeRest_other lead tail rest hr hw] at h
    cases h
    exact ⟨rfl, by simp [Instr.wf, ht, hr, hw]⟩

/-- Settles O56: the opcode chooses the row, and each row accepts by the number of bytes. -/
theorem decodeByOpcodeAndLength : Obligations.DecodeByOpcodeAndLength := by
  unfold Obligations.DecodeByOpcodeAndLength
  intro lead op rest tail ht
  have hlen : (lead :: op :: rest).length = rest.length + 2 := rfl
  rw [hlen, decode_cons_cons lead op rest ht]
  refine ⟨?read, ?write, fun hr hw => decodeRest_other lead tail rest hr hw, ?readTooShort, ?writeTooShort⟩
  case readTooShort =>
    rintro rfl h
    exact decodeRead_of_lt_two lead tail (by omega)
  case writeTooShort =>
    rintro rfl h
    exact decodeWrite_of_lt_six lead tail (by omega)
  case read =>
    rintro rfl
    constructor
    · rintro ⟨addr, pad, h⟩
      obtain ⟨_, _, rfl, -⟩ := decodeRead_eq_ok h
      simp [addrBytes]
    · intro h
      obtain ⟨addr, pad, -, hread⟩ := decodeRead_of_two_le lead tail (rest := rest) (by omega)
      exact ⟨addr, pad, hread⟩
  case write =>
    rintro rfl
    constructor
    · rintro ⟨addr, data, pad, h⟩
      obtain ⟨_, _, _, rfl, -⟩ := decodeWrite_eq_ok h
      simp [addrBytes]
    · intro h
      obtain ⟨addr, data, pad, -, hwrite⟩ := decodeWrite_of_six_le lead tail (rest := rest) (by omega)
      exact ⟨addr, data, pad, hwrite⟩

/-- The step that takes a whole command from `todo` is the command's meaning. -/
theorem step_of_frame (s : State) {f : Frame} {rest : List Stimulus} {i : Instr} (ht : s.todo = .frame f :: rest)
    (hd : decode f = .ok i) : step s = exec i { s with todo := rest } := by
  simp [step, ht, hd, State.pop]

/-- A word of the opcode table stands for the command of its frame. -/
theorem decode_tableFrame {nbits w : Nat} {i : Instr} (h : decodeTableWord nbits w = some i) :
    decode (tableFrame nbits w) = .ok i := by
  unfold decodeTableWord at h
  split at h
  · next hd => rw [hd, Option.some.inj h]
  · cases h

/-- Settles O3: a table word is placed as its frame, before what was scheduled. -/
theorem stepRunsDecodedCommand : Obligations.StepRunsDecodedCommand := by
  unfold Obligations.StepRunsDecodedCommand
  exact ⟨fun s _ _ _ ht hd => step_of_frame s ht hd,
    fun s nbits w _ h => step_of_frame (s.withFetchWord nbits w) rfl (decode_tableFrame h)⟩

/-- Settles O57: each frame is closed, and the decoder computes. -/
theorem wordsDecode : Obligations.WordsDecode := by
  unfold Obligations.WordsDecode
  decide

end Sys2Proof.Machine
end

section
/-! SUPPORT. The Synchronizer (40_synchronizer.md R111 to R116): a tick without reset takes `Sync.next`, and two such ticks
carry a tick's levels through both stages to the outputs. -/

namespace Sys2Proof.Machine

/-- In a tick without reset of Variant A the Synchronizer takes its next state (40_synchronizer.md R111, R112). -/
theorem State.tick_port_a {s : State} {p : Pins} {y : Sync} {a : PortA} (hp : s.port = .a y a) (hr : p.rst = false) :
    ∃ a', (s.tick p).port = .a (y.next p) a' :=
  ⟨_, by rw [s.tick_a p y a hp hr, State.setPort_port]⟩

/-- A run, with or without resets, keeps the kind of transport. -/
theorem State.run_port_isA {s : State} (l : List Pins) (h : s.port.isA) : (s.run l).port.isA :=
  State.run_keeps (fun t => t.port.isA) (fun t p => (t.tick_preserves p).transport.1) l s h

/-! ## The levels of a tick on the outputs two ticks later, whatever the second tick brings (40_synchronizer.md R114) -/

@[simp] theorem Sync.sclkS_next_next (y : Sync) (p q : Pins) : ((y.next p).next q).sclkS = p.sclk := rfl
@[simp] theorem Sync.selS_next_next (y : Sync) (p q : Pins) : ((y.next p).next q).selS = !p.csN := rfl
@[simp] theorem Sync.mosiS_next_next (y : Sync) (p q : Pins) : ((y.next p).next q).mosiS = p.mosi := rfl

/-- Settles O9: the first `n` ticks leave Variant A with some registers, and the next two carry tick `n` through both
stages. -/
theorem synchronizerLatency : Obligations.SynchronizerLatency := by
  unfold Obligations.SynchronizerLatency
  intro s y a l n p hport hrst hn hlen
  obtain ⟨q, hq⟩ : ∃ q, l[n + 1]? = some q := ⟨_, List.getElem?_eq_getElem hlen⟩
  have htake : l.take (n + 2) = l.take n ++ [p, q] := by simp [List.take_add_one, hn, hq]
  obtain ⟨y0, a0, h0⟩ := State.run_port_isA (l.take n) ⟨y, a, hport⟩
  obtain ⟨a1, h1⟩ := State.tick_port_a h0 (hrst p (List.mem_of_getElem? hn))
  obtain ⟨a2, h2⟩ := State.tick_port_a h1 (hrst q (List.mem_of_getElem? hq))
  refine ⟨(y0.next p).next q, a2, ?_, y0.sclkS_next_next p q, y0.selS_next_next p q, y0.mosiS_next_next p q⟩
  rw [htake, State.run_append, State.run_cons, State.run_cons, State.run_nil, h2]

/-- Settles O8: the two stages are those of `Sync.next`. -/
theorem synchronizerStages : Obligations.SynchronizerStages := by
  unfold Obligations.SynchronizerStages
  exact fun _ _ _ _ hport hrst => State.tick_port_a hport hrst

end Sys2Proof.Machine
end

section
/-! SUPPORT. Transport A (41_transport_a.md): the events of each operation (R122 to R126), and the tick that has none (R132,
R135); and the counter of the Bridge at the end of a frame (43_bridge.md R197). -/

namespace Sys2Proof.Machine

/-! ## One tick of a state with Transport A -/

theorem State.events_a {s : State} {y : Sync} {a : PortA} (hp : s.port = .a y a) (i : Inputs) :
    s.events i = a.events y := by
  rw [State.events, hp, Port.events]

theorem State.tick_port_a_next {s : State} {p : Pins} {y : Sync} {a : PortA} (hp : s.port = .a y a)
    (hr : p.rst = false) : (s.tick p).port = .a (y.next p) (a.next y (s.txByte (s.inputs p))) := by
  rw [s.tick_port_of_no_reset p hr, hp, Port.next, State.inputs_pins]

/-! ## Transitions and edges, from the lines and the latches (41_transport_a.md R120, R121) -/

theorem PortA.start_iff (a : PortA) (y : Sync) : a.start y = true ↔ y.csn2 = false ∧ a.selPrev = false := by
  simp [PortA.start, Sync.selS]

theorem PortA.done_iff (a : PortA) (y : Sync) : a.done y = true ↔ y.csn2 = true ∧ a.selPrev = true := by
  simp [PortA.done, Sync.selS]

theorem PortA.active_iff (a : PortA) (y : Sync) : a.active y = true ↔ y.csn2 = false ∧ a.selPrev = true := by
  simp [PortA.active, Sync.selS]

theorem PortA.rise_iff (a : PortA) (y : Sync) : a.rise y = true ↔ y.sclk2 = true ∧ a.sclkPrev = false := by
  simp [PortA.rise, Sync.sclkS]

theorem PortA.fall_iff (a : PortA) (y : Sync) : a.fall y = true ↔ y.sclk2 = false ∧ a.sclkPrev = true := by
  simp [PortA.fall, Sync.sclkS]

/-! ## The events of each operation (41_transport_a.md R127, R128, R131) -/

theorem PortA.events_start (a : PortA) (y : Sync) (h : a.start y = true) :
    a.events y = { start := true, byteReady := false, byte := a.rxShift, done := false, txReq := true } := by
  obtain ⟨hsel, hprev⟩ := (a.start_iff y).1 h
  simp [PortA.events, PortA.start, PortA.done, PortA.active, Sync.selS, hsel, hprev]

theorem PortA.events_done (a : PortA) (y : Sync) (h : a.done y = true) :
    a.events y = { start := false, byteReady := false, byte := a.rxShift, done := true, txReq := false } := by
  obtain ⟨hsel, hprev⟩ := (a.done_iff y).1 h
  simp [PortA.events, PortA.start, PortA.done, PortA.active, Sync.selS, hsel, hprev]

theorem PortA.events_byte (a : PortA) (y : Sync) (h : a.active y = true) (hf : a.fall y = true)
    (hb : a.byteDone = true) :
    a.events y = { start := false, byteReady := true, byte := a.rxShift, done := false, txReq := true } := by
  obtain ⟨hstart, hdone⟩ := a.active_excl y h
  simp [PortA.events, h, hf, hb, hstart, hdone]

/-- Without `start` and `done` there is an event only where a falling edge completes a byte. -/
theorem PortA.events_isQuiet (a : PortA) (y : Sync) (hs : a.start y = false) (hd : a.done y = false)
    (hb : (a.active y && a.fall y && a.byteDone) = false) : (a.events y).isQuiet := by
  simp [PortA.events, hs, hd, hb]

/-- A tick without an operation: deselected, or active without an edge (41_transport_a.md R132, R135). -/
theorem PortA.next_none (a : PortA) (y : Sync) (t : Byte) (hs : a.start y = false) (hd : a.done y = false)
    (hr : (a.active y && a.rise y) = false) (hf : (a.active y && a.fall y) = false) :
    a.next y t = { a with sclkPrev := y.sclkS, selPrev := y.selS } := by
  simp only [PortA.next, PortA.operate, hs, hd, hr, hf, Bool.false_eq_true, if_false]

/-! ## The shift registers as words (41_transport_a.md R124, R126) -/

theorem shiftIn_eq_or (v : Byte) (m : Bool) : shiftIn v m = v <<< 1 ||| (if m then 1#8 else 0#8) := by
  apply BitVec.eq_of_getLsbD_eq
  intro i hi
  rw [getLsbD_shiftIn v m i hi, BitVec.getLsbD_or, BitVec.getLsbD_shiftLeft]
  rcases Nat.eq_zero_or_pos i with rfl | hpos
  · cases m <;> simp
  · cases m <;> simp [hi, Nat.ne_of_gt hpos]

theorem shiftIn_false (v : Byte) : shiftIn v false = v <<< 1 := by
  rw [shiftIn_eq_or]
  exact BitVec.or_zero

/-! ## The operations of a tick -/

/-- Settles O10: `start` holds, which comes first in the priority of 41_transport_a.md R134. -/
theorem transportAStart : Obligations.TransportAStart := by
  unfold Obligations.TransportAStart
  intro s y a p hp hr hsel hprev
  have hstart := (a.start_iff y).2 ⟨hsel, hprev⟩
  rw [State.events_a hp, a.events_start y hstart, State.tick_port_a_next hp hr, a.next_start y _ hstart]
  exact ⟨rfl, rfl, rfl, rfl, y.next p, by simp [PortA.onStart, Sync.selS, Sync.sclkS, hsel]⟩

/-- Settles O11: `done` holds, and the condition of the partial flag is `PortA.incomplete`. -/
theorem transportADone : Obligations.TransportADone := by
  unfold Obligations.TransportADone
  intro s y a p hp hr hsel hprev
  have hdone := (a.done_iff y).2 ⟨hsel, hprev⟩
  rw [State.events_a hp, a.events_done y hdone, State.tick_port_a_next hp hr, a.next_done y _ hdone]
  exact ⟨rfl, rfl, rfl, rfl, y.next p, by simp [PortA.onDone, PortA.incomplete, Sync.selS, Sync.sclkS, hsel]⟩

/-- Settles O12: a rising edge is no falling edge, so no byte completes in its tick. -/
theorem transportASample : Obligations.TransportASample := by
  unfold Obligations.TransportASample
  intro s y a p hp hr hsel hprev hclk hlow
  have hactive := (a.active_iff y).2 ⟨hsel, hprev⟩
  have hrise := (a.rise_iff y).2 ⟨hclk, hlow⟩
  have hfall : a.fall y = false := by simp [PortA.fall, hlow]
  obtain ⟨hstart, hdone⟩ := a.active_excl y hactive
  obtain ⟨hs, hb, hd, hq⟩ := a.events_isQuiet y hstart hdone (by simp [hfall])
  rw [State.events_a hp, State.tick_port_a_next hp hr, a.next_rise y _ hactive hrise]
  exact ⟨hs, hb, hd, hq, y.next p, by
    simp [PortA.onRise, shiftIn_eq_or, Sync.selS, Sync.sclkS, Sync.mosiS, hsel, hclk]⟩

/-- Settles O13: an active falling edge with the byte flag set is `PortA.next_byte`, and its events hold the request. -/
theorem transportAByte : Obligations.TransportAByte := by
  unfold Obligations.TransportAByte
  intro s y a p hp hr hsel hprev hclk hhigh hbyte
  have hactive := (a.active_iff y).2 ⟨hsel, hprev⟩
  have hfall := (a.fall_iff y).2 ⟨hclk, hhigh⟩
  rw [State.events_a hp, a.events_byte y hactive hfall hbyte, State.tick_port_a_next hp hr,
    a.next_byte y _ hactive hfall hbyte]
  exact ⟨rfl, rfl, rfl, rfl, rfl, y.next p, by simp [PortA.onByte, Sync.selS, Sync.sclkS, hsel, hclk]⟩

/-- Settles O14: without the byte flag a falling edge has no event. -/
theorem transportAShift : Obligations.TransportAShift := by
  unfold Obligations.TransportAShift
  intro s y a p hp hr hsel hprev hclk hhigh hbyte
  have hactive := (a.active_iff y).2 ⟨hsel, hprev⟩
  have hfall := (a.fall_iff y).2 ⟨hclk, hhigh⟩
  obtain ⟨hstart, hdone⟩ := a.active_excl y hactive
  obtain ⟨hs, hb, hd, hq⟩ := a.events_isQuiet y hstart hdone (by simp [hbyte])
  rw [State.events_a hp, State.tick_port_a_next hp hr, a.next_shift y _ hactive hfall hbyte]
  exact ⟨hs, hb, hd, hq, y.next p, by simp [PortA.onShift, shiftIn_false, Sync.selS, Sync.sclkS, hsel, hclk, hbyte]⟩

/-- Settles O15: deselected in this tick and the last, the transport is not active; selected in both, the clock has
no edge. -/
theorem transportALatches : Obligations.TransportALatches := by
  unfold Obligations.TransportALatches
  intro s y a p hp hr
  rw [State.events_a hp, State.tick_port_a_next hp hr]
  refine ⟨⟨_, _, rfl, rfl, rfl⟩, fun h => ?_⟩
  have hprev : a.selPrev = y.selS := by
    rcases h with ⟨hsel, hprev⟩ | ⟨hsel, hprev, -⟩ <;> simp [Sync.selS, hsel, hprev]
  have hedge : a.active y = false ∨ y.sclkS = a.sclkPrev := by
    rcases h with ⟨hsel, -⟩ | ⟨-, -, hclk⟩
    · exact .inl (by simp [PortA.active, Sync.selS, hsel])
    · exact .inr hclk
  have hstart : a.start y = false := by simp [PortA.start, hprev]
  have hdone : a.done y = false := by simp [PortA.done, hprev]
  have hrise : (a.active y && a.rise y) = false := by rcases hedge with h | h <;> simp [PortA.rise, h]
  have hfall : (a.active y && a.fall y) = false := by rcases hedge with h | h <;> simp [PortA.fall, h]
  obtain ⟨hs, hb, hd, hq⟩ := a.events_isQuiet y hstart hdone (by rw [hfall, Bool.false_and])
  refine ⟨hs, hb, hd, hq, y.next p, ?_⟩
  rw [a.next_none y _ hstart hdone hrise hfall, ← hprev]
  rfl

theorem State.outputs_port_a {s : State} {y : Sync} {a : PortA} (hp : s.port = .a y a) :
    s.outputs.port = .a a.txShift.msb a.partialFlag := by
  rw [State.outputs, hp]
  rfl

/-- Settles O16: `miso` is the top bit of the register. -/
theorem transportAOutputs : Obligations.TransportAOutputs := by
  unfold Obligations.TransportAOutputs
  intro s y a hp
  rw [State.outputs_port_a hp, BitVec.msb_eq_getLsbD_last]

/-! ## The counter of the Bridge at the end of a frame (43_bridge.md R197) -/

/-- A tick that shows nothing leaves the counter alone, in every state of the Bridge. -/
theorem Bridge.next_count_of_silent (b : Bridge) (e : Events) (s : BusSide) (h : e.visible = []) :
    (b.next e s).count = b.count := by
  obtain ⟨hs, hb, hd⟩ := Events.visible_eq_nil h
  cases hst : b.state with
  | idle => simp [b.next_idle e s hst hs, hd]
  | command => simp [b.next_command_quiet e s hst hs hd hb]
  | read => simp [b.next_cycle e s (.inl hst), hd]
  | write => simp [b.next_cycle e s (.inr hst), hd]

/-- `Done` clears the counter, in every state of the Bridge. -/
theorem Bridge.next_count_of_done (b : Bridge) (e : Events) (s : BusSide) (h : e.visible = [.done]) :
    (b.next e s).count = 0#3 := by
  obtain ⟨hs, hd⟩ := Events.visible_eq_done h
  cases hst : b.state with
  | idle => simp [b.next_idle e s hst hs, hd]
  | command => simp [b.next_command_done e s hst hs hd]
  | read => simp [b.next_cycle e s (.inl hst), hd]
  | write => simp [b.next_cycle e s (.inr hst), hd]

/-- Of the events of a frame, the `Done` is still to be shown, or it has cleared the counter. -/
def Bridge.DoneToCome (b : Bridge) (todo : List FrameEvent) : Prop :=
  (∃ l, todo = l ++ [.done]) ∨ (todo = [] ∧ b.count = 0#3)

theorem Bridge.DoneToCome.silent {b : Bridge} {todo : List FrameEvent} (h : b.DoneToCome todo) (e : Events)
    (s : BusSide) (he : e.visible = []) : (b.next e s).DoneToCome todo := by
  rcases h with h | ⟨htodo, hcount⟩
  · exact .inl h
  · exact .inr ⟨htodo, by rw [b.next_count_of_silent e s he, hcount]⟩

theorem Bridge.DoneToCome.move {b : Bridge} {x : FrameEvent} {todo : List FrameEvent} (h : b.DoneToCome (x :: todo))
    (e : Events) (s : BusSide) (he : e.visible = [x]) : (b.next e s).DoneToCome todo := by
  rcases h with ⟨l, hl⟩ | ⟨htodo, -⟩
  · cases l with
    | nil =>
      obtain ⟨rfl, rfl⟩ : x = .done ∧ todo = [] := by simpa using hl
      exact .inr ⟨rfl, b.next_count_of_done e s he⟩
    | cons z l => exact .inl ⟨l, (List.cons.inj hl).2⟩
  · simp at htodo

/-- A list of events whose last one shown is `Done` leaves the counter clear. -/
theorem State.bridgeRun_count (s : State) (es : List Events) (hes : ∀ e ∈ es, e.visible.length ≤ 1)
    (l : List FrameEvent) (hl : shownBy es = l ++ [.done]) : (s.bridgeRun es).br.count = 0#3 := by
  have hend : (s.bridgeRun es).br.DoneToCome [] :=
    stagesShown (fun todo u => u.br.DoneToCome todo) (fun e _ u he h => h.silent e u.bus he)
      (fun e _ _ u he h => h.move e u.bus he) es hes s (.inl ⟨l, hl⟩)
  rcases hend with ⟨l, hl⟩ | ⟨-, hcount⟩
  · simp at hl
  · exact hcount

/-- Settles O41: `State.runFrame_whole` gives the events and requests of either transport, `State.runFrame_a` where Transport A
ends. -/
theorem commandFrameEvents : Obligations.CommandFrameEvents := by
  unfold Obligations.CommandFrameEvents
  intro i s hi hs
  have hf := encode_wf i hi
  obtain ⟨es, q, hrun, hq, hvisible, hshown, hreq⟩ := s.runFrame_whole hs (encode i) hf
  have hkept := s.runFrame_preserves (encode i)
  refine ⟨_, exec_eq_runFrame_encode i s, ?seen, ?idle, hkept.cfg, hkept.todo, ?count, ?served, ?flag⟩
  case seen => rw [hrun, State.setPort_seen, State.bridgeRun_seen, hshown]
  case idle => rw [hrun, State.setPort_port]; exact hq
  case count =>
    rw [hrun, State.setPort_br]
    exact s.bridgeRun_count es hvisible (.start :: (encode i).bytes.map .byteReady) hshown
  case served => rw [hrun, State.setPort_served, State.bridgeRun_served_length, hreq, Nat.add_assoc]
  case flag =>
    intro y a hp
    have hidle : idleA y a := by simpa [hp] using hs.2
    obtain ⟨y', a', hend, -, hcount, hdone, hflag⟩ := State.runFrame_a (encode i) s y a hp hidle hf
    exact ⟨y', a', by rw [hend, State.setPort_port], hcount, hdone, hflag⟩

end Sys2Proof.Machine
end

section
/-! SUPPORT. What the master samples on `miso` in a frame of Variant A under T4 (41_transport_a.md R136): a request puts the
byte it takes in the transmit register, each falling edge in the middle of a byte moves its next bit to the top, and each
rising edge samples the top bit. -/

namespace Sys2Proof.Machine

/-! ## The bits of a byte that is shifted out (41_transport_a.md R126) -/

theorem byteBits_eq_msb_cons (v : Byte) : byteBits v = v.msb :: (byteBits v).tail := by
  rw [BitVec.msb_eq_getLsbD_last]
  rfl

@[simp] theorem byteBits_length (v : Byte) : (byteBits v).length = 8 := by simp [byteBits]

@[simp] theorem byteBits_take (v : Byte) : (byteBits v).take 8 = byteBits v := List.take_of_length_le (by simp)

/-- A shift takes the top bit off and puts the new one after the last. -/
theorem byteBits_shiftIn (v : Byte) (m : Bool) : byteBits (shiftIn v m) = (byteBits v).tail ++ [m] := by
  simp (disch := omega) only [byteBits, List.range, List.range.loop, List.map, getLsbD_shiftIn]
  rfl

/-! ## Four ticks of unchanging pins (95_test_vectors.md section 0.1) -/

/-- A tick whose levels are those of the last one changes the Synchronizer alone, and takes no byte. -/
theorem State.tick_settled {s : State} {y : Sync} {a : PortA} (hp : s.port = .a y a) (hc : a.sclkPrev = y.sclkS)
    (hs : a.selPrev = y.selS) (p : Pins) (hr : p.rst = false) :
    (s.tick p).port = .a (y.next p) a ∧ (s.tick p).served = s.served := by
  rw [s.tick_a p y a hp hr, a.next_settled y _ hc hs, s.bridgeTick_isQuiet _ (a.events_settled y hc hs)]
  exact ⟨rfl, by simp⟩

/-- In four ticks of unchanging pins whose new levels make a request, the transmit register is offered the byte that the
request takes. -/
theorem State.run_phase_request {s : State} {y : Sync} {a : PortA} (hp : s.port = .a y a) (hs : settled y a) (p : Pins)
    (hr : p.rst = false) (hreq : (a.events (level p)).txReq = true) :
    ∃ t, (s.run (List.replicate 4 p)).port = .a (level p) (a.next (level p) t) ∧
      (s.run (List.replicate 4 p)).served = s.served ++ [t] := by
  obtain ⟨hclk1, hclk2, hsel1, hsel2⟩ := hs
  obtain ⟨hport1, hserved1⟩ := State.tick_settled hp hclk2.symm (by simp [Sync.selS, hsel2]) p hr
  obtain ⟨hport2, hserved2⟩ := State.tick_settled hport1 hclk1.symm (by simp [Sync.selS, Sync.next, hsel1]) p hr
  have htick := ((s.tick p).tick p).tick_a p (level p) a hport2 hr
  obtain ⟨hport4, hserved4⟩ := State.tick_settled (s := ((s.tick p).tick p).tick p) (by rw [htick]; rfl)
    rfl rfl p hr
  refine ⟨_, hport4, hserved4.trans ?_⟩
  rw [htick, State.setPort_served, State.bridgeTick_served, hreq, if_pos rfl, hserved2, hserved1]

/-! ## From bit to bit of a frame -/

/-- Between two bits of a frame, the clock low and the latches settled: `k` bits of the current byte are sampled, and the
transmit register holds `v`. -/
def State.AtBit (s : State) (k : BitVec 3) (v : Byte) : Prop :=
  ∃ y a, s.port = .a y a ∧ settled y a ∧ a.selPrev = true ∧ a.sclkPrev = false ∧ a.byteDone = false ∧
    a.bitCount = k ∧ a.txShift = v

/-- The pins from one such point to the next: the clock high with the data bit `m`, then low with the next one. -/
def slotPins (m m' : Bool) : List Pins := List.replicate 4 (spi false true m) ++ List.replicate 4 (spi false false m')

/-- The first phase of a frame takes a byte and puts it in the transmit register. -/
theorem State.atBit_of_select {s : State} {y : Sync} {a : PortA} (hp : s.port = .a y a) (hi : idleA y a) (m : Bool) :
    ∃ t, (s.run (List.replicate 4 (spi false false m))).AtBit 0#3 t ∧
      (s.run (List.replicate 4 (spi false false m))).served = s.served ++ [t] := by
  obtain ⟨hclk1, hclk2, hsel1, hsel2, hclk, hsel⟩ := hi
  have hs : settled y a := by simp [settled, hclk1, hclk2, hsel1, hsel2, hclk, hsel]
  have hstart : a.start (level (spi false false m)) = true := (a.start_iff _).2 ⟨rfl, hsel⟩
  obtain ⟨t, hport, hserved⟩ := State.run_phase_request hp hs (spi false false m) rfl (by rw [a.events_start _ hstart])
  refine ⟨t, ⟨_, _, hport, settled_next _ _ _, rfl, rfl, ?_⟩, hserved⟩
  rw [a.next_start _ _ hstart]
  exact ⟨rfl, rfl, rfl⟩

/-- In the middle of a byte the transmit register shifts. -/
theorem State.AtBit.shift {s : State} {k : BitVec 3} {v : Byte} (h : s.AtBit k v) (hk : k ≠ 7#3) (m m' : Bool) :
    (s.run (slotPins m m')).AtBit (k + 1#3) (shiftIn v false) ∧ (s.run (slotPins m m')).served = s.served := by
  obtain ⟨y, a, hp, hs, hsel, hclk, hdone, rfl, rfl⟩ := h
  rw [slotPins, State.run_append, s.run_high m y a hp hs hsel hclk hdone,
    State.run_low_shift _ m' _ _ rfl (settled_level _ _ rfl rfl) rfl rfl (by simp [hk])]
  exact ⟨⟨_, _, rfl, settled_level _ _ rfl rfl, rfl, rfl, by simp [hk], rfl, rfl⟩, by simp⟩

/-- After the eighth bit the transmit register takes the byte of a request. -/
theorem State.AtBit.load {s : State} {v : Byte} (h : s.AtBit 7#3 v) (m m' : Bool) :
    ∃ t, (s.run (slotPins m m')).AtBit 0#3 t ∧ (s.run (slotPins m m')).served = s.served ++ [t] := by
  obtain ⟨y, a, hp, hs, hsel, hclk, hdone, hk, rfl⟩ := h
  have hhigh := s.run_high m y a hp hs hsel hclk hdone
  have hport : (s.run (List.replicate 4 (spi false true m))).port = .a _ _ := congrArg State.port hhigh
  have hserved : (s.run (List.replicate 4 (spi false true m))).served = s.served := by rw [hhigh]; simp
  have hbyte : decide (a.bitCount = 7#3) = true := by simp [hk]
  obtain ⟨t, hport', hserved'⟩ := State.run_phase_request hport (settled_level _ _ rfl rfl) (spi false false m') rfl
    (by rw [PortA.events_byte _ _ rfl rfl hbyte])
  rw [PortA.next_byte _ _ _ rfl rfl hbyte] at hport'
  rw [slotPins, State.run_append]
  exact ⟨t, ⟨_, _, hport', settled_level _ _ rfl rfl, rfl, rfl, rfl, by simp [PortA.onByte, hk], rfl⟩,
    hserved'.trans (by rw [hserved])⟩

/-- The bits sampled in four ticks of unchanging pins: one, where their clock is a rise. -/
theorem State.received_phase (s : State) (clk : Bool) (p : Pins) (l : List Pins) :
    s.received clk (List.replicate 4 p ++ l) =
      (if p.sclk && !clk then misoOf s.outputs.port else []) ++ (s.run (List.replicate 4 p)).received p.sclk l := by
  simp [List.replicate_succ, State.received]

/-- In one slot the master samples the top bit of the transmit register (41_transport_a.md R129, R136). -/
theorem State.AtBit.received_slot {s : State} {k : BitVec 3} {v : Byte} (h : s.AtBit k v) (m m' : Bool)
    (l : List Pins) :
    s.received false (slotPins m m' ++ l) = v.msb :: (s.run (slotPins m m')).received false l := by
  obtain ⟨y, a, hp, -, -, -, -, -, rfl⟩ := h
  rw [slotPins, List.append_assoc, s.received_phase, State.received_phase, State.run_append, State.outputs_port_a hp]
  rfl

theorem laterPins_cons (m : Bool) (ms : List Bool) :
    laterPins (m :: ms) = slotPins m (ms.headD false) ++ laterPins ms := by
  rw [laterPins, slotPins, List.append_assoc]

/-- From a point where `k` bits of a byte are out, the master samples the other bits of the transmit register, then those
of the bytes that later requests take. -/
theorem State.AtBit.received_later (ms : List Bool) {s : State} {k : BitVec 3} {v : Byte} (h : s.AtBit k v) :
    ∃ new, (s.run (laterPins ms)).served = s.served ++ new ∧
      s.received false (laterPins ms) =
        ((byteBits v).take (8 - k.toNat) ++ new.flatMap byteBits).take ms.length := by
  induction ms generalizing s k v with
  | nil =>
    obtain ⟨y, a, hp, hs, hsel, -⟩ := h
    refine ⟨[], ?_, rfl⟩
    rw [laterPins, s.run_deselect y a hp hs hsel]
    simp
  | cons m ms ih =>
    rw [laterPins_cons, State.run_append, h.received_slot, byteBits_eq_msb_cons]
    by_cases hk : k = 7#3
    · subst hk
      obtain ⟨t, hat, hserved⟩ := h.load m (ms.headD false)
      obtain ⟨new, hserved', hreceived⟩ := ih hat
      refine ⟨t :: new, by rw [hserved', hserved, List.append_assoc, List.singleton_append], ?_⟩
      rw [hreceived]
      simp
    · obtain ⟨hat, hserved⟩ := h.shift hk m (ms.headD false)
      obtain ⟨new, hserved', hreceived⟩ := ih hat
      have hk1 : 8 - k.toNat = 8 - (k + 1#3).toNat + 1 := by bv_omega
      have htail : 8 - (k + 1#3).toNat ≤ (byteBits v).tail.length := by
        rw [List.length_tail, byteBits_length]
        bv_omega
      refine ⟨new, by rw [hserved', hserved], ?_⟩
      rw [hreceived, hk1, byteBits_shiftIn, List.take_append_of_le_length htail]
      rfl

/-- The bits of a whole frame are those of the bytes its requests take, from the one of its `Start` on. -/
theorem State.received_frame {s : State} {y : Sync} {a : PortA} (hp : s.port = .a y a) (hi : idleA y a) (f : Frame) :
    ∃ new, (s.run (framePins f)).served = s.served ++ new ∧
      s.received false (framePins f) = (new.flatMap byteBits).take (frameBits f).length := by
  obtain ⟨t, hat, hserved⟩ := State.atBit_of_select hp hi ((frameBits f).headD false)
  obtain ⟨new, hserved', hreceived⟩ := hat.received_later (frameBits f)
  refine ⟨t :: new, ?_, ?_⟩
  · rw [framePins, bitPins_regroup, State.run_append, hserved', hserved, List.append_assoc, List.singleton_append]
  · rw [framePins, bitPins_regroup, s.received_phase, List.flatMap_cons, ← byteBits_take t]
    exact hreceived

/-- Settles O49: a frame of Variant A is the run of its pins, and `State.received_frame` says what the master samples in it. -/
theorem masterReceivesServedBytes : Obligations.MasterReceivesServedBytes := by
  unfold Obligations.MasterReceivesServedBytes
  intro i s y a _ hs hp
  have hidle : idleA y a := by simpa [hp] using hs.2
  have hrun : s.runFrame (encode i) = s.run (framePins (encode i)) := by simp [State.runFrame, hp]
  obtain ⟨new, hserved, hreceived⟩ := State.received_frame hp hidle (encode i)
  exact ⟨_, new, exec_eq_runFrame_encode i s, by rw [hrun, hserved], hreceived⟩

end Sys2Proof.Machine
end

section
/-! SUPPORT. Transport B (42_transport_b.md R151 to R162): the SB port in each state of the adapter, a tick without an
acknowledge, which leaves a register cycle as it is, and a tick with one, which leaves the state. -/

namespace Sys2Proof.Machine

/-! ## One tick of a state with Transport B -/

theorem State.events_b {s : State} {b : PortB} (hp : s.port = .b b) (p : Pins) :
    s.events (s.inputs p) = b.events s.cfg p.sbAck p.sbDatR := by
  rw [State.events, hp, Port.events, State.inputs_pins]

theorem State.tick_port_b_next {s : State} {b : PortB} {p : Pins} (hp : s.port = .b b) (hr : p.rst = false) :
    (s.tick p).port = .b (b.next s.cfg p.sbAck p.sbDatR (s.txByte (s.inputs p))) := by
  rw [s.tick_port_of_no_reset p hr, hp, Port.next, State.inputs_pins]

theorem State.outputs_port_b {s : State} {b : PortB} (hp : s.port = .b b) : s.outputs.port = b.out s.cfg := by
  rw [State.outputs, hp]
  rfl

/-- No run writes the parameters. -/
@[simp] theorem State.run_cfg (s : State) (l : List Pins) : (s.run l).cfg = s.cfg :=
  State.run_keeps (fun t => t.cfg = s.cfg) (fun t p h => (t.tick_cfg p).trans h) l s rfl

/-! ## The outputs of the SB port (42_transport_b.md R152) -/

theorem PortB.out_reset (b : PortB) (p : Params) (h : b.state = .reset) :
    b.out p = .b true true p.sbRegCr p.sbCrEnable := by simp [PortB.out, h]

theorem PortB.out_idle (b : PortB) (p : Params) (h : b.state = .idle) :
    b.out p = .b false false p.sbRegSr b.txData := by simp [PortB.out, h]

theorem PortB.out_poll (b : PortB) (p : Params) (h : b.state = .poll) :
    b.out p = .b true false p.sbRegSr b.txData := by simp [PortB.out, h]

theorem PortB.out_rxread (b : PortB) (p : Params) (h : b.state = .rxread) :
    b.out p = .b true false p.sbRegRxdr b.txData := by simp [PortB.out, h]

theorem PortB.out_txwrite (b : PortB) (p : Params) (h : b.state = .txwrite) :
    b.out p = .b true true p.sbRegTxdr b.txData := by simp [PortB.out, h]

/-! ## A tick without an acknowledge, and a tick with one (42_transport_b.md R151) -/

/-- Every state but IDLE waits: only the delayed copy of busy follows. -/
theorem PortB.next_of_no_ack (b : PortB) (p : Params) (d t : Byte) (h : b.state ≠ .idle) :
    b.next p false d t = { b with busyPrev := b.busy } := by
  cases hst : b.state with
  | reset => simp [b.next_reset p false d t hst, PortB.inReset, hst]
  | idle => exact absurd hst h
  | poll => simp [b.next_poll p false d t hst, PortB.inPoll, hst]
  | rxread => simp [b.next_rxread p false d t hst, PortB.inRxRead, hst]
  | txwrite => simp [b.next_txwrite p false d t hst, PortB.inTxWrite, hst]

/-- Every state but IDLE is left on the acknowledge. -/
theorem PortB.next_state_ne_of_ack (b : PortB) (p : Params) (d t : Byte) (h : b.state ≠ .idle) :
    (b.next p true d t).state ≠ b.state := by
  cases hst : b.state with
  | reset => simp [b.next_reset p true d t hst, PortB.inReset]
  | idle => exact absurd hst h
  | poll =>
    rw [b.next_poll p true d t hst, PortB.inPoll, if_pos rfl]
    split_ifs <;> simp
  | rxread => simp [b.next_rxread p true d t hst, PortB.inRxRead]
  | txwrite => simp [b.next_txwrite p true d t hst, PortB.inTxWrite]

/-- A run without an acknowledge changes at most the delayed copy of busy. -/
theorem State.run_port_b_of_no_ack (l : List Pins) (hl : ∀ p ∈ l, p.rst = false ∧ p.sbAck = false) {s : State}
    {b : PortB} (hp : s.port = .b b) (hst : b.state ≠ .idle) :
    ∃ v, (s.run l).port = .b { b with busyPrev := v } := by
  induction l generalizing s b with
  | nil => exact ⟨b.busyPrev, hp⟩
  | cons p l ih =>
    rw [List.forall_mem_cons] at hl
    obtain ⟨⟨hr, hack⟩, hl⟩ := hl
    have hport : (s.tick p).port = .b { b with busyPrev := b.busy } := by
      rw [State.tick_port_b_next hp hr, hack, b.next_of_no_ack _ _ _ hst]
    exact ih hl (b := { b with busyPrev := b.busy }) hport hst

/-- Settles O24: what a run without an acknowledge may change, the SB port does not show; and the IDLE tick does not
look at the acknowledge. -/
theorem registerCycleHeldUntilAck : Obligations.RegisterCycleHeldUntilAck := by
  unfold Obligations.RegisterCycleHeldUntilAck
  refine ⟨fun s b l hp hst hl => ?_, fun s b p hp hst hr hack => ?_, fun s b p hp hst hr => ?_⟩
  · obtain ⟨v, hport⟩ := State.run_port_b_of_no_ack l hl hp hst
    refine ⟨⟨_, hport, rfl⟩, ?_⟩
    rw [State.outputs_port_b hport, State.outputs_port_b hp, State.run_cfg]
    rfl
  · refine ⟨_, State.tick_port_b_next hp hr, ?_⟩
    rw [hack]
    exact b.next_state_ne_of_ack _ _ _ hst
  · have hidle : ∀ k, (s.tick { p with sbAck := k }).port = .b { b.inIdle with busyPrev := b.busy } := fun k => by
      rw [State.tick_port_b_next hp (p := { p with sbAck := k }) hr, b.next_idle _ _ _ _ hst]
    rw [hidle, hidle]

/-! ## The operations of the adapter's states -/

/-- Settles O22: the table of R152, row by row. -/
theorem adapterOutputs : Obligations.AdapterOutputs := by
  unfold Obligations.AdapterOutputs
  intro s b hp
  rw [State.outputs_port_b hp]
  exact ⟨b.out_reset _, b.out_idle _, b.out_poll _, b.out_rxread _, b.out_txwrite _⟩

/-- No event is possible in RESET (42_transport_b.md R153). -/
theorem PortB.Inv.events_reset_isQuiet {b : PortB} (h : b.Inv) (hst : b.state = .reset) (p : Params) (k : Bool)
    (sr : Byte) : (b.events p k sr).isQuiet := by
  obtain ⟨hbusy, hprev, hrx⟩ := h.2.2 hst
  simp [PortB.events, PortB.busyRise, PortB.busyFall, hst, hbusy, hprev, hrx]

/-- Settles O19: the two write states differ from a wait in the acknowledged tick alone. -/
theorem adapterResetIdleTxWrite : Obligations.AdapterResetIdleTxWrite := by
  unfold Obligations.AdapterResetIdleTxWrite
  intro s b p hp hr
  rw [State.outputs_port_b hp, State.events_b hp, State.tick_port_b_next hp hr]
  refine ⟨fun hst => ⟨b.out_reset _ hst, fun hinv => ?_, ?_⟩, fun hst => ⟨⟨_, _, _, b.out_idle _ hst⟩, ?_⟩,
    fun hst => ⟨b.out_txwrite _ hst, ?_⟩⟩
  · exact hinv.events_reset_isQuiet hst _ _ _
  · rw [b.next_reset _ _ _ _ hst, PortB.inReset]
    cases p.sbAck <;> simp [hst]
  · rw [b.next_idle _ _ _ _ hst, PortB.inIdle]
  · rw [b.next_txwrite _ _ _ _ hst, PortB.inTxWrite]
    cases p.sbAck <;> simp [hst]

/-! ## An acknowledged status read (42_transport_b.md R155) -/

theorem PortB.next_poll_rxready (b : PortB) (p : Params) (sr t : Byte) (h : b.state = .poll)
    (hr : rrdyBit p sr = true) :
    b.next p true sr t = { b with busyPrev := b.busy, busy := busyBit p sr, state := .rxread } := by
  simp [b.next_poll p true sr t h, PortB.inPoll, hr]

theorem PortB.next_poll_txready (b : PortB) (p : Params) (sr t : Byte) (h : b.state = .poll)
    (hr : rrdyBit p sr = false) (ht : trdyBit p sr = true) :
    b.next p true sr t = { b with busyPrev := b.busy, busy := busyBit p sr, txData := t, state := .txwrite } := by
  simp [b.next_poll p true sr t h, PortB.inPoll, hr, ht]

theorem PortB.next_poll_unready (b : PortB) (p : Params) (sr t : Byte) (h : b.state = .poll)
    (hr : rrdyBit p sr = false) (ht : trdyBit p sr = false) :
    b.next p true sr t = { b with busyPrev := b.busy, busy := busyBit p sr, state := .idle } := by
  simp [b.next_poll p true sr t h, PortB.inPoll, hr, ht]

/-- Busy takes the level shown, in each of the three branches. -/
theorem PortB.next_poll_busy (b : PortB) (p : Params) (sr t : Byte) (h : b.state = .poll) :
    (b.next p true sr t).busy = busyBit p sr := by
  rw [b.next_poll p true sr t h, PortB.inPoll, if_pos rfl]
  split_ifs <;> rfl

/-- Settles O20: a wait, then the three answers of an acknowledged status read. -/
theorem adapterPoll : Obligations.AdapterPoll := by
  unfold Obligations.AdapterPoll
  intro s b p hp
  rw [State.events_b hp]
  refine ⟨rfl, fun hr hst => ?_⟩
  rw [State.outputs_port_b hp, State.tick_port_b_next hp hr]
  refine ⟨⟨_, b.out_poll _ hst⟩, fun hack => ?_, fun hack hrrdy => ?_, fun hack hrrdy htrdy => ?_,
    fun hack hrrdy htrdy => ?_⟩ <;> rw [hack]
  · rw [b.next_of_no_ack _ _ _ (by simp [hst])]
  · exact congrArg Port.b (b.next_poll_rxready _ _ _ hst hrrdy)
  · exact congrArg Port.b (b.next_poll_txready _ _ _ hst hrrdy htrdy)
  · exact congrArg Port.b (b.next_poll_unready _ _ _ hst hrrdy htrdy)

/-- Settles O21: the acknowledge leads to IDLE with the strobe set, and the IDLE tick clears it. -/
theorem adapterReceivesByte : Obligations.AdapterReceivesByte := by
  unfold Obligations.AdapterReceivesByte
  refine ⟨fun s b p hp => by rw [State.events_b hp]; exact ⟨rfl, rfl⟩, fun s b p q r hp hrp hrq hst => ?_⟩
  rw [State.outputs_port_b hp]
  refine ⟨⟨_, b.out_rxread _ hst⟩, fun hack => ?_, fun hack => ?_⟩
  · rw [State.tick_port_b_next hp hrp, hack, b.next_of_no_ack _ _ _ (by simp [hst])]
  · have hlatch : (s.tick p).port =
        .b { b with busyPrev := b.busy, rxByte := p.sbDatR, rxStrobe := true, state := .idle } := by
      rw [State.tick_port_b_next hp hrp, hack, b.next_rxread _ _ _ _ hst, PortB.inRxRead, if_pos rfl]
    have hclear := State.tick_port_b_next hlatch hrq
    rw [PortB.next_idle _ _ _ _ _ rfl] at hclear
    rw [State.events_b hlatch, State.events_b hclear]
    exact ⟨hlatch, rfl, rfl, rfl⟩

/-- Settles O23: after an acknowledged status read busy is the level it shows, and the delayed copy the level before. -/
theorem adapterStartAndDone : Obligations.AdapterStartAndDone := by
  unfold Obligations.AdapterStartAndDone
  intro s b p hp
  rw [State.events_b hp]
  refine ⟨rfl, rfl, fun hr => ⟨_, State.tick_port_b_next hp hr, b.next_busyPrev _ _ _ _⟩, fun hr hst hack q => ?_⟩
  have hport := State.tick_port_b_next hp hr
  rw [hack] at hport
  rw [State.events_b hport]
  simp [PortB.events, PortB.busyRise, PortB.busyFall, b.next_poll_busy _ _ _ hst, PortB.next_busyPrev, busyBit]

end Sys2Proof.Machine
end

section
/-! SUPPORT. The Bridge, tick by tick (43_bridge.md R181 to R197): a tick without reset is `Bridge.next` under the events of
the transport, its state machine leaves the outgoing source alone, and a received byte sets each register by the count
before it. -/

namespace Sys2Proof.Machine

/-! ## One tick of the Bridge -/

theorem State.tick_br_of_no_reset (s : State) {p : Pins} (hr : p.rst = false) :
    (s.tick p).br = s.br.next (s.events (s.inputs p)) (s.inputs p).bus := by
  rw [State.tick, State.tickWith_br, s.clock_of_no_reset (s.inputs p) hr, State.advance_br]

/-- With the source put back, the outgoing source has changed nothing. -/
@[simp] theorem Bridge.outgoing_restored (b : Bridge) (e : Events) (s : BusSide) :
    { b.outgoing e s with txWord := b.txWord, txLeft := b.txLeft } = b := by
  rw [Bridge.outgoing_frame]

/-- Settles O25: by `Bridge.next_start`. -/
theorem bridgeStart : Obligations.BridgeStart := by
  unfold Obligations.BridgeStart
  intro s p hr hst he
  rw [s.tick_br_of_no_reset hr, s.br.next_start _ _ hst he]
  simp [Bridge.onStart]

/-- Settles O26: by `Bridge.next_idle`. -/
theorem bridgeIdleIgnores : Obligations.BridgeIdleIgnores := by
  unfold Obligations.BridgeIdleIgnores
  intro s p hr hst he
  rw [s.tick_br_of_no_reset hr, s.br.next_idle _ _ hst he]
  simp

/-- Outside a bus cycle no transaction is pending (44_bus_transactor.md R231). -/
theorem State.transactions_of_free {s : State} (h : s.br.free) : s.transactions = s.record := by
  simp [State.transactions, Bridge.pendingEntry, h.inCycle]

/-- Settles O27: by `Bridge.next_command_done`; neither before nor after the tick a cycle is in progress. -/
theorem bridgeCommandDone : Obligations.BridgeCommandDone := by
  unfold Obligations.BridgeCommandDone
  intro s p hr hst hs hd
  have hbr := s.tick_br_of_no_reset hr
  rw [s.br.next_command_done _ _ hst hs hd] at hbr
  have hfree : s.br.free := .inr hst
  have hfree' : (s.tick p).br.free := .inl (by rw [hbr])
  constructor
  · rw [hbr]
    simp
  · rw [State.transactions_of_free hfree, State.transactions_of_free hfree']
    simp [State.tick, Bridge.recorded, hfree.inCycle]

/-- Settles O30: by `Bridge.next_cycle`; the source of a read acknowledge is `Bridge.next_source_of_load`. -/
theorem bridgeInCycle : Obligations.BridgeInCycle := by
  unfold Obligations.BridgeInCycle
  intro s p hr hst
  rw [s.tick_br_of_no_reset hr]
  refine ⟨?_, fun hread hack => s.br.next_source_of_load _ _ hread hack⟩
  rw [s.br.next_cycle _ _ hst]
  simp

/-! ## `Done` (43_bridge.md R197) -/

theorem PortB.Inv.events_done_excl {b : PortB} (h : b.Inv) (p : Params) (k : Bool) (sr : Byte)
    (hd : (b.events p k sr).done = true) : (b.events p k sr).start = false ∧ (b.events p k sr).byteReady = false := by
  obtain ⟨hbusy, hprev⟩ : b.busy = false ∧ b.busyPrev = true := by simpa [PortB.events, PortB.busyFall] using hd
  refine ⟨by simp [PortB.events, PortB.busyRise, hbusy], ?_⟩
  by_contra hrx
  have hsettled := (h.1 (by simpa [PortB.events] using hrx)).2
  simp [hbusy, hprev] at hsettled

/-- A `Done` comes without a `Start` and without a `ByteReady` (60_exceptions.md R244). -/
theorem Port.Inv.events_done_excl {q : Port} (h : q.Inv) (p : Params) (i : Inputs) (hd : (q.events p i).done = true) :
    (q.events p i).start = false ∧ (q.events p i).byteReady = false := by
  cases q with
  | a y a =>
    obtain ⟨hstart, hbyte⟩ := a.events_excl y
    exact ⟨Bool.eq_false_iff.2 fun hs => Bool.false_ne_true ((hstart hs).2.symm.trans hd),
      Bool.eq_false_iff.2 fun hb => Bool.false_ne_true ((hbyte hb).2.symm.trans hd)⟩
  | b b => exact PortB.Inv.events_done_excl h p _ _ hd

theorem Events.visible_of_done {e : Events} (hs : e.start = false) (hb : e.byteReady = false) (hd : e.done = true) :
    e.visible = [.done] := by
  simp [Events.visible, hs, hb, hd]

/-- The accumulator changes only with a `Start` or a `ByteReady`. -/
theorem Bridge.next_acc_keep (b : Bridge) (e : Events) (s : BusSide) (hs : e.start = false)
    (hb : e.byteReady = false) : (b.next e s).acc = b.acc := by
  cases hst : b.state with
  | idle => simp [b.next_idle e s hst hs]
  | command =>
    cases hd : e.done with
    | true => simp [b.next_command_done e s hst hs hd]
    | false => simp [b.next_command_quiet e s hst hs hd hb]
  | read => simp [b.next_cycle e s (.inl hst)]
  | write => simp [b.next_cycle e s (.inr hst)]

/-- Settles O28: under the transport's invariant a `Done` comes alone. -/
theorem doneClearsCounter : Obligations.DoneClearsCounter := by
  unfold Obligations.DoneClearsCounter
  intro s p hr hinv hd
  obtain ⟨hs, hb⟩ := hinv.events_done_excl s.cfg (s.inputs p) hd
  rw [s.tick_br_of_no_reset hr]
  exact ⟨s.br.next_count_of_done _ _ (Events.visible_of_done hs hb hd), s.br.next_acc_keep _ _ hs hb⟩

/-! ## A received byte (43_bridge.md R186 to R189) -/

/-- Every register after a received byte; the three thresholds exclude each other. -/
theorem Bridge.onByte_eq (b : Bridge) (x : Byte) : b.onByte x =
    { b with
      acc := foldByte b.acc x
      count := countUp b.count
      opcode := if b.count = 1#3 then x else b.opcode
      addr := if b.count = 3#3 then addrOf (foldByte b.acc x) else b.addr
      wdata := if b.count = 7#3 ∧ b.opcode = Config.opcWrite then foldByte b.acc x else b.wdata
      state := if b.count = 3#3 ∧ b.opcode = Config.opcRead then .read
               else if b.count = 7#3 ∧ b.opcode = Config.opcWrite then .write else b.state } := by
  by_cases h1 : b.count = 1#3
  · simp [b.onByte_one x h1, Bridge.accumulate, opcodeOf_foldByte, h1]
  by_cases h3 : b.count = 3#3
  · simp [b.onByte_three x h3, Bridge.accumulate, h3]
  by_cases h7 : b.count = 7#3 ∧ b.opcode = Config.opcWrite
  · simp [b.onByte_seven_write x h7.1 h7.2, Bridge.accumulate, h7]
  · simp [b.onByte_plain x h1 h3 (not_and_or.1 h7), Bridge.accumulate, h1, h3, h7]

theorem countUp_eq_ite_lt (k : BitVec 3) : countUp k = if k.toNat < 7 then k + 1#3 else 7#3 := by
  have hk : k = 7#3 ↔ ¬ k.toNat < 7 := by bv_omega
  simp only [countUp, hk, ite_not]

/-- Settles O29: `Bridge.onByte_eq` after the outgoing source. -/
theorem bridgeReceivesByte : Obligations.BridgeReceivesByte := by
  unfold Obligations.BridgeReceivesByte
  rintro s p _ hr hst hs hd hb rfl
  have hop : opcodeOf (foldByte s.br.acc (s.events (s.inputs p)).byte) = (s.events (s.inputs p)).byte :=
    opcodeOf_foldByte _ _
  rw [s.tick_br_of_no_reset hr, s.br.next_command_byte _ _ hst hs hd hb, Bridge.onByte_eq]
  simp only [opcodeOf, foldByte] at hop
  simp [countUp_eq_ite_lt, foldByte, addrOf, hop, Config.opcRead, Config.opcWrite, hst]

/-! ## The outgoing source (43_bridge.md R181, R196) -/

/-- Settles O31: the three cases of `Bridge.outgoing`, which alone writes the source. -/
theorem outgoingSource : Obligations.OutgoingSource := by
  unfold Obligations.OutgoingSource
  intro s p hr
  obtain ⟨hword, hleft⟩ := s.br.next_source (s.events (s.inputs p)) (s.inputs p).bus
  rw [← s.tick_br_of_no_reset hr] at hword hleft
  rw [hword, hleft]
  refine ⟨rfl, ?served, fun hst hack => ?load, fun hl hreq hpos => ?drain, fun hl hnone => ?keep⟩
  case served => simp [State.tick, State.taken, hr]
  case load =>
    rw [s.br.outgoing_load _ _ hst hack]
    exact ⟨rfl, rfl⟩
  case drain =>
    rw [s.br.outgoing_drain _ _ hl hreq hpos]
    exact ⟨rfl, by simp only [Bridge.drainByte]; bv_omega⟩
  case keep =>
    rw [s.br.outgoing_keep _ _ hl (hnone.imp_right fun h => by simp [h])]
    exact ⟨rfl, rfl⟩

end Sys2Proof.Machine
end

section
/-! SUPPORT. The transactions of a run with the pending one (44_bus_transactor.md R231; 92_eei_decisions.md D27): a tick
issues one more only where a byte dispatches it, and a frame dispatches at most once (43_bridge.md R198). -/

namespace Sys2Proof.Machine

/-- Direction and address of each bus transaction issued so far, the pending one included. -/
def State.issued (s : State) : List (Dir × Nat) := s.transactions.map (fun e => (e.dir, e.adr))

theorem Bridge.inCycle_eq_true_iff (b : Bridge) : b.inCycle = true ↔ b.state = .read ∨ b.state = .write := by
  simp [Bridge.inCycle]

/-- The Bridge is in a bus cycle, or in Idle or Command. -/
theorem Bridge.free_or_inCycle (b : Bridge) : b.free ∨ b.inCycle = true := by
  rw [b.inCycle_eq_true_iff, Bridge.free]
  cases b.state <;> simp

theorem Bridge.state_ne_command_of_inCycle {b : Bridge} (h : b.inCycle = true) : b.state ≠ .command := by
  rcases b.inCycle_eq_true_iff.1 h with h | h <;> simp [h]

/-- The acknowledge moves the pending entry to the record, with its direction and address. -/
theorem State.issued_bridgeTick_of_inCycle (s : State) (e : Events) (h : s.br.inCycle = true) :
    (s.bridgeTick e).issued = s.issued := by
  have hnext := s.br.next_cycle e s.bus (s.br.inCycle_eq_true_iff.1 h)
  cases hack : s.bus.ack with
  | true =>
    have hfree : (s.bridgeTick e).br.free := .inl (by rw [State.bridgeTick_br, hnext, hack, if_pos rfl])
    rw [State.issued, State.issued, State.transactions_of_free hfree]
    simp [State.transactions, Bridge.pendingEntry, Bridge.recorded, h, hack, Bridge.entry]
  | false =>
    have hstate : (s.br.next e s.bus).state = s.br.state := by rw [hnext, hack]; rfl
    have hadr : (s.br.next e s.bus).adr s.cfg = s.br.adr s.cfg := by rw [hnext]; simp [Bridge.adr]
    have hcyc : (s.br.next e s.bus).inCycle = true := by rw [Bridge.inCycle, hstate]; exact h
    simp [State.issued, State.transactions, Bridge.pendingEntry, Bridge.recorded, h, hcyc, hack, Bridge.entry,
      Bridge.dir, hstate, hadr]

/-- Only a byte received in Command leads into a bus cycle (43_bridge.md R188, R189). -/
theorem Bridge.next_free {b : Bridge} (e : Events) (s : BusSide) (h : b.free)
    (hb : b.state = .command → e.byteReady = false) : (b.next e s).free := by
  cases hs : e.start with
  | true =>
    rw [b.next_start e s h hs]
    exact .inr rfl
  | false =>
    rcases h with hst | hst
    · rw [b.next_idle e s hst hs]
      exact .inl (by simpa using hst)
    · cases hd : e.done with
      | true =>
        rw [b.next_command_done e s hst hs hd]
        exact .inl rfl
      | false =>
        rw [b.next_command_quiet e s hst hs hd (hb hst)]
        exact .inr (by simpa using hst)

/-- Only a `Start` leads into Command. -/
theorem Bridge.next_state_ne_command {b : Bridge} (e : Events) (s : BusSide) (h : b.state ≠ .command)
    (hs : e.start = false) : (b.next e s).state ≠ .command := by
  cases hst : b.state with
  | idle => simp [b.next_idle e s hst hs, hst]
  | command => exact absurd hst h
  | read => cases hack : s.ack <;> simp [b.next_cycle e s (.inl hst), hst, hack]
  | write => cases hack : s.ack <;> simp [b.next_cycle e s (.inr hst), hst, hack]

/-- A tick issues nothing, or a byte received in Command dispatches the one transaction it issues. -/
theorem State.issued_bridgeTick (s : State) (e : Events) :
    (s.bridgeTick e).issued = s.issued ∨
    (s.br.state = .command ∧ e.byteReady = true ∧ (s.bridgeTick e).br.state ≠ .command ∧
      ∃ x, (s.bridgeTick e).issued = s.issued ++ [x]) := by
  rcases s.br.free_or_inCycle with hfree | hcyc
  · have hrecord : (s.bridgeTick e).record = s.record := by simp [Bridge.recorded, hfree.inCycle]
    rcases (s.bridgeTick e).br.free_or_inCycle with hfree' | hcyc
    · left
      rw [State.issued, State.issued, State.transactions_of_free hfree, State.transactions_of_free hfree', hrecord]
    · right
      have hdispatch : s.br.state = .command ∧ e.byteReady = true := by
        by_contra hnot
        have hfree' : (s.bridgeTick e).br.free :=
          Bridge.next_free e s.bus hfree (fun hst => Bool.eq_false_iff.2 fun hb => hnot ⟨hst, hb⟩)
        exact Bool.false_ne_true (hfree'.inCycle.symm.trans hcyc)
      refine ⟨hdispatch.1, hdispatch.2, Bridge.state_ne_command_of_inCycle hcyc, ?_⟩
      rw [State.issued, State.issued, State.transactions_of_free hfree, State.transactions, hrecord,
        Bridge.pendingEntry, if_pos hcyc, List.map_append]
      exact ⟨_, rfl⟩
  · exact .inl (s.issued_bridgeTick_of_inCycle e hcyc)

/-- From `s` to `t`, in a frame of which the events `todo` are still to be shown, at most one transaction was issued; after it
the Bridge decodes no more, and no `Start` is to come. -/
def State.IssuesTo (s t : State) (todo : List FrameEvent) : Prop :=
  FrameEvent.start ∉ todo.tail ∧
    (t.issued = s.issued ∨
      (t.br.state ≠ .command ∧ FrameEvent.start ∉ todo ∧ ∃ x, t.issued = s.issued ++ [x]))

theorem State.IssuesTo.tick {s t : State} {e : Events} {todo : List FrameEvent} (h : s.IssuesTo t (e.visible ++ todo))
    (he : e.visible = [] ∨ ∃ x, e.visible = [x]) : s.IssuesTo (t.bridgeTick e) todo := by
  obtain ⟨htail, hissued⟩ := h
  have htail' : FrameEvent.start ∉ todo.tail ∧ (e.byteReady = true → FrameEvent.start ∉ todo) := by
    rcases he with he | ⟨x, he⟩
    · rw [he] at htail
      exact ⟨htail, by simp [(Events.visible_eq_nil he).2.1]⟩
    · rw [he] at htail
      exact ⟨fun hmem => htail (List.mem_of_mem_tail hmem), fun _ => htail⟩
  refine ⟨htail'.1, ?_⟩
  rcases t.issued_bridgeTick e with hsame | ⟨hcommand, hbyte, hnext, x, hnew⟩
  · rw [hsame]
    rcases hissued with hnone | ⟨hstate, hstart, hone⟩
    · exact .inl hnone
    · rw [List.mem_append, not_or] at hstart
      have hs : e.start = false := Bool.eq_false_iff.2 fun hs => hstart.1 (by simp [Events.visible, hs])
      exact .inr ⟨Bridge.next_state_ne_command e t.bus hstate hs, hstart.2, hone⟩
  · rcases hissued with hnone | ⟨hstate, -⟩
    · exact .inr ⟨hnext, htail'.2 hbyte, x, by rw [hnew, hnone]⟩
    · exact absurd hcommand hstate

/-- Settles O43: the one `Start` of a frame comes first, and after a dispatch only a `Start` would lead to another. -/
theorem atMostOneTransactionPerFrame : Obligations.AtMostOneTransactionPerFrame := by
  unfold Obligations.AtMostOneTransactionPerFrame
  intro f s hf hs
  obtain ⟨u, q, hrun, -, -, -, hissued⟩ := State.runFrame_stages (fun todo t => s.IssuesTo t todo)
    (fun e todo t he h => State.IssuesTo.tick (by rwa [he]) (.inl he))
    (fun e x todo t he h => State.IssuesTo.tick (by rwa [he]) (.inr ⟨x, he⟩))
    f s hs hf ⟨by simp [frameShown], .inl rfl⟩
  rw [hrun]
  rcases hissued with hnone | ⟨-, -, x, hone⟩
  · exact ⟨[], by simp, by rw [List.append_nil]; exact hnone⟩
  · exact ⟨[x], le_rfl, hone⟩

end Sys2Proof.Machine
end

section
/-! SUPPORT. What changes while nothing is decoded (43_bridge.md R183, R195, R196): the outgoing source only drains while no
read is acknowledged, and outside Command only a `Start` changes a capture. -/

namespace Sys2Proof.Machine

/-! ## The outgoing source over ticks that load no word (43_bridge.md R196) -/

/-- The outgoing source of `b'` is that of `b` after `n` requests, of which the first take the bytes that wait. -/
structure Bridge.DrainedBy (b b' : Bridge) (n : Nat) : Prop where
  left : b'.txLeft.toNat = b.txLeft.toNat - n
  word : b'.txWord = b.txWord <<< (8 * min b.txLeft.toNat n)

theorem Bridge.DrainedBy.trans {b b' b'' : Bridge} {n k : Nat} (h : b.DrainedBy b' n) (h' : b'.DrainedBy b'' k) :
    b.DrainedBy b'' (n + k) where
  left := by rw [h'.left, h.left, Nat.sub_sub]
  word := by
    rw [h'.word, h.word, h.left, ← BitVec.shiftLeft_add, ← Nat.mul_add]
    congr 2
    omega

/-- A tick without a read acknowledge. -/
theorem Bridge.drainedBy_next (b : Bridge) (e : Events) (s : BusSide) (h : ¬(b.state = .read ∧ s.ack = true)) :
    b.DrainedBy (b.next e s) (if e.txReq then 1 else 0) := by
  obtain ⟨hword, hleft⟩ := b.next_source e s
  by_cases hdrain : e.txReq = true ∧ 0#3 < b.txLeft
  · obtain ⟨hreq, hpos⟩ := hdrain
    rw [b.outgoing_drain e s h hreq hpos] at hword hleft
    rw [if_pos hreq]
    have hone : 1 ≤ b.txLeft.toNat := hpos
    refine ⟨?_, by rw [hword, min_eq_right hone]; rfl⟩
    rw [hleft, Bridge.drainByte]
    bv_omega
  · have hkeep : e.txReq = false ∨ ¬ 0#3 < b.txLeft := by simpa [imp_iff_not_or] using hdrain
    rw [b.outgoing_keep e s h hkeep] at hword hleft
    have hnone : min b.txLeft.toNat (if e.txReq then 1 else 0) = 0 := by
      rcases hkeep with hreq | hzero
      · simp [hreq]
      · have hzero : b.txLeft.toNat = 0 := by bv_omega
        rw [hzero, Nat.zero_min]
    refine ⟨by rw [hleft]; omega, by rw [hword, hnone]; simp⟩

/-- From `s` to `t` the requests, and nothing else, changed the outgoing source. -/
def State.DrainsBy (s t : State) : Prop :=
  ∃ n, t.served.length = s.served.length + n ∧ s.br.DrainedBy t.br n

theorem State.DrainsBy.refl (s : State) : s.DrainsBy s := ⟨0, rfl, by simp, by simp⟩

theorem State.DrainsBy.trans {s t u : State} (h : s.DrainsBy t) (h' : t.DrainsBy u) : s.DrainsBy u := by
  obtain ⟨n, hn, hdrained⟩ := h
  obtain ⟨k, hk, hdrained'⟩ := h'
  exact ⟨n + k, by rw [hk, hn, Nat.add_assoc], hdrained.trans hdrained'⟩

theorem State.drainsBy_tick (s : State) (e : Events) (h : ¬(s.br.state = .read ∧ s.bus.ack = true)) :
    s.DrainsBy (s.bridgeTick e) := by
  refine ⟨_, ?_, s.br.drainedBy_next e s.bus h⟩
  rw [State.bridgeTick_served, List.length_append]
  split <;> rfl

/-- The number of requests is told by the bytes they took. -/
theorem State.DrainsBy.drainedBy {s t : State} (h : s.DrainsBy t) {n : Nat}
    (hn : t.served.length = s.served.length + n) : s.br.DrainedBy t.br n := by
  obtain ⟨k, hk, hdrained⟩ := h
  obtain rfl : k = n := by omega
  exact hdrained

/-! ## Registers that a tick captures nothing in -/

/-- What a frame captures is the same in both. -/
structure Bridge.SameCaptures (b b' : Bridge) : Prop where
  acc : b'.acc = b.acc
  opcode : b'.opcode = b.opcode
  addr : b'.addr = b.addr
  addrHigh : b'.addrHigh = b.addrHigh
  wdata : b'.wdata = b.wdata

theorem Bridge.SameCaptures.refl (b : Bridge) : b.SameCaptures b := ⟨rfl, rfl, rfl, rfl, rfl⟩

theorem Bridge.SameCaptures.trans {b b' b'' : Bridge} (h : b.SameCaptures b') (h' : b'.SameCaptures b'') :
    b.SameCaptures b'' :=
  ⟨h'.acc.trans h.acc, h'.opcode.trans h.opcode, h'.addr.trans h.addr, h'.addrHigh.trans h.addrHigh,
    h'.wdata.trans h.wdata⟩

theorem Bridge.sameCaptures_outgoing (b : Bridge) (e : Events) (s : BusSide) : b.SameCaptures (b.outgoing e s) := by
  constructor <;> simp

/-- The address a Bridge puts on the bus is one of its captures. -/
theorem Bridge.SameCaptures.adr {b b' : Bridge} (h : b.SameCaptures b') (p : Params) : b'.adr p = b.adr p := by
  rw [Bridge.adr, Bridge.adr, h.addr, h.addrHigh]

/-- Outside Command only a `Start` changes a capture (43_bridge.md R183, R195). -/
theorem Bridge.sameCaptures_next (b : Bridge) (e : Events) (s : BusSide) (h : b.state ≠ .command)
    (hs : e.start = false) : b.SameCaptures (b.next e s) := by
  cases hst : b.state with
  | idle =>
    rw [b.next_idle e s hst hs]
    exact { b.sameCaptures_outgoing e s with }
  | command => exact absurd hst h
  | read =>
    rw [b.next_cycle e s (.inl hst)]
    exact { b.sameCaptures_outgoing e s with }
  | write =>
    rw [b.next_cycle e s (.inr hst)]
    exact { b.sameCaptures_outgoing e s with }

/-- A Bridge that does not decode captures nothing before the next `Start`. -/
theorem State.bridgeRun_sameCaptures (s : State) (h : s.br.state ≠ .command) (es : List Events)
    (hes : ∀ e ∈ es, e.start = false) : s.br.SameCaptures (s.bridgeRun es).br := by
  induction es generalizing s with
  | nil => exact .refl _
  | cons e es ih =>
    rw [List.forall_mem_cons] at hes
    exact (s.br.sameCaptures_next e s.bus h hes.1).trans
      (ih (s.bridgeTick e) (Bridge.next_state_ne_command e s.bus h hes.1) hes.2)

end Sys2Proof.Machine
end

section
/-! SUPPORT. A frame without a dispatch (43_bridge.md R183 to R188): which captures its bytes leave unchanged, and where the
Bridge stands at its end. The events of a frame are cut at one that it shows. -/

namespace Sys2Proof.Machine

/-! ## The bytes of a frame that dispatch nothing -/

/-- What a tick outside a bus cycle, and leading to none, does not capture: the write data; the opcode, but for a byte
received in Command at count 1; the address, but for one at count 3 (43_bridge.md R186 to R189). -/
theorem Bridge.next_captures_of_free (b : Bridge) (e : Events) (s : BusSide) (h : b.free) (h' : (b.next e s).free) :
    (b.next e s).wdata = b.wdata ∧
      ((e.visible ≠ [.byteReady e.byte] ∨ b.count ≠ 1#3) → (b.next e s).opcode = b.opcode) ∧
      ((e.visible ≠ [.byteReady e.byte] ∨ b.count ≠ 3#3) → (b.next e s).addr = b.addr) := by
  cases hs : e.start with
  | true =>
    rw [b.next_start e s h hs]
    simp [Bridge.onStart]
  | false =>
    rcases h with hst | hst
    · rw [b.next_idle e s hst hs]
      simp
    · cases hd : e.done with
      | true =>
        rw [b.next_command_done e s hst hs hd]
        simp
      | false =>
        cases hb : e.byteReady with
        | true =>
          have hnext := b.next_command_byte e s hst hs hd hb
          rw [Bridge.onByte_eq] at hnext
          have hvisible : e.visible = [.byteReady e.byte] := by simp [Events.visible, hs, hd, hb]
          have hwrite : ¬(b.count = 7#3 ∧ b.opcode = Config.opcWrite) := by
            intro hw
            simp [hnext, Bridge.free, hw] at h'
          rw [hnext]
          exact ⟨by simp [hwrite], fun hk => by simp [hk.resolve_left (not_not.2 hvisible)],
            fun hk => by simp [hk.resolve_left (not_not.2 hvisible)]⟩
        | false =>
          rw [b.next_command_quiet e s hst hs hd hb]
          simp

/-- A byte of the frame that is still to be shown comes after fewer bytes than the frame has. -/
theorem Bridge.Receiving.decoding_of_byte {b : Bridge} {zs : List Byte} {last todo : List FrameEvent} {y : Byte}
    (h : b.Receiving zs last (.byteReady y :: todo)) (hlast : last = [] ∨ last = [.done]) :
    ∃ xs, b.Decoding xs ∧ xs.length < zs.length := by
  rcases h with ⟨-, htodo⟩ | ⟨xs, ys, rfl, htodo, hdec⟩ | ⟨-, htodo, -⟩
  · simp at htodo
  · cases ys with
    | nil => rcases hlast with rfl | rfl <;> simp at htodo
    | cons z ys => exact ⟨xs, hdec, by simp⟩
  · simp at htodo

/-- The bytes `zs` of a frame, none of which dispatched, came between `s` and `t`, or some of them did: the outgoing source
only drained, and of what the frame captures there is no write data, no opcode before byte 1 and no address before byte 3. -/
structure State.Spares (s t : State) (zs : List Byte) : Prop where
  source : s.DrainsBy t
  wdata : t.br.wdata = s.br.wdata
  opcode : zs.length < 2 → t.br.opcode = s.br.opcode
  addr : zs.length < 4 → t.br.addr = s.br.addr

theorem State.Spares.refl (s : State) (zs : List Byte) : s.Spares s zs := ⟨.refl s, rfl, fun _ => rfl, fun _ => rfl⟩

/-- One tick of such a frame. -/
theorem State.Spares.tick {s t : State} {zs : List Byte} (h : s.Spares t zs) (e : Events) (hfree : t.br.free)
    (hfree' : (t.bridgeTick e).br.free)
    (hbyte : e.visible = [.byteReady e.byte] → ∃ xs, t.br.Decoding xs ∧ xs.length < zs.length) :
    s.Spares (t.bridgeTick e) zs := by
  obtain ⟨hwdata, hopcode, haddr⟩ := t.br.next_captures_of_free e t.bus hfree hfree'
  have hcount : ∀ k < 7, zs.length < k + 1 → e.visible ≠ [.byteReady e.byte] ∨ t.br.count ≠ BitVec.ofNat 3 k := by
    intro k hk hlen
    rw [or_iff_not_imp_left, not_not]
    intro he hcount
    obtain ⟨xs, hdec, hlt⟩ := hbyte he
    have := (hdec.count_eq_iff hk).1 hcount
    omega
  exact ⟨h.source.trans (t.drainsBy_tick e (fun hl => hfree.state_ne_read hl.1)), hwdata.trans h.wdata,
    fun hlen => (hopcode (hcount 1 (by omega) hlen)).trans (h.opcode hlen),
    fun hlen => (haddr (hcount 3 (by omega) hlen)).trans (h.addr hlen)⟩

/-- Over a frame, or its first bytes, as `State.WaitsTo.run_receiving`. -/
theorem State.spares_run_receiving (s : State) (zs : List Byte) (last : List FrameEvent) (hz : Undispatched zs)
    (hlast : last = [] ∨ last = [.done]) (es : List Events) (hes : ∀ e ∈ es, e.visible.length ≤ 1)
    (hs : s.br.Receiving zs last (shownBy es)) : s.Spares (s.bridgeRun es) zs := by
  refine (stagesShown (fun todo u => s.Spares u zs ∧ u.br.Receiving zs last todo) ?_ ?_ es hes s ⟨.refl s zs, hs⟩).1
  · rintro e todo u he ⟨hspares, hr⟩
    have hr' := hr.silent e u.bus he
    exact ⟨hspares.tick e hr.free hr'.free (by simp [he]), hr'⟩
  · rintro e x todo u he ⟨hspares, hr⟩
    have hr' := hr.move hz hlast e u.bus he
    refine ⟨hspares.tick e hr.free hr'.free fun hbyte => ?_, hr'⟩
    obtain rfl : x = .byteReady e.byte := by simpa [he] using hbyte
    exact hr.decoding_of_byte hlast

/-! ## A whole frame, cut at one of the events it shows -/

/-- A list of events can be cut at each event it shows. -/
theorem exists_cut_of_shownBy {es : List Events} (hes : ∀ e ∈ es, e.visible.length ≤ 1) {l r : List FrameEvent}
    {x : FrameEvent} (h : shownBy es = l ++ x :: r) :
    ∃ pre e post, es = pre ++ e :: post ∧ shownBy pre = l ∧ e.visible = [x] ∧ shownBy post = r := by
  induction es generalizing l with
  | nil => simp at h
  | cons e es ih =>
    rw [List.forall_mem_cons] at hes
    obtain ⟨he, hes⟩ := hes
    rw [shownBy_cons] at h
    rcases hv : e.visible with _ | ⟨y, ys⟩
    · obtain ⟨pre, e', post, rfl, hpre, he', hpost⟩ := ih hes (l := l) (by simpa [hv] using h)
      exact ⟨e :: pre, e', post, rfl, by simp [hv, hpre], he', hpost⟩
    · obtain rfl : ys = [] := by simpa [hv] using he
      rw [hv, List.singleton_append] at h
      cases l with
      | nil =>
        obtain ⟨rfl, rfl⟩ := List.cons.inj h
        exact ⟨[], e, es, rfl, rfl, hv, rfl⟩
      | cons z l =>
        obtain ⟨rfl, htail⟩ := List.cons.inj h
        obtain ⟨pre, e', post, rfl, hpre, he', hpost⟩ := ih hes htail
        exact ⟨e :: pre, e', post, rfl, by simp [hv, hpre], he', hpost⟩

/-- What every frame shows and leaves, whichever transport runs it (30_encoding.md R91, 43_bridge.md R197). -/
structure State.Frames (s t : State) (f : Frame) : Prop where
  cfg : t.cfg = s.cfg
  todo : t.todo = s.todo
  idle : t.port.idle
  seen : t.seen = s.seen ++ frameShown f
  count : t.br.count = 0#3
  served : t.served.length = s.served.length + (f.bytes.length + 1)

theorem State.frames_runFrame (s : State) (hs : s.betweenFrames) (f : Frame) (hf : f.wf = true) :
    s.Frames (s.runFrame f) f := by
  obtain ⟨es, q, hrun, hq, hvisible, hshown, hreq⟩ := s.runFrame_whole hs f hf
  have hkept := s.runFrame_preserves f
  refine ⟨hkept.cfg, hkept.todo, ?_, ?_, ?_, ?_⟩
  · rw [hrun, State.setPort_port]
    exact hq
  · rw [hrun, State.setPort_seen, State.bridgeRun_seen, hshown]
  · rw [hrun, State.setPort_br]
    exact s.bridgeRun_count es hvisible (.start :: f.bytes.map .byteReady) hshown
  · rw [hrun, State.setPort_served, State.bridgeRun_served_length, hreq]

/-! ## A frame without a dispatch (43_bridge.md R185, R192) -/

/-- A frame from a ready state whose bytes dispatch nothing ends in Idle with its captures and no transaction. -/
structure State.RunsDry (s t : State) (f : Frame) : Prop where
  frames : s.Frames t f
  waits : s.WaitsTo t
  spares : s.Spares t f.bytes
  state : t.br.state = .idle
  acc : t.br.acc = f.bytes.foldl foldByte 0#32
  opcode : ∀ op, f.bytes[1]? = some op → t.br.opcode = op
  addr : ∀ a1 a0, f.bytes[2]? = some a1 → f.bytes[3]? = some a0 → t.br.addr = addrOfBytes a1 a0

theorem State.runsDry_runFrame (s : State) (hs : s.ready) (f : Frame) (hf : f.wf = true) (hz : Undispatched f.bytes) :
    s.RunsDry (s.runFrame f) f := by
  obtain ⟨hbetween, hidle⟩ := hs
  obtain ⟨es, q, hrun, -, hvisible, hshown, -⟩ := s.runFrame_whole hbetween f hf
  have hreceiving : s.br.Receiving f.bytes [.done] (shownBy es) := .inl ⟨hidle, hshown⟩
  have hspares := s.spares_run_receiving f.bytes [.done] hz (.inr rfl) es hvisible hreceiving
  have hwaits := ((State.WaitsTo.refl s).run_receiving f.bytes [.done] hz (.inr rfl) es hvisible hreceiving).1
  obtain ⟨pre, e, post, rfl, hpre, he, hpost⟩ := exists_cut_of_shownBy hvisible (l := .start :: f.bytes.map .byteReady)
    hshown
  obtain ⟨hw, hr⟩ := (State.WaitsTo.refl s).run_receiving f.bytes [] hz (.inl rfl) pre
    (fun a ha => hvisible a (List.mem_append_left _ ha)) (.inl ⟨hidle, by rw [hpre, List.append_nil]⟩)
  have hdec := hr.decoding
  obtain ⟨hstart, hdone⟩ := Events.visible_eq_done he
  have hend := (s.bridgeRun pre).br.next_command_done e (s.bridgeRun pre).bus hdec.state hstart hdone
  have hstart_post : ∀ a ∈ post, a.start = false := start_eq_false_of_shownBy (by simp [hpost])
  have hidle' : ((s.bridgeRun pre).bridgeTick e).br.state = .idle := by rw [State.bridgeTick_br, hend]
  have hsame := ((s.bridgeRun pre).bridgeTick e).bridgeRun_sameCaptures (by rw [hidle']; simp) post hstart_post
  have hstate := ((hw.tick hr.free e).run_idle hidle' post hstart_post).2
  have hsplit : s.bridgeRun (pre ++ e :: post) = ((s.bridgeRun pre).bridgeTick e).bridgeRun post := by
    rw [State.bridgeRun_append, State.bridgeRun_cons]
  have hframes := s.frames_runFrame hbetween f hf
  rw [hrun] at hframes ⊢
  rw [← hsplit] at hsame hstate
  obtain ⟨hacc, hopcode, haddr, -, -⟩ := hsame
  rw [State.bridgeTick_br, hend] at hacc hopcode haddr
  refine ⟨hframes, { hwaits with }, { hspares with }, hstate, hacc.trans ?_, fun op hop => hopcode.trans ?_,
    fun a1 a0 h1 h0 => haddr.trans ?_⟩
  · simpa using hdec.acc
  · simpa using hdec.opcode op hop
  · simpa using hdec.addr a1 a0 h1 h0

end Sys2Proof.Machine
end

section
/-! SUPPORT. A frame with a dispatch (43_bridge.md R190, R191, R195): up to the byte that dispatches nothing is issued, and
from then to the end of the frame its bus cycle is in flight, or its acknowledge was recorded. -/

namespace Sys2Proof.Machine

/-! ## Up to the byte that dispatches -/

/-- A frame from a ready state up to its byte `x`, where the bytes `xs` before it dispatch nothing: `d` is the state after
that byte, and the events `post` are the rest of the frame. -/
theorem State.runFrame_to_byte (s : State) (hs : s.ready) (f : Frame) (hf : f.wf = true) (xs : List Byte) (x : Byte)
    (ys : List Byte) (hb : f.bytes = xs ++ x :: ys) (hx : Undispatched xs) :
    ∃ d post q, s.runFrame f = (d.bridgeRun post).setPort q ∧ (∀ a ∈ post, a.start = false) ∧ s.WaitsTo d ∧
      s.DrainsBy d ∧ ∃ b : Bridge, b.Decoding xs ∧ b.wdata = s.br.wdata ∧ d.br = b.onByte x := by
  obtain ⟨hbetween, hidle⟩ := hs
  obtain ⟨pre, e, e', post, q, hrun, -, hcut⟩ := s.runFrame_cut hbetween f hf xs x ys hb
  have hreceiving : s.br.Receiving xs [] (shownBy pre) := .inl ⟨hidle, by rw [hcut.shown_pre, List.append_nil]⟩
  obtain ⟨hw, hr⟩ := (State.WaitsTo.refl s).run_receiving xs [] hx (.inl rfl) pre hcut.visible_pre hreceiving
  have hspares := s.spares_run_receiving xs [] hx (.inl rfl) pre hcut.visible_pre hreceiving
  have hdec := hr.decoding
  obtain ⟨hstart, hbyte, rfl, hdone⟩ := Events.visible_eq_byteReady hcut.byte
  refine ⟨(s.bridgeRun pre).bridgeTick e, e' :: post, q, ?_,
    start_eq_false_of_shownBy (by simp [hcut.silent, hcut.shown_post]), hw.tick hr.free e,
    hspares.source.trans (State.drainsBy_tick _ e (fun hl => hr.free.state_ne_read hl.1)), _, hdec.outgoing e _, ?_,
    Bridge.next_command_byte _ e _ hdec.state hstart hdone hbyte⟩
  · rw [hrun, State.bridgeRun_append, State.bridgeRun_cons]
  · rw [Bridge.outgoing_wdata, hspares.wdata]

/-! ## The bus cycle, to the end of the frame -/

/-- From `s` to `t` the one bus cycle that began was that of the Bridge `c`: it is still in flight, or its acknowledge was
recorded; and nothing was captured since. -/
structure State.CyclesTo (s : State) (c : Bridge) (t : State) : Prop where
  cfg : t.cfg = s.cfg
  captures : c.SameCaptures t.br
  outcome : (t.br.state = c.state ∧ t.record = s.record) ∨
    (t.br.state = .idle ∧ ∃ r, t.record = s.record ++ [c.entry s.cfg (some (c.movedWord r))])
  source : ¬(c.state = .read ∧ t.br.state = .idle) → s.DrainsBy t
  memory : c.state = .read → ∀ m, s.slave = .ms m → t.slave = .ms m

/-- The cycle in flight: the acknowledge records it, and ends it. -/
theorem State.bridgeTick_cycle_outcome (t : State) (e : Events) (h : t.br.inCycle = true) :
    ((t.bridgeTick e).br.state = t.br.state ∧ (t.bridgeTick e).record = t.record) ∨
    ((t.bridgeTick e).br.state = .idle ∧
      (t.bridgeTick e).record = t.record ++ [t.br.entry t.cfg (some (t.br.movedWord t.bus.datR))]) := by
  have hnext := t.br.next_cycle e t.bus (t.br.inCycle_eq_true_iff.1 h)
  cases hack : t.bus.ack with
  | false => exact .inl ⟨by simp [hnext, hack], by simp [Bridge.recorded, h, hack]⟩
  | true => exact .inr ⟨by simp [hnext, hack], by simp [Bridge.recorded, h, hack]⟩

/-- The entry of a cycle is that of the Bridge that began it. -/
theorem Bridge.SameCaptures.entry {c b : Bridge} (h : c.SameCaptures b) (hst : b.state = c.state) (p : Params)
    (r : Word) : b.entry p (some (b.movedWord r)) = c.entry p (some (c.movedWord r)) := by
  rw [Bridge.entry, Bridge.entry, h.adr, Bridge.dir, Bridge.dir, Bridge.movedWord, Bridge.movedWord, hst, h.wdata]

theorem State.CyclesTo.tick {s t : State} {c : Bridge} (h : s.CyclesTo c t) (hc : c.inCycle = true) (e : Events)
    (he : e.start = false) : s.CyclesTo c (t.bridgeTick e) := by
  obtain ⟨hcfg, hcaptures, houtcome, hsource, hmemory⟩ := h
  have hne : t.br.state ≠ .command := by
    rcases houtcome with ⟨hst, -⟩ | ⟨hst, -⟩ <;> rw [hst]
    · exact Bridge.state_ne_command_of_inCycle hc
    · simp
  have hmemory' : c.state = .read → ∀ m, s.slave = .ms m → (t.bridgeTick e).slave = .ms m := by
    intro hread m hm
    have hwrite : t.br.state ≠ .write := by rcases houtcome with ⟨hst, -⟩ | ⟨hst, -⟩ <;> simp [hst, hread]
    simp [hmemory hread m hm, Slave.after, hwrite]
  refine ⟨hcfg, hcaptures.trans (t.br.sameCaptures_next e t.bus hne he), ?_, ?_, hmemory'⟩
  · rcases houtcome with ⟨hst, hrecord⟩ | ⟨hst, r, hrecord⟩
    · have hcyc : t.br.inCycle = true := by rw [Bridge.inCycle, hst]; exact hc
      rcases t.bridgeTick_cycle_outcome e hcyc with ⟨hst', hrecord'⟩ | ⟨hst', hrecord'⟩
      · exact .inl ⟨hst'.trans hst, hrecord'.trans hrecord⟩
      · exact .inr ⟨hst', _, by rw [hrecord', hrecord, hcaptures.entry hst, hcfg]⟩
    · refine .inr ⟨?_, r, ?_⟩
      · rw [State.bridgeTick_br, t.br.next_idle e t.bus hst he]
        simpa using hst
      · rw [← hrecord]
        simp [Bridge.recorded, Bridge.inCycle, hst]
  · intro hopen
    have hload : ¬(t.br.state = .read ∧ t.bus.ack = true) := by
      rintro ⟨hst, hack⟩
      refine hopen ⟨?_, ?_⟩
      · rcases houtcome with ⟨hst', -⟩ | ⟨hst', -⟩
        · rw [← hst', hst]
        · simp [hst'] at hst
      · rw [State.bridgeTick_br, t.br.next_cycle e t.bus (.inl hst), hack]
        rfl
    refine (hsource ?_).trans (t.drainsBy_tick e hload)
    rintro ⟨hread, hst⟩
    refine hopen ⟨hread, ?_⟩
    rw [State.bridgeTick_br, t.br.next_idle e t.bus hst he]
    simpa using hst

theorem State.CyclesTo.run {s t : State} {c : Bridge} (h : s.CyclesTo c t) (hc : c.inCycle = true) (es : List Events)
    (hes : ∀ e ∈ es, e.start = false) : s.CyclesTo c (t.bridgeRun es) := by
  induction es generalizing t with
  | nil => exact h
  | cons e es ih =>
    rw [List.forall_mem_cons] at hes
    exact ih (h.tick hc e hes.1) hes.2

/-- A frame from a ready state whose byte `x` dispatches: one bus cycle, of the Bridge that received that byte. -/
theorem State.runFrame_cycle (s : State) (hs : s.ready) (f : Frame) (hf : f.wf = true) (xs : List Byte) (x : Byte)
    (ys : List Byte) (hb : f.bytes = xs ++ x :: ys) (hx : Undispatched xs)
    (hc : ∀ b : Bridge, b.Decoding xs → (b.onByte x).inCycle = true) :
    ∃ b : Bridge, b.Decoding xs ∧ b.wdata = s.br.wdata ∧ (b.onByte x).addrHigh = s.br.addrHigh ∧
      s.CyclesTo (b.onByte x) (s.runFrame f) := by
  obtain ⟨d, post, q, hrun, hpost, hw, hsource, b, hdec, hwdata, hbr⟩ := s.runFrame_to_byte hs f hf xs x ys hb hx
  have hstart : s.CyclesTo (b.onByte x) d :=
    ⟨hw.cfg, hbr ▸ .refl _, .inl ⟨by rw [hbr], hw.record⟩, fun _ => hsource, fun _ => hw.slave⟩
  refine ⟨b, hdec, hwdata, by rw [← hbr, hw.addrHigh], ?_⟩
  have hend := hstart.run (hc b hdec) post hpost
  rw [hrun]
  exact { hend with }

end Sys2Proof.Machine
end

section
/-! SUPPORT. The three commands (43_bridge.md R190 to R192), and a frame that holds none (R185): each is a frame without a
dispatch (`State.RunsDry`) or with one (`State.CyclesTo`); then the whole Bridge after a command with the memory slave, the
same for both transports (R200). -/

namespace Sys2Proof.Machine

/-! ## A frame that dispatches nothing -/

/-- A frame that the decoder rejects holds fewer bytes than its opcode needs (30_encoding.md R87). -/
theorem undispatched_of_decode_error {f : Frame} {e : DecodeError} (hf : f.wf = true) (h : decode f = .error e) :
    Undispatched f.bytes := by
  obtain ⟨bytes, tail⟩ := f
  have ht : tail.length < 8 := of_decide_eq_true hf
  intro op n hop hn
  by_contra hlen
  match bytes, hop with
  | lead :: o :: rest, hop =>
    obtain rfl : o = op := Option.some.inj hop
    rw [decode_cons_cons lead o rest ht] at h
    rw [List.length_cons, List.length_cons] at hlen
    by_cases hr : o = Config.opcRead
    · subst hr
      obtain rfl : 4 = n := Option.some.inj hn
      obtain ⟨addr, pad, -, hread⟩ := decodeRead_of_two_le lead tail (rest := rest) (by omega)
      rw [decodeRest_opcRead, hread] at h
      cases h
    by_cases hw : o = Config.opcWrite
    · subst hw
      obtain rfl : 8 = n := Option.some.inj hn
      obtain ⟨addr, data, pad, -, hwrite⟩ := decodeWrite_of_six_le lead tail (rest := rest) (by omega)
      rw [decodeRest_opcWrite, hwrite] at h
      cases h
    · rw [decodeRest_other lead tail rest hr hw] at h
      cases h

/-- An opcode that is neither READ's nor WRITE's never dispatches (30_encoding.md R85). -/
theorem undispatched_of_unknown (lead : Byte) {op : Byte} (rest : List Byte) (hr : op ≠ Config.opcRead)
    (hw : op ≠ Config.opcWrite) : Undispatched (lead :: op :: rest) := by
  intro op' n hop hn
  obtain rfl := Option.some.inj hop
  simp [dispatchLength, opcodeClass, hr, hw] at hn

/-- The step that takes a frame without a command from `todo` runs it all the same (log entry 12). -/
theorem step_of_commandless (s : State) {f : Frame} {rest : List Stimulus} {e : DecodeError}
    (ht : s.todo = .frame f :: rest) (hd : decode f = .error e) : step s = .next (s.pop.runFrame f) := by
  simp [step, ht, hd, execNoCommand]

/-- Settles O4: a rejected frame dispatches nothing. -/
theorem commandlessFrameIssuesNothing : Obligations.CommandlessFrameIssuesNothing := by
  unfold Obligations.CommandlessFrameIssuesNothing
  intro s f rest e hs hf ht hd
  obtain ⟨hframes, hwaits, hspares, hstate, hacc, hopcode, haddr⟩ :=
    s.pop.runsDry_runFrame hs f hf (undispatched_of_decode_error hf hd)
  refine ⟨_, step_of_commandless s ht hd, by rw [hframes.todo, State.pop_todo, ht, List.tail_cons], hframes.cfg,
    hframes.idle, hframes.seen, hwaits.record, hstate, hframes.count, hacc, hspares.wdata, hwaits.addrHigh,
    fun b0 b1 l hb => hopcode b1 (by rw [hb]; rfl), hspares.opcode,
    fun b0 b1 b2 b3 l hb => haddr b2 b3 (by rw [hb]; rfl) (by rw [hb]; rfl), hspares.addr, hwaits.slave⟩

/-- Settles O40: an UNKNOWN opcode never dispatches. -/
theorem unknownCompletes : Obligations.UnknownCompletes := by
  unfold Obligations.UnknownCompletes
  intro s lead opcode rest tail hs ht hw hr
  obtain ⟨hframes, hwaits, hspares, hstate, hacc, hopcode, haddr⟩ :=
    s.runsDry_runFrame hs (unknownFrame lead opcode rest tail) (decide_eq_true ht) (undispatched_of_unknown lead rest hr hw)
  have hdrained := hspares.source.drainedBy (n := rest.length + 3) hframes.served
  refine ⟨_, rfl, hopcode opcode rfl, hstate, hframes.count, hwaits.record, ?_, fun hlen => hspares.addr ?_, hacc,
    hspares.wdata, hwaits.addrHigh, hframes.cfg, hframes.todo, hframes.idle, hdrained.left, hdrained.word, hwaits.slave⟩
  · rintro a1 a0 l rfl
    exact haddr a1 a0 rfl rfl
  · exact Nat.add_lt_add_right hlen 2

/-! ## READ and WRITE -/

/-- A byte, a byte and an address field make a word. -/
theorem wordOfBytes_addr (b1 b0 : Byte) (a : AddrField) :
    wordOfBytes b1 b0 (a.extractLsb' 8 8) (a.extractLsb' 0 8) = b1 ++ (b0 ++ a) := by
  conv_rhs => rw [← addrOfBytes_addrBytes a]
  apply BitVec.eq_of_toNat_eq
  simp only [wordOfBytes, addrOfBytes, BitVec.toNat_append, Nat.shiftLeft_or_distrib, ← Nat.shiftLeft_add, Nat.or_assoc]

/-- What byte 3 of a READ leaves in the Bridge (43_bridge.md R190). -/
theorem Bridge.Decoding.onByte_read_captures {b : Bridge} {lead a1 : Byte}
    (h : b.Decoding [lead, Config.opcRead, a1]) (a0 : Byte) :
    (b.onByte a0).acc = wordOfBytes lead Config.opcRead a1 a0 ∧ (b.onByte a0).opcode = Config.opcRead ∧
      (b.onByte a0).wdata = b.wdata := by
  have hcount : b.count = 3#3 := h.count
  rw [Bridge.onByte_eq]
  refine ⟨?_, ?_, ?_⟩
  · rw [h.acc]
    exact foldByte_four _ lead Config.opcRead a1 a0
  · simpa [hcount] using h.opcode _ rfl
  · simp [hcount]

/-- What byte 7 of a WRITE leaves in the Bridge (43_bridge.md R191). -/
theorem Bridge.Decoding.onByte_write_captures {b : Bridge} {lead a1 a0 d3 d2 d1 : Byte}
    (h : b.Decoding [lead, Config.opcWrite, a1, a0, d3, d2, d1]) (d0 : Byte) :
    (b.onByte d0).acc = wordOfBytes d3 d2 d1 d0 ∧ (b.onByte d0).opcode = Config.opcWrite := by
  have hcount : b.count = 7#3 := h.count
  rw [Bridge.onByte_eq]
  refine ⟨?_, ?_⟩
  · rw [h.acc]
    exact foldByte_four _ d3 d2 d1 d0
  · simpa [hcount] using h.opcode _ rfl

/-- The first seven bytes of a WRITE dispatch nothing. -/
theorem undispatched_write (lead a1 a0 d3 d2 d1 : Byte) :
    Undispatched [lead, Config.opcWrite, a1, a0, d3, d2, d1] := by
  intro op n hop hn
  obtain rfl : Config.opcWrite = op := Option.some.inj hop
  obtain rfl : 8 = n := Option.some.inj hn
  simp

/-- A READ from a ready state is one read cycle, of a Bridge with its operands. -/
theorem State.runFrame_read (s : State) (hs : s.ready) (lead : Byte) (addr : AddrField) (pad : List Byte)
    (tail : List Bool) (ht : tail.length < 8) :
    ∃ c : Bridge, c.state = .read ∧ c.acc = lead ++ (Config.opcRead ++ addr) ∧ c.opcode = Config.opcRead ∧
      c.addr = addr ∧ c.wdata = s.br.wdata ∧ c.addrHigh = s.br.addrHigh ∧
      s.CyclesTo c (s.runFrame (readFrame lead addr pad tail)) := by
  obtain ⟨b, hdec, hwdata, hhigh, hcycle⟩ := s.runFrame_cycle hs (readFrame lead addr pad tail) (decide_eq_true ht)
    [lead, Config.opcRead, addr.extractLsb' 8 8] (addr.extractLsb' 0 8) pad rfl
    (undispatched_of_length_lt_four (by simp))
    (fun b hdec => (Bridge.inCycle_eq_true_iff _).2 (.inl (hdec.onByte_read _).1))
  obtain ⟨hst, haddr⟩ := hdec.onByte_read (addr.extractLsb' 0 8)
  obtain ⟨hacc, hop, hkept⟩ := hdec.onByte_read_captures (addr.extractLsb' 0 8)
  exact ⟨_, hst, hacc.trans (wordOfBytes_addr lead _ addr), hop, haddr.trans (addrOfBytes_addrBytes addr),
    hkept.trans hwdata, hhigh, hcycle⟩

/-- A WRITE from a ready state is one write cycle, of a Bridge with its operands. -/
theorem State.runFrame_write (s : State) (hs : s.ready) (lead : Byte) (addr : AddrField) (data : Word)
    (pad : List Byte) (tail : List Bool) (ht : tail.length < 8) :
    ∃ c : Bridge, c.state = .write ∧ c.acc = data ∧ c.opcode = Config.opcWrite ∧ c.addr = addr ∧ c.wdata = data ∧
      c.addrHigh = s.br.addrHigh ∧ s.CyclesTo c (s.runFrame (writeFrame lead addr data pad tail)) := by
  obtain ⟨b, hdec, -, hhigh, hcycle⟩ := s.runFrame_cycle hs (writeFrame lead addr data pad tail) (decide_eq_true ht)
    _ (data.extractLsb' 0 8) pad rfl (undispatched_write lead _ _ _ _ _)
    (fun b hdec => (Bridge.inCycle_eq_true_iff _).2 (.inr (hdec.onByte_write _).1))
  obtain ⟨hst, haddr, hdata⟩ := hdec.onByte_write (data.extractLsb' 0 8)
  obtain ⟨hacc, hop⟩ := hdec.onByte_write_captures (data.extractLsb' 0 8)
  exact ⟨_, hst, hacc.trans (wordOfBytes_wordBytes data), hop, haddr.trans (addrOfBytes_addrBytes addr),
    hdata.trans (wordOfBytes_wordBytes data), hhigh, hcycle⟩

/-- The address of a cycle that a command dispatches, from the Bridge alone. -/
theorem Bridge.adr_eq_target {c : Bridge} {s : State} {addr : AddrField} (ha : c.addr = addr)
    (hh : c.addrHigh = s.br.addrHigh) : c.adr s.cfg = s.target addr := by
  rw [Bridge.adr, State.target, ha, hh]

/-- Settles O38: the read cycle of `State.runFrame_read`; with the memory slave it is acknowledged in the frame. -/
theorem readCompletes : Obligations.ReadCompletes := by
  unfold Obligations.ReadCompletes
  intro s lead addr pad tail hs ht
  obtain ⟨c, hst, hacc, hop, haddr, hwdata, hhigh, hcycle⟩ := s.runFrame_read hs lead addr pad tail ht
  have hframes := s.frames_runFrame hs.1 (readFrame lead addr pad tail) (decide_eq_true ht)
  have hadr := Bridge.adr_eq_target haddr hhigh
  obtain ⟨-, hcaptures, houtcome, hsource, hmemory⟩ := hcycle
  refine ⟨_, rfl, hcaptures.opcode.trans hop, hcaptures.addr.trans haddr, hcaptures.acc.trans hacc, hframes.count,
    hcaptures.wdata.trans hwdata, hcaptures.addrHigh.trans hhigh, hframes.cfg, hframes.todo, hframes.idle, ?outcome, ?adr,
    fun m hm => ?ms⟩
  case outcome =>
    rcases houtcome with ⟨hst', hrecord⟩ | ⟨hst', d, hrecord⟩
    · have hdrained := (hsource (by simp [hst', hst])).drainedBy (n := pad.length + 5) hframes.served
      exact .inl ⟨hst'.trans hst, hrecord, hdrained.left, hdrained.word⟩
    · exact .inr ⟨hst', d, by rw [hrecord, Bridge.entry, Bridge.dir, Bridge.movedWord, hadr, hst]; rfl⟩
  case adr => rw [State.outputs_adr, hframes.cfg, hcaptures.adr, hadr]
  case ms =>
    obtain ⟨u, q, hrun, -, hcompletes, -⟩ := s.runFrame_read_ms lead addr pad tail m hs ht hm
    refine ⟨?_, hmemory hst m hm, ?_⟩ <;> rw [hrun]
    · exact hcompletes.idle
    · exact hcompletes.record

/-- Settles O39: the write cycle of `State.runFrame_write`; at least nine requests empty the outgoing source, and
`Memory.read_write` is the memory slave. -/
theorem writeCompletes : Obligations.WriteCompletes := by
  unfold Obligations.WriteCompletes
  intro s lead addr data pad tail hs ht
  obtain ⟨c, hst, hacc, hop, haddr, hwdata, hhigh, hcycle⟩ := s.runFrame_write hs lead addr data pad tail ht
  have hframes := s.frames_runFrame hs.1 (writeFrame lead addr data pad tail) (decide_eq_true ht)
  have hadr := Bridge.adr_eq_target haddr hhigh
  obtain ⟨-, hcaptures, houtcome, hsource, -⟩ := hcycle
  have hdrained := (hsource (by simp [hst])).drainedBy (n := pad.length + 9) hframes.served
  have hwaiting : s.br.txLeft.toNat ≤ pad.length + 9 := by
    have := s.br.txLeft.isLt
    omega
  refine ⟨_, rfl, hcaptures.opcode.trans hop, hcaptures.addr.trans haddr, hcaptures.wdata.trans hwdata,
    hcaptures.acc.trans hacc, hframes.count, hcaptures.addrHigh.trans hhigh, hframes.cfg, hframes.todo, hframes.idle,
    ?left, ?word, ?outcome, ?adr, hcaptures.wdata.trans hwdata, fun m hm hmwf => ?ms⟩
  case left => exact BitVec.eq_of_toNat_eq (hdrained.left.trans (Nat.sub_eq_zero_of_le hwaiting))
  case word => rw [hdrained.word, min_eq_left hwaiting]
  case outcome =>
    rcases houtcome with ⟨hst', hrecord⟩ | ⟨hst', d, hrecord⟩
    · exact .inl ⟨hst'.trans hst, hrecord⟩
    · exact .inr ⟨hst', by rw [hrecord, Bridge.entry, Bridge.dir, Bridge.movedWord, hadr, hst, hwdata]; rfl⟩
  case adr => rw [State.outputs_adr, hframes.cfg, hcaptures.adr, hadr]
  case ms =>
    obtain ⟨u, q, hrun, -, hcompletes, hslave⟩ := s.runFrame_write_ms lead addr data pad tail m hs ht hm
    refine ⟨by rw [hrun]; exact hcompletes.idle, m.write (s.target addr) data, by rw [hrun]; exact hslave,
      m.write_wf _ _ hmwf, ?_, fun a ha => ?_⟩ <;> rw [m.read_write _ _ _ hmwf]
    · rw [if_pos rfl]
    · rw [if_neg ha]

/-! ## Both transports with the memory slave (43_bridge.md R200) -/

/-- A Bridge is told by its captures, its state, its counter and its outgoing source. -/
theorem Bridge.SameCaptures.eq {b b' : Bridge} (h : b.SameCaptures b') (hstate : b'.state = b.state)
    (hcount : b'.count = b.count) (hword : b'.txWord = b.txWord) (hleft : b'.txLeft = b.txLeft) : b' = b := by
  obtain ⟨hacc, hopcode, haddr, hhigh, hwdata⟩ := h
  cases b
  cases b'
  simp_all

/-- The outgoing source takes its counter from the number of bytes that wait. -/
theorem Bridge.txLeft_eq_ofNat {b : Bridge} {n : Nat} (h : b.txLeft.toNat = n) : b.txLeft = BitVec.ofNat 3 n := by
  rw [← h, BitVec.ofNat_toNat, BitVec.setWidth_eq]

/-- From `s` a frame ends with the same Bridge, record and slave for every transport in which no frame is in progress. -/
def State.EndsAlike (s : State) (f : Frame) : Prop :=
  ∃ b r v, ∀ q : Port, q.idle →
    ((s.setPort q).runFrame f).br = b ∧ ((s.setPort q).runFrame f).record = r ∧ ((s.setPort q).runFrame f).slave = v

theorem State.ready_setPort {s : State} (hcfg : s.cfg.wf = true) (hst : s.br.state = .idle) (q : Port) (hq : q.idle) :
    (s.setPort q).ready :=
  ⟨⟨hcfg, hq⟩, hst⟩

theorem State.endsAlike_read (s : State) (lead : Byte) (addr : AddrField) (pad : List Byte) (tail : List Bool)
    (ht : tail.length < 8) (m : Memory) (hcfg : s.cfg.wf = true) (hst : s.br.state = .idle) (hm : s.slave = .ms m) :
    s.EndsAlike (readFrame lead addr pad tail) := by
  refine ⟨{ s.br with
      acc := lead ++ (0x03#8 ++ addr), count := 0#3, opcode := 0x03#8, addr := addr,
      txWord := m.read (s.target addr) <<< (8 * min pad.length 4), txLeft := BitVec.ofNat 3 (4 - pad.length) },
    s.record ++ [{ dir := .read, adr := s.target addr, data := some (m.read (s.target addr)) }], .ms m, fun q hq => ?_⟩
  have hready := State.ready_setPort hcfg hst q hq
  obtain ⟨t, hexec, hop, haddr, hacc, hcount, hwdata, hhigh, -, -, -, -, -, hms⟩ :=
    readCompletes (s.setPort q) lead addr pad tail hready ht
  obtain rfl : (s.setPort q).runFrame (readFrame lead addr pad tail) = t := Host.Outcome.next.inj hexec
  obtain ⟨hidle, hslave, hrecord⟩ := hms m hm
  obtain ⟨u, q', hrun, -, -, before, new, -, -, hlen, hdrained⟩ :=
    (s.setPort q).runFrame_read_ms lead addr pad tail m hready ht hm
  refine ⟨Bridge.SameCaptures.eq ⟨hacc, hop, haddr, hhigh, hwdata⟩ (hidle.trans hst.symm) hcount ?_ ?_, hrecord, hslave⟩
    <;> rw [hrun, ← hlen]
  · exact hdrained.word
  · exact Bridge.txLeft_eq_ofNat hdrained.left

theorem State.endsAlike_write (s : State) (lead : Byte) (addr : AddrField) (data : Word) (pad : List Byte)
    (tail : List Bool) (ht : tail.length < 8) (m : Memory) (hcfg : s.cfg.wf = true) (hst : s.br.state = .idle)
    (hm : s.slave = .ms m) : s.EndsAlike (writeFrame lead addr data pad tail) := by
  refine ⟨{ s.br with
      acc := data, count := 0#3, opcode := 0x02#8, addr := addr, wdata := data,
      txWord := s.br.txWord <<< (8 * s.br.txLeft.toNat), txLeft := 0#3 },
    s.record ++ [{ dir := .write, adr := s.target addr, data := some data }], .ms (m.write (s.target addr) data),
    fun q hq => ?_⟩
  have hready := State.ready_setPort hcfg hst q hq
  obtain ⟨t, hexec, hop, haddr, hwdata, hacc, hcount, hhigh, -, -, -, hleft, hword, -⟩ :=
    writeCompletes (s.setPort q) lead addr data pad tail hready ht
  obtain rfl : (s.setPort q).runFrame (writeFrame lead addr data pad tail) = t := Host.Outcome.next.inj hexec
  obtain ⟨u, q', hrun, -, hcompletes, hslave⟩ :=
    (s.setPort q).runFrame_write_ms lead addr data pad tail m hready ht hm
  rw [hrun] at hop haddr hwdata hacc hcount hhigh hleft hword ⊢
  exact ⟨Bridge.SameCaptures.eq ⟨hacc, hop, haddr, hhigh, hwdata⟩ (hcompletes.idle.trans hst.symm) hcount hword hleft,
    hcompletes.record, hslave⟩

theorem State.endsAlike_unknown (s : State) (lead opcode : Byte) (rest : List Byte) (tail : List Bool)
    (ht : tail.length < 8) (hr : opcode ≠ Config.opcRead) (hw : opcode ≠ Config.opcWrite) (m : Memory)
    (hcfg : s.cfg.wf = true) (hst : s.br.state = .idle) (hm : s.slave = .ms m) :
    s.EndsAlike (unknownFrame lead opcode rest tail) := by
  obtain ⟨a, ha⟩ : ∃ a : AddrField, ∀ b : Bridge, (∀ a1 a0 l, rest = a1 :: a0 :: l → b.addr = a1 ++ a0) →
      (rest.length < 2 → b.addr = s.br.addr) → b.addr = a := by
    match rest with
    | [] | [_] => exact ⟨s.br.addr, fun b _ h => h (by simp)⟩
    | a1 :: a0 :: l => exact ⟨a1 ++ a0, fun b h _ => h a1 a0 l rfl⟩
  refine ⟨{ s.br with
      acc := (lead :: opcode :: rest).foldl foldByte 0#32, count := 0#3, opcode := opcode, addr := a,
      txWord := s.br.txWord <<< (8 * min s.br.txLeft.toNat (rest.length + 3)),
      txLeft := BitVec.ofNat 3 (s.br.txLeft.toNat - (rest.length + 3)) }, s.record, .ms m, fun q hq => ?_⟩
  have hready := State.ready_setPort hcfg hst q hq
  obtain ⟨t, hexec, hop, hidle, hcount, hrecord, haddr, hshort, hacc, hwdata, hhigh, -, -, -, hleft, hword, hslave⟩ :=
    unknownCompletes (s.setPort q) lead opcode rest tail hready ht hw hr
  obtain rfl : (s.setPort q).runFrame (unknownFrame lead opcode rest tail) = t := Host.Outcome.next.inj hexec
  exact ⟨Bridge.SameCaptures.eq ⟨hacc, hop, ha _ haddr hshort, hhigh, hwdata⟩ (hidle.trans hst.symm) hcount hword
    (Bridge.txLeft_eq_ofNat hleft), hrecord, hslave m hm⟩

theorem State.endsAlike_encode (s : State) (i : Instr) (hi : i.wf = true) (m : Memory) (hcfg : s.cfg.wf = true)
    (hst : s.br.state = .idle) (hm : s.slave = .ms m) : s.EndsAlike (encode i) := by
  cases i with
  | read lead addr pad tail => exact s.endsAlike_read lead addr pad tail (of_decide_eq_true hi) m hcfg hst hm
  | write lead addr data pad tail =>
    exact s.endsAlike_write lead addr data pad tail (of_decide_eq_true hi) m hcfg hst hm
  | unknown lead opcode rest tail =>
    obtain ⟨⟨ht, hr⟩, hw⟩ : (tail.length < 8 ∧ opcode ≠ Config.opcRead) ∧ opcode ≠ Config.opcWrite := by
      simpa [Instr.wf] using hi
    exact s.endsAlike_unknown lead opcode rest tail ht hr hw m hcfg hst hm

/-- Settles O50: both transports show the frame's events, and with the memory slave nothing else depends on the transport. -/
theorem transportsAgree : Obligations.TransportsAgree := by
  unfold Obligations.TransportsAgree
  intro i s y a b m hi hcfg hst hm ha hb
  obtain ⟨br, record, slave, h⟩ := s.endsAlike_encode i hi m hcfg hst hm
  obtain ⟨hbrA, hrecordA, hslaveA⟩ := h (.a y a) ha
  obtain ⟨hbrB, hrecordB, hslaveB⟩ := h (.b b) hb
  have hseen : ∀ q : Port, q.idle → ((s.setPort q).runFrame (encode i)).seen = s.seen ++ frameShown (encode i) :=
    fun q hq => ((s.setPort q).frames_runFrame ⟨hcfg, hq⟩ (encode i) (encode_wf i hi)).seen
  exact ⟨_, _, exec_eq_runFrame_encode i _, exec_eq_runFrame_encode i _, (hseen (.a y a) ha).trans (hseen (.b b) hb).symm,
    hrecordA.trans hrecordB.symm, hbrA.trans hbrB.symm, hslaveA.trans hslaveB.symm⟩

end Sys2Proof.Machine
end

section
/-! SUPPORT. The bus transactor (44_bus_transactor.md R220 to R231): what a tick adds to the transaction record in each case,
which of the slave's signals a tick reads, a cycle that waits for its acknowledge, and how many bytes the Bridge has counted
in the ticks after Idle. -/

namespace Sys2Proof.Machine

/-! ## The outputs (44_bus_transactor.md R220 to R222) -/

/-- Settles O32: the outputs read the Bridge's registers alone. -/
theorem busOutputs : Obligations.BusOutputs := by
  unfold Obligations.BusOutputs
  intro s
  exact ⟨rfl, rfl, rfl, rfl, rfl⟩

/-! ## The transaction record (44_bus_transactor.md R231) -/

theorem Bridge.entry_of_read {b : Bridge} (h : b.state = .read) (p : Params) (data : Option Word) :
    b.entry p data = { dir := .read, adr := b.adr p, data := data } := by
  simp [Bridge.entry, Bridge.dir, h]

theorem Bridge.entry_of_write {b : Bridge} (h : b.state = .write) (p : Params) (data : Option Word) :
    b.entry p data = { dir := .write, adr := b.adr p, data := data } := by
  simp [Bridge.entry, Bridge.dir, h]

/-- Outside a cycle nothing is recorded. -/
theorem Bridge.recorded_of_free {b : Bridge} (h : b.free) (p : Params) (rst : Bool) (s : BusSide) :
    b.recorded p rst s = [] := by
  simp [Bridge.recorded, h.inCycle]

/-- The acknowledge of a cycle is recorded, in a reset tick too (log entry 7). -/
theorem Bridge.recorded_of_ack {b : Bridge} (h : b.inCycle = true) (p : Params) (rst : Bool) {s : BusSide}
    (hack : s.ack = true) : b.recorded p rst s = [b.entry p (some (b.movedWord s.datR))] := by
  simp [Bridge.recorded, h, hack]

/-- Without an acknowledge a cycle is recorded where a reset cancels it, and only there. -/
theorem Bridge.recorded_of_no_ack {b : Bridge} (h : b.inCycle = true) (p : Params) (rst : Bool) {s : BusSide}
    (hack : s.ack = false) : b.recorded p rst s = if rst then [b.entry p none] else [] := by
  simp [Bridge.recorded, h, hack]

theorem State.tick_record (s : State) (p : Pins) :
    (s.tick p).record = s.record ++ s.br.recorded s.cfg p.rst (s.inputs p).bus := rfl

/-- In a cycle the transactions end with its pending entry. -/
theorem State.transactions_of_inCycle {s : State} (h : s.br.inCycle = true) :
    s.transactions = s.record ++ [s.br.entry s.cfg none] := by
  rw [State.transactions, Bridge.pendingEntry, if_pos h]

/-- Settles O36: by the cases of `Bridge.recorded`, with the direction and the word of each kind of cycle. -/
theorem transactionRecord : Obligations.TransactionRecord := by
  unfold Obligations.TransactionRecord
  intro s p
  have hcycle := s.br.inCycle_eq_true_iff
  rw [s.tick_record p]
  refine ⟨fun hst hack => ?readAck, fun hst hack => ?writeAck, fun hst hack hr => ?readReset,
    fun hst hack hr => ?writeReset, fun hst hack hr => ?waiting, fun hst => ?free, fun hst => ?readPending,
    fun hst => ?writePending⟩
  case readAck =>
    rw [Bridge.recorded_of_ack (hcycle.2 (.inl hst)) _ _ hack, Bridge.entry_of_read hst, Bridge.movedWord, hst]
    rfl
  case writeAck =>
    rw [Bridge.recorded_of_ack (hcycle.2 (.inr hst)) _ _ hack, Bridge.entry_of_write hst, Bridge.movedWord, hst]
    rfl
  case readReset =>
    rw [Bridge.recorded_of_no_ack (hcycle.2 (.inl hst)) _ _ hack, hr, if_pos rfl, Bridge.entry_of_read hst,
      State.outputs_adr]
  case writeReset =>
    rw [Bridge.recorded_of_no_ack (hcycle.2 (.inr hst)) _ _ hack, hr, if_pos rfl, Bridge.entry_of_write hst,
      State.outputs_adr]
  case waiting =>
    rw [Bridge.recorded_of_no_ack (hcycle.2 hst) _ _ hack, hr, if_neg Bool.false_ne_true, List.append_nil]
  case free =>
    exact ⟨by rw [Bridge.recorded_of_free hst, List.append_nil], State.transactions_of_free hst⟩
  case readPending =>
    rw [State.transactions_of_inCycle (hcycle.2 (.inl hst)), Bridge.entry_of_read hst, State.outputs_adr]
  case writePending =>
    rw [State.transactions_of_inCycle (hcycle.2 (.inr hst)), Bridge.entry_of_write hst, State.outputs_adr]

/-! ## The slave's signals that a tick reads (44_bus_transactor.md R225) -/

/-- The Bridge reads the same of `s` and of `t`: nothing outside a cycle, the acknowledge inside one, and the read data in the
acknowledge of a read. -/
def Bridge.ReadsAlike (b : Bridge) (s t : BusSide) : Prop :=
  b.free ∨ (s.ack = t.ack ∧ (b.state = .read → s.ack = true → s.datR = t.datR))

theorem Bridge.ReadsAlike.of_inCycle {b : Bridge} {s t : BusSide} (h : b.ReadsAlike s t) (hcyc : b.inCycle = true) :
    s.ack = t.ack ∧ (b.state = .read → s.ack = true → s.datR = t.datR) :=
  h.resolve_left fun hfree => Bool.false_ne_true (hfree.inCycle.symm.trans hcyc)

/-- The word an acknowledge moves is the read data in Read only. -/
theorem Bridge.movedWord_congr (b : Bridge) {d d' : Word} (h : b.state ≠ .write → d = d') :
    b.movedWord d = b.movedWord d' := by
  unfold Bridge.movedWord
  split
  · rfl
  · next hst => exact h hst

theorem Bridge.ReadsAlike.recorded {b : Bridge} {s t : BusSide} (h : b.ReadsAlike s t) (p : Params) (rst : Bool) :
    b.recorded p rst s = b.recorded p rst t := by
  rcases b.free_or_inCycle with hfree | hcyc
  · rw [Bridge.recorded_of_free hfree, Bridge.recorded_of_free hfree]
  · obtain ⟨hack, hdat⟩ := h.of_inCycle hcyc
    cases ha : t.ack with
    | false => rw [Bridge.recorded_of_no_ack hcyc p rst ha, Bridge.recorded_of_no_ack hcyc p rst (hack.trans ha)]
    | true =>
      have hs : s.ack = true := hack.trans ha
      have hmoved : b.movedWord s.datR = b.movedWord t.datR :=
        b.movedWord_congr fun hw => hdat ((b.inCycle_eq_true_iff.1 hcyc).resolve_right hw) hs
      rw [Bridge.recorded_of_ack hcyc p rst ha, Bridge.recorded_of_ack hcyc p rst hs, hmoved]

/-- The outgoing source looks at the slave in Read only, and at the read data only with the acknowledge. -/
theorem Bridge.ReadsAlike.outgoing {b : Bridge} {s t : BusSide} (h : b.ReadsAlike s t) (e : Events) :
    b.outgoing e s = b.outgoing e t := by
  by_cases hst : b.state = .read
  · obtain ⟨hack, hdat⟩ := h.of_inCycle (b.inCycle_eq_true_iff.2 (.inl hst))
    cases ha : s.ack with
    | true => rw [b.outgoing_load e s hst ha, b.outgoing_load e t hst (hack ▸ ha), hdat hst ha]
    | false => simp [Bridge.outgoing, ha, ← hack]
  · simp [Bridge.outgoing, hst]

/-- The state machine looks at the acknowledge in a cycle only. -/
theorem Bridge.fsm_ack_irrelevant {b : Bridge} (h : b.free) (e : Events) (k l : Bool) : b.fsm e k = b.fsm e l := by
  rcases h with h | h <;> simp [Bridge.fsm, h]

theorem Bridge.ReadsAlike.next {b : Bridge} {s t : BusSide} (h : b.ReadsAlike s t) (e : Events) :
    b.next e s = b.next e t := by
  rw [Bridge.next, Bridge.next, h.outgoing e]
  obtain hfree | ⟨hack, -⟩ := h
  · exact Bridge.fsm_ack_irrelevant (by simpa [Bridge.free, Bridge.clearOnDone_eq] using hfree) e _ _
  · rw [hack]

/-- The transport does not see the bus slave. -/
theorem Port.events_bus_irrelevant (q : Port) (p : Params) (pins : Pins) (s t : BusSide) :
    q.events p ⟨pins, s⟩ = q.events p ⟨pins, t⟩ := by
  cases q <;> rfl

theorem Port.next_bus_irrelevant (q : Port) (p : Params) (pins : Pins) (s t : BusSide) (x : Byte) :
    q.next p ⟨pins, s⟩ x = q.next p ⟨pins, t⟩ x := by
  cases q <;> rfl

/-- Settles O34: the transport reads the pins and the fill byte, and the Bridge and the record as `Bridge.ReadsAlike` says. -/
theorem ackOutsideCycleIgnored : Obligations.AckOutsideCycleIgnored := by
  unfold Obligations.AckOutsideCycleIgnored
  rintro s ⟨pins, bus⟩ ⟨_, bus'⟩ rfl hfill halike
  replace hfill : bus.fill = bus'.fill := hfill
  have hreads : s.br.ReadsAlike bus bus' := halike
  have hevents : s.events ⟨pins, bus⟩ = s.events ⟨pins, bus'⟩ := s.port.events_bus_irrelevant s.cfg pins bus bus'
  have htx : s.txByte ⟨pins, bus⟩ = s.txByte ⟨pins, bus'⟩ := by simp only [State.txByte, hfill]
  have hclock : s.clock ⟨pins, bus⟩ = s.clock ⟨pins, bus'⟩ := by
    simp only [State.clock, State.advance, hevents, htx, hreads.next, s.port.next_bus_irrelevant s.cfg pins bus bus']
  simp only [State.tickWith, State.observe, State.taken, State.shown, hclock, hevents, htx, hreads.recorded]

/-! ## A cycle that waits for its acknowledge (44_bus_transactor.md R226) -/

/-- From `s` to `t` nothing happened to the bus cycle in progress: it is the same cycle, and nothing was recorded. -/
structure State.HoldsCycle (s t : State) : Prop where
  cfg : t.cfg = s.cfg
  state : t.br.state = s.br.state
  captures : s.br.SameCaptures t.br
  record : t.record = s.record

theorem State.HoldsCycle.refl (s : State) : s.HoldsCycle s := ⟨rfl, rfl, .refl s.br, rfl⟩

theorem State.HoldsCycle.trans {s t u : State} (h : s.HoldsCycle t) (h' : t.HoldsCycle u) : s.HoldsCycle u :=
  ⟨h'.cfg.trans h.cfg, h'.state.trans h.state, h.captures.trans h'.captures, h'.record.trans h.record⟩

/-- In a cycle nothing is captured, whatever the transport shows (43_bridge.md R195). -/
theorem Bridge.sameCaptures_next_of_inCycle (b : Bridge) (e : Events) (s : BusSide) (h : b.inCycle = true) :
    b.SameCaptures (b.next e s) := by
  rw [b.next_cycle e s (b.inCycle_eq_true_iff.1 h)]
  exact { b.sameCaptures_outgoing e s with }

/-- A tick without acknowledge and reset holds the cycle. -/
theorem State.holdsCycle_tick (s : State) (p : Pins) (h : s.br.inCycle = true) (hack : s.bus.ack = false)
    (hr : p.rst = false) : s.HoldsCycle (s.tick p) := by
  rw [s.tick_eq p hr]
  refine ⟨rfl, ?_, s.br.sameCaptures_next_of_inCycle _ s.bus h, ?_⟩
  · rw [State.setPort_br, State.bridgeTick_br, s.br.next_cycle _ s.bus (s.br.inCycle_eq_true_iff.1 h), hack]
    rfl
  · rw [State.setPort_record, State.bridgeTick_record, Bridge.recorded_of_no_ack h s.cfg false hack,
      if_neg Bool.false_ne_true, List.append_nil]

theorem State.holdsCycle_run (s : State) (h : s.br.inCycle = true) (l : List Pins) (rs : List BusSide)
    (hslave : s.slave = .script rs) (hlen : l.length ≤ rs.length) (hack : ∀ r ∈ rs, r.ack = false)
    (hrst : ∀ p ∈ l, p.rst = false) : s.HoldsCycle (s.run l) := by
  induction l generalizing s rs with
  | nil => exact .refl s
  | cons p l ih =>
    cases rs with
    | nil => simp at hlen
    | cons r rs =>
      rw [List.forall_mem_cons] at hack hrst
      have htick : s.HoldsCycle (s.tick p) :=
        s.holdsCycle_tick p h (by rw [s.bus_of_script r rs hslave, hack.1]) hrst.1
      have hcyc : (s.tick p).br.inCycle = true := by rw [Bridge.inCycle, htick.state]; exact h
      exact htick.trans (ih _ hcyc rs (s.tick_slave_of_script p r rs hslave) (by simpa using hlen) hack.2 hrst.2)

/-- Settles O35: every tick of the run holds the cycle, and the bus outputs are functions of what is held. -/
theorem cycleHeldWithoutAck : Obligations.CycleHeldWithoutAck := by
  unfold Obligations.CycleHeldWithoutAck
  intro s l rs hst hslave hlen hack hrst
  have hcyc : s.br.inCycle = true := s.br.inCycle_eq_true_iff.2 hst
  obtain ⟨hcfg, hstate, hcaptures, hrecord⟩ := s.holdsCycle_run hcyc l rs hslave hlen hack hrst
  have hcyc' : (s.run l).br.inCycle = true := by rw [Bridge.inCycle, hstate]; exact hcyc
  exact ⟨hstate, hcaptures.addr, hcaptures.wdata, hcaptures.acc, hcaptures.opcode, hcyc', hcyc',
    by rw [State.outputs_we, State.outputs_we, hstate],
    by rw [State.outputs_adr, State.outputs_adr, hcfg, hcaptures.adr], hcaptures.wdata, hrecord⟩

/-! ## The gap between cycles (44_bus_transactor.md R227) -/

/-- The Bridge is in Idle, or in Command with fewer than `n` bytes counted: what it is at most `n` ticks after Idle. -/
def Bridge.CountsBelow (b : Bridge) (n : Nat) : Prop := b.state = .idle ∨ (b.state = .command ∧ b.count.toNat < n)

theorem Bridge.CountsBelow.free {b : Bridge} {n : Nat} (h : b.CountsBelow n) : b.free := h.imp_right And.left

/-- A byte counted below 3 dispatches nothing (43_bridge.md R186 to R189). -/
theorem Bridge.onByte_of_count_lt_three (b : Bridge) (x : Byte) (h : b.count.toNat < 3) :
    (b.onByte x).state = b.state ∧ (b.onByte x).count.toNat = b.count.toNat + 1 := by
  have h3 : b.count ≠ 3#3 := by bv_omega
  have h7 : b.count ≠ 7#3 := by bv_omega
  rw [b.onByte_eq x]
  refine ⟨by simp [h3, h7], ?_⟩
  simp only [countUp, if_neg h7]
  bv_omega

/-- The first three bytes after a `Start` dispatch nothing, and each takes a tick of its own (43_bridge.md R182, R188). -/
theorem Bridge.CountsBelow.next {b : Bridge} {n : Nat} (h : b.CountsBelow n) (hn : n ≤ 3) (e : Events) (s : BusSide) :
    (b.next e s).CountsBelow (n + 1) := by
  cases hs : e.start with
  | true =>
    rw [b.next_start e s h.free hs]
    exact .inr ⟨rfl, Nat.succ_pos n⟩
  | false =>
    rcases h with hst | ⟨hst, hcount⟩
    · rw [b.next_idle e s hst hs]
      exact .inl (by simpa using hst)
    cases hd : e.done with
    | true =>
      rw [b.next_command_done e s hst hs hd]
      exact .inl rfl
    | false =>
      cases hb : e.byteReady with
      | true =>
        obtain ⟨hstate, hcount'⟩ := (b.outgoing e s).onByte_of_count_lt_three e.byte
          (by rw [Bridge.outgoing_count]; omega)
        rw [b.next_command_byte e s hst hs hd hb]
        exact .inr ⟨by simp [hstate, hst], by simpa [hcount'] using hcount⟩
      | false =>
        rw [b.next_command_quiet e s hst hs hd hb]
        exact .inr ⟨by simpa using hst, by simpa using hcount.trans (Nat.lt_succ_self n)⟩

theorem State.tick_br_of_reset (s : State) {p : Pins} (hr : p.rst = true) :
    (s.tick p).br = Bridge.resetValue s.cfg := by
  rw [State.tick, State.tickWith_br, s.clock_of_reset (s.inputs p) hr, State.takeReset_br]

theorem State.tick_countsBelow (s : State) (p : Pins) {n : Nat} (h : s.br.CountsBelow n) (hn : n ≤ 3) :
    (s.tick p).br.CountsBelow (n + 1) := by
  cases hr : p.rst with
  | true =>
    rw [s.tick_br_of_reset hr]
    exact .inl rfl
  | false =>
    rw [s.tick_br_of_no_reset hr]
    exact h.next hn _ _

theorem State.run_countsBelow (s : State) (l : List Pins) {n : Nat} (h : s.br.CountsBelow n) (hn : n + l.length ≤ 4) :
    (s.run l).br.CountsBelow (n + l.length) := by
  induction l generalizing s n with
  | nil => exact h
  | cons p l ih =>
    rw [List.length_cons] at hn ⊢
    have htail := ih (s.tick p) (s.tick_countsBelow p h (by omega)) (by omega)
    rwa [Nat.add_right_comm, Nat.add_assoc] at htail

/-- Settles O37: within four ticks of Idle a decode has counted at most three bytes, and none of those dispatches. -/
theorem gapBetweenCycles : Obligations.GapBetweenCycles := by
  unfold Obligations.GapBetweenCycles
  intro s l hst hlen
  have hidle : s.br.CountsBelow 0 := .inl hst
  exact (s.run_countsBelow l hidle (by omega)).free.inCycle

end Sys2Proof.Machine
end

section
/-! SUPPORT. The exceptions that the block does not have (60_exceptions.md R240 to R244): nothing stops it, at most one
transport event fires in a tick, and what a command loses under the labels E5, E6 and E7. -/

namespace Sys2Proof.Machine

/-! ## Nothing stops the block (60_exceptions.md R240) -/

/-- Every head of `todo` has its step: a tick, a command, or a frame that holds none. -/
theorem exists_step_eq_next (s : State) : ∃ t, step s = .next t := by
  obtain ⟨htick, hfree⟩ := stepRunsTick s
  rcases htodo : s.todo with _ | ⟨p | f, rest⟩
  · exact ⟨_, hfree htodo⟩
  · exact ⟨_, htick p rest htodo⟩
  · cases hd : decode f with
    | ok i => exact ⟨_, (step_of_frame s htodo hd).trans (exec_eq_runFrame_encode i _)⟩
    | error e => exact ⟨_, step_of_commandless s htodo hd⟩

/-- Settles O1: a step is a tick or a frame, and a command is the run of its frame. -/
theorem stepNeverStops : Obligations.StepNeverStops := by
  unfold Obligations.StepNeverStops
  exact ⟨exists_step_eq_next, fun i s => ⟨_, exec_eq_runFrame_encode i s⟩⟩

/-! ## At most one transport event (60_exceptions.md R244) -/

/-- Where busy has settled it shows no edge (42_transport_b.md R159, R160). -/
theorem PortB.no_edge_of_settled {b : PortB} (h : b.busy = b.busyPrev) : b.busyRise = false ∧ b.busyFall = false := by
  simp [PortB.busyRise, PortB.busyFall, h]

/-- A byte is shown only where busy has settled. -/
theorem PortB.Inv.no_edge_of_rxStrobe {b : PortB} (h : b.Inv) (hrx : b.rxStrobe = true) :
    b.busyRise = false ∧ b.busyFall = false :=
  PortB.no_edge_of_settled (h.1 hrx).2

/-- In POLL, the one state that makes requests, no byte waits to be shown and busy has settled. -/
theorem PortB.Inv.events_of_txReq {b : PortB} (h : b.Inv) {p : Params} {k : Bool} {sr : Byte}
    (hreq : (b.events p k sr).txReq = true) :
    (b.events p k sr).start = false ∧ (b.events p k sr).byteReady = false ∧ (b.events p k sr).done = false := by
  have hst : b.state = .poll := by
    simp only [PortB.events, Bool.and_eq_true, decide_eq_true_eq] at hreq
    exact hreq.1.1.1
  have hsettled : b.busy = b.busyPrev := by
    by_contra hedge
    simpa [hst] using h.2.1 hedge
  obtain ⟨hrise, hfall⟩ := PortB.no_edge_of_settled hsettled
  exact ⟨hrise, h.rxStrobe_eq_false (by simp [hst]), hfall⟩

/-- A `ByteReady` comes without a `Start` and without a `Done`. -/
theorem Port.Inv.events_byteReady_excl {q : Port} (h : q.Inv) (p : Params) (i : Inputs)
    (hb : (q.events p i).byteReady = true) : (q.events p i).start = false ∧ (q.events p i).done = false := by
  cases q with
  | a y a => exact (a.events_excl y).2 hb
  | b b => exact PortB.Inv.no_edge_of_rxStrobe h hb

/-- Settles O18: `Done` and `ByteReady` exclude the other events, and the requests are told from the transport. -/
theorem atMostOneEvent : Obligations.AtMostOneEvent := by
  unfold Obligations.AtMostOneEvent
  intro s p hinv
  have hdone := hinv.events_done_excl s.cfg (s.inputs p)
  have hbyte := hinv.events_byteReady_excl s.cfg (s.inputs p)
  refine ⟨fun hs => ⟨?_, ?_⟩, fun hb => (hbyte hb).2, fun y a hp => ?_, fun b hp hreq => ?_⟩
  · exact Bool.eq_false_iff.2 fun hb => Bool.false_ne_true ((hbyte hb).1.symm.trans hs)
  · exact Bool.eq_false_iff.2 fun hd => Bool.false_ne_true ((hdone hd).1.symm.trans hs)
  · rw [State.events_a hp]
    rfl
  · have hinvB : b.Inv := by simpa only [hp] using hinv
    rw [State.events_b hp] at hreq ⊢
    exact hinvB.events_of_txReq hreq

/-! ## A late byte and an early end (60_exceptions.md R241, labels E6 and E7) -/

/-- A byte is late where Variant B shows it with busy low in this tick and in the one before. -/
theorem State.lateByte_eq_true_iff (s : State) (i : Inputs) :
    s.lateByte i = true ↔ ∃ b, s.port = .b b ∧ b.rxStrobe = true ∧ b.busy = false ∧ b.busyPrev = false := by
  unfold State.lateByte
  split
  · next y a hp => simp [hp]
  · next b hp => simp [hp, PortB.events, and_assoc]

/-- Outside Command a tick without `Start` and `Done` counts nothing and dispatches nothing (43_bridge.md R183, R195). -/
theorem Bridge.next_of_not_command (b : Bridge) (e : Events) (s : BusSide) (h : b.state ≠ .command)
    (hs : e.start = false) (hd : e.done = false) :
    (b.next e s).count = b.count ∧ ((b.next e s).state = b.state ∨ (b.next e s).state = .idle) := by
  cases hst : b.state with
  | idle => simp [b.next_idle e s hst hs, hd, hst]
  | command => exact absurd hst h
  | read => cases hack : s.ack <;> simp [b.next_cycle e s (.inl hst), hd, hst, hack]
  | write => cases hack : s.ack <;> simp [b.next_cycle e s (.inr hst), hd, hst, hack]

/-- The counts and opcodes before a dispatch. The counter saturates below the length of a WRITE, so no count is one at which
a WRITE in Command has dispatched (30_encoding.md R87). -/
theorem Bridge.beforeDispatch_eq_true_iff (b : Bridge) :
    b.beforeDispatch = true ↔
      b.count.toNat < 2 ∨ (b.opcode = Config.opcRead ∧ b.count.toNat < 4) ∨ b.opcode = Config.opcWrite := by
  have hcount : b.count.toNat < 8 := b.count.isLt
  have hlow : b.count < 2#3 ↔ b.count.toNat < 2 := Iff.rfl
  have hne : Config.opcWrite ≠ Config.opcRead := by decide
  unfold Bridge.beforeDispatch dispatchLength opcodeClass
  by_cases hr : b.opcode = Config.opcRead
  · simp [hr, hlow, hne.symm]
  by_cases hw : b.opcode = Config.opcWrite
  · simp [hw, hlow, hne, hcount]
  · simp [hr, hw, hlow]

/-- Settles O58: a late byte comes with settled busy, and outside Command no byte counts; an early end is the `Done` of
`bridgeCommandDone` under `Bridge.beforeDispatch_eq_true_iff`. -/
theorem lateByteAndEarlyEnd : Obligations.LateByteAndEarlyEnd := by
  unfold Obligations.LateByteAndEarlyEnd
  refine ⟨fun s p hr hlate => ?late, fun s p hr hend => ?early, fun s p hst hd hs hcount hw hrd => ?unknown,
    fun s p b hp hbusy => ?busy⟩
  case late =>
    obtain ⟨b, hp, hrx, hbusy, hprev⟩ := (s.lateByte_eq_true_iff _).1 hlate
    obtain ⟨hstart, hdone⟩ : (s.events (s.inputs p)).start = false ∧ (s.events (s.inputs p)).done = false := by
      rw [State.events_b hp]
      exact PortB.no_edge_of_settled (hbusy.trans hprev.symm)
    refine ⟨by rw [State.events_b hp]; exact hrx, hdone, hstart, fun hst => ?_⟩
    rw [s.tick_br_of_no_reset hr]
    obtain ⟨hacc, hopcode, haddr, -, hwdata⟩ :=
      s.br.sameCaptures_next (s.events (s.inputs p)) (s.inputs p).bus hst hstart
    obtain ⟨hcount, hstate⟩ := s.br.next_of_not_command _ (s.inputs p).bus hst hstart hdone
    exact ⟨hacc, hcount, hopcode, haddr, hwdata, hstate⟩
  case early =>
    obtain ⟨⟨⟨hst, hdone⟩, hstart⟩, hbefore⟩ : ((s.br.state = .command ∧ (s.events (s.inputs p)).done = true) ∧
        (s.events (s.inputs p)).start = false) ∧ s.br.beforeDispatch = true := by
      simpa [State.endedEarly] using hend
    obtain ⟨hbr, htransactions⟩ := bridgeCommandDone s p hr hst hstart hdone
    exact ⟨hdone, congrArg Bridge.state hbr, htransactions, s.br.beforeDispatch_eq_true_iff.1 hbefore⟩
  case unknown =>
    have hbefore : s.br.beforeDispatch = false := by
      rw [Bool.eq_false_iff, ne_eq, s.br.beforeDispatch_eq_true_iff]
      rintro (hlow | ⟨hread, -⟩ | hwrite)
      · omega
      · exact hrd hread
      · exact hw hwrite
    rw [State.endedEarly, hbefore, Bool.and_false]
  case busy =>
    rw [Bool.eq_false_iff, ne_eq, s.lateByte_eq_true_iff]
    rintro ⟨b', hp', -, hlow, -⟩
    obtain rfl : b = b' := Port.b.inj (hp.symm.trans hp')
    exact Bool.false_ne_true (hlow.symm.trans hbusy)

end Sys2Proof.Machine
end

section
/-! SUPPORT. A command sent while a bus transaction is in flight (60_exceptions.md R241, label E5; 43_bridge.md R195): its
`Start` is dropped, and without a `Start` nothing of it is decoded. -/

namespace Sys2Proof.Machine

/-! ## Where the `Start` of a frame stands -/

/-- The acknowledge of a write brings an adapter without an event to IDLE in a quiet tick (42_transport_b.md R153, R157). -/
theorem State.periph_write (s : State) (st : AdapterState) (hst : st = .reset ∨ st = .txwrite) (rx tx : Byte)
    (hp : s.port =
      .b { state := st, busy := false, busyPrev := false, rxStrobe := false, rxByte := rx, txData := tx })
    (q : Peripheral) (n : Nat) :
    s.runPeripheral q (n + 1) =
      ((s.bridgeTick Events.quiet).setPort (.b (atIdle false rx tx))).runPeripheral q n := by
  rw [State.runPeripheral_step s _ q n hp, State.bridgeTick_isQuiet]
  · rcases hst with rfl | rfl <;> rfl
  · rcases hst with rfl | rfl <;> simp [PortB.events, PortB.busyRise, PortB.busyFall]

/-- Within two quiet ticks the standard peripheral has an adapter between frames in POLL. -/
theorem State.periph_reaches_poll (s : State) (b : PortB) (hp : s.port = .b b) (hi : idleB b) (q : Peripheral) :
    ∃ pre ≤ 2, ∀ n, s.runPeripheral q (n + pre) = ((s.bridgeRun (List.replicate pre Events.quiet)).setPort
      (.b (atPoll false b.rxByte b.txData))).runPeripheral q n := by
  obtain ⟨st, busy, busyPrev, rxStrobe, rx, tx⟩ := b
  obtain ⟨rfl, rfl, rfl, hst⟩ : busy = false ∧ busyPrev = false ∧ rxStrobe = false ∧ st ≠ .rxread := hi
  have two_ticks : (st = .reset ∨ st = .txwrite) → ∀ n, s.runPeripheral q (n + 1 + 1) =
      ((s.bridgeRun [Events.quiet, Events.quiet]).setPort (.b (atPoll false rx tx))).runPeripheral q n := by
    intro hwrite n
    rw [s.periph_write st hwrite rx tx hp, State.periph_idle _ false rx tx q n rfl]
    rfl
  cases st with
  | reset => exact ⟨2, le_rfl, two_ticks (.inl rfl)⟩
  | idle => exact ⟨1, by omega, fun n => State.periph_idle s false rx tx q n hp⟩
  | poll => exact ⟨0, by omega, fun n => congrArg (State.runPeripheral · q n) (s.setPort_self _ hp).symm⟩
  | rxread => exact absurd rfl hst
  | txwrite => exact ⟨2, le_rfl, two_ticks (.inr rfl)⟩

/-- No `Start` comes after one of the first four ticks of a frame: `e` are the events of that tick, `pre` those before it and
`post` those after it. -/
structure StartCut (es pre : List Events) (e : Events) (post : List Events) : Prop where
  eq : es = pre ++ e :: post
  soon : pre.length ≤ 3
  rest : ∀ a ∈ post, a.start = false

theorem frameEventsA_startCut (f : Frame) : ∃ pre e post, StartCut (frameEventsA f) pre e post :=
  ⟨[Events.quiet, Events.quiet], Events.startA, _, rfl, by simp, start_eq_false_of_shownBy (by simp)⟩

theorem frameEventsB_startCut (f : Frame) {pre : Nat} (hpre : pre ≤ 2) (post : Nat) :
    ∃ first e rest, StartCut (frameEventsB f pre post) first e rest :=
  ⟨List.replicate pre Events.quiet ++ [Events.requestOnly], Events.startOnly, _,
    (List.append_assoc _ [Events.requestOnly] (Events.startOnly :: _)).symm, by simpa using Nat.lt_succ_of_le hpre,
    start_eq_false_of_shownBy (by simp)⟩

/-- `State.runFrame_b` with the number of ticks that bring the adapter to POLL bounded. -/
theorem State.runFrame_b_pre_le_two (s : State) (b : PortB) (hp : s.port = .b b) (hw : s.cfg.wf = true) (hi : idleB b)
    (f : Frame) : ∃ pre ≤ 2, ∃ post b', s.runFrame f = (s.bridgeRun (frameEventsB f pre post)).setPort (.b b') := by
  have hlen : (f.bytes.flatMap (bytePolls s.cfg)).length = f.bytes.length * 2 := by
    simp [List.length_flatMap, bytePolls]
  obtain ⟨pre, hpre, hreach⟩ := s.periph_reaches_poll b hp hi
    { polls := framePolls s.cfg f, rxData := (Config.pinsDraw s.now).sbDatR }
  have hticks : peripheralTicks (framePolls s.cfg f) = (3 - pre) + 2 + 6 * f.bytes.length + 1 + 2 + pre := by
    simp only [peripheralTicks, framePolls, List.length_cons, List.length_append, hlen, List.length_nil]
    omega
  obtain ⟨b', hframe, -, -⟩ := State.periph_frame f ((s.bridgeRun (List.replicate pre Events.quiet)).setPort
    (.b (atPoll false b.rxByte b.txData))) b.rxByte b.txData (Config.pinsDraw s.now).sbDatR (3 - pre)
    (by simpa using hw) rfl
  simp only [State.setPort_cfg, State.bridgeRun_cfg] at hframe
  refine ⟨pre, hpre, 3 - pre, b', ?_⟩
  simp only [State.runFrame, hp]
  rw [hticks, hreach, hframe, State.setPort_bridgeRun, State.setPort_setPort, ← State.bridgeRun_append]
  simp [frameEventsB]

/-- Under the standard environment of either transport. -/
theorem State.runFrame_startCut (s : State) (hs : s.betweenFrames) (f : Frame) (hf : f.wf = true) :
    ∃ es pre e post q, s.runFrame f = (s.bridgeRun es).setPort q ∧ StartCut es pre e post := by
  obtain ⟨hw, hi⟩ := hs
  cases hp : s.port with
  | a y a =>
    rw [hp] at hi
    obtain ⟨y', a', hrun, -⟩ := State.runFrame_a f s y a hp hi hf
    obtain ⟨pre, e, post, hcut⟩ := frameEventsA_startCut f
    exact ⟨_, pre, e, post, _, hrun, hcut⟩
  | b b =>
    rw [hp] at hi
    obtain ⟨n, hn, m, b', hrun⟩ := s.runFrame_b_pre_le_two b hp hw hi f
    obtain ⟨pre, e, post, hcut⟩ := frameEventsB_startCut f hn m
    exact ⟨_, pre, e, post, _, hrun, hcut⟩

/-! ## The cycle in flight, through the `Start` (43_bridge.md R195) -/

/-- In a cycle a `Start` is dropped: only the observer notes it. -/
theorem State.bridgeTick_start_dropped (t : State) (e : Events) (h : t.br.inCycle = true) :
    t.bridgeTick e = { t.bridgeTick { e with start := false } with seen := t.seen ++ e.visible } := by
  have hbr : t.br.next e t.bus = t.br.next { e with start := false } t.bus := by
    rw [t.br.next_cycle _ _ (t.br.inCycle_eq_true_iff.1 h), t.br.next_cycle _ _ (t.br.inCycle_eq_true_iff.1 h)]
    rfl
  rw [State.bridgeTick, hbr]
  rfl

/-- While the cycle is in flight no event disturbs it. -/
theorem State.CyclesTo.tick_of_inCycle {s t : State} {c : Bridge} (h : s.CyclesTo c t) (hc : c.inCycle = true)
    (ht : t.br.inCycle = true) (e : Events) : s.CyclesTo c (t.bridgeTick e) := by
  rw [t.bridgeTick_start_dropped e ht]
  exact { h.tick hc { e with start := false } rfl with }

/-- Over ticks without an acknowledge the cycle stays in flight, whatever they show. -/
theorem State.CyclesTo.run_without_ack {s t : State} {c : Bridge} (h : s.CyclesTo c t) (hc : c.inCycle = true)
    (hst : t.br.state = c.state) (es : List Events) (rs : List BusSide) (hslave : t.slave = .script rs)
    (hlen : es.length ≤ rs.length) (hack : ∀ r ∈ rs.take es.length, r.ack = false) :
    s.CyclesTo c (t.bridgeRun es) ∧ (t.bridgeRun es).br.state = c.state := by
  induction es generalizing t rs with
  | nil => exact ⟨h, hst⟩
  | cons e es ih =>
    cases rs with
    | nil => simp at hlen
    | cons r rs =>
      rw [List.length_cons, List.take_succ_cons, List.forall_mem_cons] at hack
      have ht : t.br.inCycle = true := by rw [Bridge.inCycle, hst]; exact hc
      have hst' : (t.bridgeTick e).br.state = c.state := by
        rw [State.bridgeTick_br, t.br.next_cycle e t.bus (t.br.inCycle_eq_true_iff.1 ht), t.bus_of_script r rs hslave,
          hack.1]
        exact hst
      have hslave' : (t.bridgeTick e).slave = .script rs := by
        rw [State.bridgeTick_slave, hslave, Slave.after, List.tail_cons]
      exact ih (h.tick_of_inCycle hc ht e) hst' rs hslave' (by simpa using hlen) hack.2

/-- A frame sent while a cycle is in flight that is not acknowledged in the first three ticks is no more than ticks of that
cycle. -/
theorem State.runFrame_cyclesTo (s : State) (hs : s.betweenFrames) (hc : s.br.inCycle = true) (rs : List BusSide)
    (hslave : s.slave = .script rs) (hlen : 3 ≤ rs.length) (hack : ∀ r ∈ rs.take 3, r.ack = false) (f : Frame)
    (hf : f.wf = true) : s.CyclesTo s.br (s.runFrame f) := by
  obtain ⟨_, pre, e, post, q, hrun, rfl, hsoon, hrest⟩ := s.runFrame_startCut hs f hf
  have hstart : s.CyclesTo s.br s :=
    ⟨rfl, .refl _, .inl ⟨rfl, rfl⟩, fun _ => .refl s, fun _ _ hm => hm⟩
  obtain ⟨hpre, hst⟩ := hstart.run_without_ack hc rfl pre rs hslave (by omega)
    fun r hr => hack r (List.take_subset_take_left rs hsoon hr)
  have hcyc : (s.bridgeRun pre).br.inCycle = true := by rw [Bridge.inCycle, hst]; exact hc
  have hend := (hpre.tick_of_inCycle hc hcyc e).run hc post hrest
  rw [hrun, State.bridgeRun_append, State.bridgeRun_cons]
  exact { hend with }

/-- Settles O42: the frame's `Start` comes while the cycle is in flight, and the end of the frame clears the counter. -/
theorem commandDuringTransactionIsLost : Obligations.CommandDuringTransactionIsLost := by
  unfold Obligations.CommandDuringTransactionIsLost
  intro i s rs hi hs hst hslave hlen hack
  have hf := encode_wf i hi
  obtain ⟨-, ⟨hacc, hopcode, haddr, hhigh, hwdata⟩, houtcome, -, -⟩ :=
    s.runFrame_cyclesTo hs (s.br.inCycle_eq_true_iff.2 hst) rs hslave hlen hack (encode i) hf
  refine ⟨_, exec_eq_runFrame_encode i s, hacc, hopcode, haddr, hwdata, hhigh, (s.frames_runFrame hs _ hf).count, ?_⟩
  exact houtcome.imp_right fun ⟨hidle, r, hrecord⟩ => ⟨hidle, _, hrecord⟩

end Sys2Proof.Machine
end

section
/-! SUPPORT. Reset and the hazards (70_reset_and_hazards.md): a reset tick from any state (R270), the word of a READ that has
room for it in its own frame (R277), and a quiescent state over ticks in which nothing is sent (R284). -/

namespace Sys2Proof.Machine

/-! ## A reset tick (70_reset_and_hazards.md R270) -/

/-- Settles O5: each part takes its reset value, and `transactionRecord` is the cancelled cycle. -/
theorem resetOverridesEverything : Obligations.ResetOverridesEverything := by
  unfold Obligations.ResetOverridesEverything
  intro s p hr
  have hcyc : (s.tick p).br.inCycle = false := by
    rw [s.tick_br_of_reset hr]
    rfl
  obtain ⟨-, -, hread, hwrite, -⟩ := transactionRecord s p
  refine ⟨s.tick_br_of_reset hr, fun y a hp => ?_, fun b hp => ?_, hcyc, hcyc, s.tick_cfg p, s.tick_todo p,
    fun hst hack => hread hst hack hr, fun hst hack => hwrite hst hack hr⟩
  · rw [s.tick_port_of_reset p hr, hp]
    rfl
  · rw [s.tick_port_of_reset p hr, hp]
    rfl

/-! ## A READ with room for its word (70_reset_and_hazards.md R277) -/

/-- Four requests or more take a whole word in order and leave nothing waiting (20_memory.md R67). -/
theorem Bridge.DrainedFrom.of_four_le {b : Bridge} {w : Word} {new : List Byte} (h : b.DrainedFrom w 4 new)
    (hlen : 4 ≤ new.length) : new.take 4 = wordBytes w ∧ b.txLeft = 0#3 ∧ b.txWord = 0#32 := by
  obtain ⟨hleft, hword, hbytes⟩ := h
  refine ⟨?_, ?_, ?_⟩
  · rw [hbytes, take_take_wordBytes _ _ hlen]
    rfl
  · rw [Nat.sub_eq_zero_of_le hlen] at hleft
    exact BitVec.eq_of_toNat_eq hleft
  · rw [hword, min_eq_right hlen]
    exact BitVec.shiftLeft_eq_zero le_rfl

/-- Settles O46: five requests come before the word, and the pad bytes bring at least the four that take it. -/
theorem longReadServesItsWord : Obligations.LongReadServesItsWord := by
  unfold Obligations.LongReadServesItsWord
  intro s lead addr pad tail m hs ht _ hm hpad
  obtain ⟨u, q, hrun, -, hcompletes, before, new, hserved, hbefore, hnew, hdrained⟩ :=
    s.runFrame_read_ms lead addr pad tail m hs ht hm
  obtain ⟨hbytes, hleft, hword⟩ := hdrained.of_four_le (by omega)
  refine ⟨u.setPort q, before, new.drop 4, congrArg Host.Outcome.next hrun, ?_, hbefore, ?_, hleft, hword,
    hcompletes.idle⟩
  · rw [State.setPort_served, hserved, ← hbytes, List.take_append_drop]
  · rw [List.length_drop, hnew]

/-! ## A quiescent transport to which nothing is sent (70_reset_and_hazards.md R284) -/

/-- The pins send nothing to the transport: the chip is deselected (Variant A), or no status read shows busy or a ready slot
(Variant B; log entry 18). -/
def Port.SentNothing (q : Port) (p : Params) (pins : Pins) : Prop :=
  match q with
  | .a _ _ => pins.csN = true
  | .b pb => ∀ sr, pb.statusRead pins = some sr →
      busyBit p sr = false ∧ trdyBit p sr = false ∧ rrdyBit p sr = false

/-- A quiescent Transport A sees the chip deselected in this tick and in the last one. -/
theorem Port.quiescent_a_iff (y : Sync) (a : PortA) :
    (Port.a y a).quiescent = true ↔ y.csn1 = true ∧ y.selS = false ∧ a.selPrev = false := by
  simp [Port.quiescent, Sync.selS, and_assoc]

theorem Port.quiescent_b_iff (b : PortB) :
    (Port.b b).quiescent = true ↔ (b.state = .idle ∨ b.state = .poll) ∧ b.busy = false := by
  simp [Port.quiescent]

/-- A quiescent transport to which nothing is sent shows no `Start` and makes no request. (A `Done`, or a byte received late,
may still be on its way in Variant B.) -/
theorem Port.events_of_quiescent {q : Port} {p : Params} {i : Inputs} (hq : q.quiescent = true)
    (hn : q.SentNothing p i.pins) : (q.events p i).start = false ∧ (q.events p i).txReq = false := by
  cases q with
  | a y a =>
    obtain ⟨-, hsel, -⟩ := (Port.quiescent_a_iff y a).1 hq
    simp [Port.events, PortA.events, PortA.start, PortA.active, hsel]
  | b b =>
    obtain ⟨-, hbusy⟩ := (Port.quiescent_b_iff b).1 hq
    refine ⟨by simp [Port.events, PortB.events, PortB.busyRise, hbusy], ?_⟩
    rw [← Bool.not_eq_true]
    intro hreq
    obtain ⟨⟨⟨hst, hack⟩, -⟩, htrdy⟩ : ((b.state = .poll ∧ i.pins.sbAck = true) ∧ rrdyBit p i.pins.sbDatR = false) ∧
        trdyBit p i.pins.sbDatR = true := by simpa [Port.events, PortB.events] using hreq
    obtain ⟨-, hunready, -⟩ := hn i.pins.sbDatR ((b.statusRead_eq_some _ _).2 ⟨hst, hack, rfl⟩)
    simp [hunready] at htrdy

/-- Such a transport stays quiescent: deselected, or in its polling loop. -/
theorem Port.next_quiescent {q : Port} {p : Params} {i : Inputs} (hq : q.quiescent = true)
    (hn : q.SentNothing p i.pins) (x : Byte) : (q.next p i x).quiescent = true := by
  cases q with
  | a y a =>
    obtain ⟨hcs, hsel, -⟩ := (Port.quiescent_a_iff y a).1 hq
    exact (Port.quiescent_a_iff _ _).2 ⟨hn, by simp [Sync.selS, Sync.next, hcs], hsel⟩
  | b b =>
    obtain ⟨hst, hbusy⟩ := (Port.quiescent_b_iff b).1 hq
    refine (Port.quiescent_b_iff _).2 ?_
    rcases hst with hst | hst
    · rw [b.next_idle _ _ _ _ hst]
      exact ⟨.inr rfl, hbusy⟩
    · cases hack : i.pins.sbAck with
      | false =>
        rw [b.next_of_no_ack _ _ _ (by simp [hst])]
        exact ⟨.inr hst, hbusy⟩
      | true =>
        obtain ⟨hb, ht, hr⟩ := hn i.pins.sbDatR ((b.statusRead_eq_some _ _).2 ⟨hst, hack, rfl⟩)
        rw [b.next_poll_unready _ _ _ hst hr ht]
        exact ⟨.inl rfl, hb⟩

/-! ## The Bridge in Idle, and the run -/

/-- In Idle a tick without `Start` and request changes at most the counter (43_bridge.md R183, R196, R197). -/
theorem Bridge.next_of_rest {b : Bridge} {e : Events} (s : BusSide) (hst : b.state = .idle) (hs : e.start = false)
    (hr : e.txReq = false) : b.next e s = { b with count := if e.done then 0#3 else b.count } := by
  rw [b.next_idle e s hst hs, b.outgoing_keep e s (by simp [hst]) (.inl hr)]

/-- From `s` to `t` nothing was recorded or sent, and of the Bridge at most the counter changed. -/
structure State.RestsTo (s t : State) : Prop where
  bridge : ∃ k, t.br = { s.br with count := k }
  record : t.record = s.record
  served : t.served = s.served

theorem State.RestsTo.refl (s : State) : s.RestsTo s := ⟨⟨s.br.count, rfl⟩, rfl, rfl⟩

theorem State.RestsTo.trans {s t u : State} (h : s.RestsTo t) (h' : t.RestsTo u) : s.RestsTo u := by
  obtain ⟨⟨k, hk⟩, hrecord, hserved⟩ := h
  obtain ⟨⟨k', hk'⟩, hrecord', hserved'⟩ := h'
  exact ⟨⟨k', by rw [hk', hk]⟩, hrecord'.trans hrecord, hserved'.trans hserved⟩

/-- One tick in which nothing is sent. -/
theorem State.restsTo_tick {s : State} {p : Pins} (hst : s.br.state = .idle) (hq : s.port.quiescent = true)
    (hr : p.rst = false) (hn : s.port.SentNothing s.cfg p) :
    s.RestsTo (s.tick p) ∧ (s.tick p).port.quiescent = true := by
  obtain ⟨hstart, hreq⟩ : (s.events (s.inputs p)).start = false ∧ (s.events (s.inputs p)).txReq = false :=
    Port.events_of_quiescent hq hn
  refine ⟨⟨⟨_, (s.tick_br_of_no_reset hr).trans (Bridge.next_of_rest _ hst hstart hreq)⟩, ?_, ?_⟩, ?_⟩
  · rw [s.tick_record p, Bridge.recorded_of_free (.inl hst), List.append_nil]
  · simp [State.tick, State.taken, hr, hreq]
  · rw [s.tick_port_of_no_reset p hr]
    exact Port.next_quiescent hq hn _

/-- A run in which nothing is sent. -/
theorem State.restsTo_run {s : State} {l : List Pins} (hst : s.br.state = .idle) (hq : s.port.quiescent = true)
    (hl : ∀ pre p post, l = pre ++ p :: post → p.rst = false ∧ (s.run pre).port.SentNothing s.cfg p) :
    s.RestsTo (s.run l) ∧ (s.run l).port.quiescent = true := by
  induction l generalizing s with
  | nil => exact ⟨.refl s, hq⟩
  | cons p l ih =>
    obtain ⟨hr, hn⟩ := hl [] p l rfl
    obtain ⟨hrests, hq'⟩ := State.restsTo_tick hst hq hr hn
    obtain ⟨k, hk⟩ := hrests.bridge
    obtain ⟨hrests', hq''⟩ := ih (s := s.tick p) (by rw [hk, hst]) hq' fun pre x post h => by
      rw [s.tick_cfg]
      exact hl (p :: pre) x post (by rw [h, List.cons_append])
    exact ⟨hrests.trans hrests', hq''⟩

theorem State.quiescent_eq_true_iff (s : State) (rest : List Pins) : s.quiescent rest = true ↔
    s.br.state = .idle ∧ (s.br.txLeft = 0#3 ∨ s.noFurtherFrame rest = true) ∧ s.port.quiescent = true := by
  simp [State.quiescent, and_assoc]

/-- Settles O53: nothing is sent in any tick of `l`, so the run rests; and what the remaining ticks show is told by
`State.noFurtherFrame_append`. -/
theorem quiescentStaysQuiescent : Obligations.QuiescentStaysQuiescent := by
  unfold Obligations.QuiescentStaysQuiescent
  intro s l rest hquiescent hrst hA hB
  obtain ⟨hst, hwaits, hq⟩ := (s.quiescent_eq_true_iff _).1 hquiescent
  have hsent : ∀ pre p post, l = pre ++ p :: post → p.rst = false ∧ (s.run pre).port.SentNothing s.cfg p := by
    intro pre p post hl
    have hmem : p ∈ l := by simp [hl]
    refine ⟨hrst p hmem, ?_⟩
    cases hport : (s.run pre).port with
    | a y a =>
      obtain ⟨y0, a0, h0⟩ : s.port.isA :=
        (State.run_keeps s.Preserves (fun t p ht => ht.trans (t.tick_preserves p)) pre s (.refl s)).transport.2
          ⟨y, a, hport⟩
      exact hA y0 a0 h0 p hmem
    | b b => exact fun sr hsr => hB pre p post b sr hl hport hsr
  obtain ⟨⟨⟨k, hk⟩, hrecord, hserved⟩, hq'⟩ := State.restsTo_run hst hq hsent
  rw [s.noFurtherFrame_append, Bool.and_eq_true] at hwaits
  rw [(s.run l).quiescent_eq_true_iff, hk]
  exact ⟨⟨hst, hwaits.imp_right And.right, hq'⟩, hrecord, hserved, rfl, rfl, rfl, rfl, rfl, rfl⟩

end Sys2Proof.Machine
end
